-- ==== Sys2Proof/Word.lean ====
section
/-! DEFINITION. The word types of the machine (00_scope.md R7, R8: every value is unsigned). -/

namespace Sys2Proof

/-- A general register, a memory cell, an 8-bit immediate `kk` (10_state.md R20, R27). -/
abbrev Byte := BitVec 8

/-- An instruction word, `I`, `pc`, a stack slot (10_state.md R23 to R25; 30_encoding.md R90). -/
abbrev Word := BitVec 16

/-- A 4-bit piece of an instruction word (30_encoding.md R91). -/
abbrev Nibble := BitVec 4

/-- The 12-bit field `nnn` (30_encoding.md R92). -/
abbrev Addr12 := BitVec 12

/-- The index of a `V` or `R` register: the value of a field `x` or `y` (30_encoding.md R92). -/
abbrev Reg := Fin 16

/-- A logical key number 0 to 15 (46_input.md R220). -/
abbrev Key := Fin 16

end Sys2Proof
end

