-- ==== Sys2Proof/Syntax.lean ====
section
/-! DEFINITION. The instructions: one constructor per row of spec/opcode_table.json, in the table's order
(30_encoding.md R95). A field that is a register index is a `Reg`, an immediate is a bit vector of its width. -/

namespace Sys2Proof

/-- The 44 instructions (00_scope.md R2). -/
inductive Instr where
  /-- `00Cn`: scroll down by `V[n]` rows (45_graphics.md R208). -/
  | scd (n : Reg)
  /-- `00E0`: clear the screen (R202). -/
  | cls
  /-- `00EE`: return (42_control.md R157). -/
  | ret
  /-- `00FB`: scroll right, a stub (R209). -/
  | scr
  /-- `00FC`: scroll left, a stub (R210). -/
  | scl
  /-- `00FD`: stop the machine (R159). -/
  | exit
  /-- `00FE`: leave high resolution (R206). -/
  | low
  /-- `00FF`: enter high resolution (R207). -/
  | high
  /-- `0nnn` with `n1` nonzero: native call (R160). -/
  | sys (nnn : Addr12)
  /-- `1nnn`: jump (R155). -/
  | jp (nnn : Addr12)
  /-- `2nnn`: call (R156). -/
  | call (nnn : Addr12)
  /-- `3xkk`: skip if equal to the immediate (R151). -/
  | seImm (x : Reg) (kk : Byte)
  /-- `4xkk`: skip if different from the immediate (R152). -/
  | sneImm (x : Reg) (kk : Byte)
  /-- `5xy0`: skip if the registers are equal (R153). -/
  | seReg (x y : Reg)
  /-- `6xkk`: load immediate (41_arithmetic.md R131). -/
  | ldImm (x : Reg) (kk : Byte)
  /-- `7xkk`: add immediate (R132). -/
  | addImm (x : Reg) (kk : Byte)
  /-- `8xy0`: copy (R133). -/
  | ldReg (x y : Reg)
  /-- `8xy1`: or (R134). -/
  | orReg (x y : Reg)
  /-- `8xy2`: and (R135). -/
  | andReg (x y : Reg)
  /-- `8xy3`: exclusive or (R136). -/
  | xorReg (x y : Reg)
  /-- `8xy4`: add with carry out (R137). -/
  | addReg (x y : Reg)
  /-- `8xy5`: `V[x] - V[y]` (R138). -/
  | subReg (x y : Reg)
  /-- `8xy6`: shift `V[y]` right (R139). -/
  | shrReg (x y : Reg)
  /-- `8xy7`: `V[y] - V[x]` (R140). -/
  | subnReg (x y : Reg)
  /-- `8xyE`: shift `V[y]` left (R141). -/
  | shlReg (x y : Reg)
  /-- `9xy0`: skip if the registers differ (R154). -/
  | sneReg (x y : Reg)
  /-- `Annn`: load `I` (43_index_memory.md R170). -/
  | ldI (nnn : Addr12)
  /-- `Bnnn`: jump to `V[0] + nnn` (R158). -/
  | jpV0 (nnn : Addr12)
  /-- `Cxkk`: random byte under a mask (R142). -/
  | rnd (x : Reg) (kk : Byte)
  /-- `Dxyn`: draw a sprite (R203 to R205). -/
  | drw (x y : Reg) (n : Nibble)
  /-- `Ex9E`: skip if the key is pressed (46_input.md R221). -/
  | skp (x : Reg)
  /-- `ExA1`: skip if the key is not pressed (R222). -/
  | sknp (x : Reg)
  /-- `Fx07`: read the delay timer (44_timers.md R191). -/
  | ldVxDt (x : Reg)
  /-- `Fx0A`: wait for a key by polling (R223). -/
  | ldVxK (x : Reg)
  /-- `Fx15`: arm the delay timer (R192). -/
  | ldDtVx (x : Reg)
  /-- `Fx18`: arm the sound timer (R193). -/
  | ldStVx (x : Reg)
  /-- `Fx1E`: add to `I` (R171). -/
  | addI (x : Reg)
  /-- `Fx29`: point `I` at a low-resolution glyph (R172). -/
  | ldF (x : Reg)
  /-- `Fx30`: point `I` at a high-resolution glyph (R173). -/
  | ldHf (x : Reg)
  /-- `Fx33`: store three decimal digits (R174). -/
  | ldB (x : Reg)
  /-- `Fx55`: store `V[0]` to `V[x]` (R175). -/
  | ldMemVx (x : Reg)
  /-- `Fx65`: load `V[0]` to `V[x]` (R176). -/
  | ldVxMem (x : Reg)
  /-- `Fx75`: store to the persistent registers (R177). -/
  | ldRVx (x : Reg)
  /-- `Fx85`: load from the persistent registers (R178). -/
  | ldVxR (x : Reg)
  deriving DecidableEq, Repr

end Sys2Proof
end

