-- ==== Sys2Proof/WellFormed.lean ====
section
/-! DEFINITION. Which instruction terms have an encoding. The field types bound every operand, so the one check left
is the constraint of the row `SYS nnn` (30_encoding.md R94, R95 row 9, R97). -/

namespace Sys2Proof

/-- `0nnn` is a native call only when its nibble `n1`, the top nibble of `nnn`, is not 0: the words `00kk` are
either `00..` instructions or unknown (30_encoding.md R94, R100). -/
def sysInRange (nnn : Addr12) : Bool := nnn.extractLsb' 8 4 != 0#4

/-- The instruction term has a word of its own. -/
def Instr.wellFormed : Instr → Bool
  | .sys nnn => sysInRange nnn
  | .scd _ | .cls | .ret | .scr | .scl | .exit | .low | .high | .jp _ | .call _ => true
  | .seImm _ _ | .sneImm _ _ | .seReg _ _ | .ldImm _ _ | .addImm _ _ | .ldReg _ _ | .orReg _ _ => true
  | .andReg _ _ | .xorReg _ _ | .addReg _ _ | .subReg _ _ | .shrReg _ _ | .subnReg _ _ | .shlReg _ _ => true
  | .sneReg _ _ | .ldI _ | .jpV0 _ | .rnd _ _ | .drw _ _ _ | .skp _ | .sknp _ | .ldVxDt _ | .ldVxK _ => true
  | .ldDtVx _ | .ldStVx _ | .addI _ | .ldF _ | .ldHf _ | .ldB _ | .ldMemVx _ | .ldVxMem _ => true
  | .ldRVx _ | .ldVxR _ => true

end Sys2Proof
end

