-- ==== Sys2Proof/Decode.lean ====
section
/-! DEFINITION. The decoder, total on every word and on every list of bytes, and the encoder (30_encoding.md R90 to
R97). Both are written from the opcode map R95. The map itself stands at the end as `opcodeMap`, rows in the spec's
order, so that a statement can compare the decoder with it. -/

namespace Sys2Proof

/-- Why bytes are no instruction. -/
inductive DecodeError where
  /-- The word matches no row of the opcode map (30_encoding.md R96). -/
  | unknownOpcode (op : Word)
  /-- Fewer than the two bytes every instruction has (30_encoding.md R90). -/
  | truncated
  deriving DecidableEq, Repr

/-! Fields of a word (30_encoding.md R91, R92). -/

/-- Nibble `n0`, bits 15 to 12. -/
def fieldN0 (op : Word) : Nibble := op.extractLsb' 12 4

/-- Nibble `n1`, bits 11 to 8. -/
def fieldN1 (op : Word) : Nibble := op.extractLsb' 8 4

/-- Nibble `n2`, bits 7 to 4. -/
def fieldN2 (op : Word) : Nibble := op.extractLsb' 4 4

/-- Nibble `n3`, bits 3 to 0: the field `n`. -/
def fieldN3 (op : Word) : Nibble := op.extractLsb' 0 4

/-- The field `kk`, bits 7 to 0. -/
def fieldKk (op : Word) : Byte := op.extractLsb' 0 8

/-- The field `nnn`, bits 11 to 0. -/
def fieldNnn (op : Word) : Addr12 := op.extractLsb' 0 12

/-- A nibble read as a register index (30_encoding.md R92). -/
def regOfNibble (b : Nibble) : Reg := ⟨b.toNat, b.isLt⟩

/-- A register index as the nibble that encodes it. -/
def nibbleOfReg (x : Reg) : Nibble := BitVec.ofNat 4 x.val

/-- The field `x`. -/
def fieldX (op : Word) : Reg := regOfNibble (fieldN1 op)

/-- The field `y`. -/
def fieldY (op : Word) : Reg := regOfNibble (fieldN2 op)

/-! The decoder, by the leading nibble (30_encoding.md R94: a pure pattern match over the nibbles). -/

/-- The words `00kk` (30_encoding.md R95 rows 1 to 8). -/
def decodeZero (op : Word) : Except DecodeError Instr :=
  match (fieldKk op).toNat with
  | 0xE0 => .ok .cls
  | 0xEE => .ok .ret
  | 0xFB => .ok .scr
  | 0xFC => .ok .scl
  | 0xFD => .ok .exit
  | 0xFE => .ok .low
  | 0xFF => .ok .high
  | _ => if fieldN2 op = 0xC#4 then .ok (.scd (regOfNibble (fieldN3 op))) else .error (.unknownOpcode op)

/-- The words `8xyn` (30_encoding.md R95 rows 17 to 25). -/
def decodeEight (op : Word) : Except DecodeError Instr :=
  match (fieldN3 op).toNat with
  | 0x0 => .ok (.ldReg (fieldX op) (fieldY op))
  | 0x1 => .ok (.orReg (fieldX op) (fieldY op))
  | 0x2 => .ok (.andReg (fieldX op) (fieldY op))
  | 0x3 => .ok (.xorReg (fieldX op) (fieldY op))
  | 0x4 => .ok (.addReg (fieldX op) (fieldY op))
  | 0x5 => .ok (.subReg (fieldX op) (fieldY op))
  | 0x6 => .ok (.shrReg (fieldX op) (fieldY op))
  | 0x7 => .ok (.subnReg (fieldX op) (fieldY op))
  | 0xE => .ok (.shlReg (fieldX op) (fieldY op))
  | _ => .error (.unknownOpcode op)

/-- The words `Exkk` (30_encoding.md R95 rows 31, 32). -/
def decodeE (op : Word) : Except DecodeError Instr :=
  match (fieldKk op).toNat with
  | 0x9E => .ok (.skp (fieldX op))
  | 0xA1 => .ok (.sknp (fieldX op))
  | _ => .error (.unknownOpcode op)

/-- The words `Fxkk` (30_encoding.md R95 rows 33 to 44). -/
def decodeF (op : Word) : Except DecodeError Instr :=
  match (fieldKk op).toNat with
  | 0x07 => .ok (.ldVxDt (fieldX op))
  | 0x0A => .ok (.ldVxK (fieldX op))
  | 0x15 => .ok (.ldDtVx (fieldX op))
  | 0x18 => .ok (.ldStVx (fieldX op))
  | 0x1E => .ok (.addI (fieldX op))
  | 0x29 => .ok (.ldF (fieldX op))
  | 0x30 => .ok (.ldHf (fieldX op))
  | 0x33 => .ok (.ldB (fieldX op))
  | 0x55 => .ok (.ldMemVx (fieldX op))
  | 0x65 => .ok (.ldVxMem (fieldX op))
  | 0x75 => .ok (.ldRVx (fieldX op))
  | 0x85 => .ok (.ldVxR (fieldX op))
  | _ => .error (.unknownOpcode op)

/-- The instruction a word selects, or the name of what is wrong with it (30_encoding.md R94 to R96). -/
def decodeWord (op : Word) : Except DecodeError Instr :=
  match (fieldN0 op).toNat with
  | 0x0 => if fieldN1 op = 0#4 then decodeZero op else .ok (.sys (fieldNnn op))
  | 0x1 => .ok (.jp (fieldNnn op))
  | 0x2 => .ok (.call (fieldNnn op))
  | 0x3 => .ok (.seImm (fieldX op) (fieldKk op))
  | 0x4 => .ok (.sneImm (fieldX op) (fieldKk op))
  | 0x5 => if fieldN3 op = 0#4 then .ok (.seReg (fieldX op) (fieldY op)) else .error (.unknownOpcode op)
  | 0x6 => .ok (.ldImm (fieldX op) (fieldKk op))
  | 0x7 => .ok (.addImm (fieldX op) (fieldKk op))
  | 0x8 => decodeEight op
  | 0x9 => if fieldN3 op = 0#4 then .ok (.sneReg (fieldX op) (fieldY op)) else .error (.unknownOpcode op)
  | 0xA => .ok (.ldI (fieldNnn op))
  | 0xB => .ok (.jpV0 (fieldNnn op))
  | 0xC => .ok (.rnd (fieldX op) (fieldKk op))
  | 0xD => .ok (.drw (fieldX op) (fieldY op) (fieldN3 op))
  | 0xE => decodeE op
  | _ => decodeF op

/-- The instruction at the head of a list of bytes, with the bytes after it: the first byte is the high byte
(20_memory.md R66). -/
def decode : List Byte → Except DecodeError (Instr × List Byte)
  | hi :: lo :: rest =>
    match decodeWord (hi ++ lo) with
    | .ok i => .ok (i, rest)
    | .error e => .error e
  | _ => .error .truncated

/-- The two bytes of a word in the order the memory holds them: high byte first (20_memory.md R66). -/
def bytesOfWord (op : Word) : List Byte := [op.extractLsb' 8 8, op.extractLsb' 0 8]

/-- The host's question: the instruction the decoder reads from the first `nbits` bits of `w`, every higher bit being
0, numbered as spec/opcode_table.json numbers them. -/
def decodeTableWord (nbits w : Nat) : Option Instr :=
  match decode (bytesOfWord (BitVec.ofNat 16 (w % 2 ^ nbits))) with
  | .ok (i, _) => some i
  | .error _ => none

/-! The encoder (30_encoding.md R93, R95). -/

/-- Format `XKK`. -/
def wordXKK (n0 : Nibble) (x : Reg) (kk : Byte) : Word := n0 ++ nibbleOfReg x ++ kk

/-- Format `NNN`. -/
def wordNNN (n0 : Nibble) (nnn : Addr12) : Word := n0 ++ nnn

/-- Formats `XY` (last nibble fixed) and `XYN`. -/
def wordXYN (n0 : Nibble) (x y : Reg) (n : Nibble) : Word := n0 ++ nibbleOfReg x ++ nibbleOfReg y ++ n

/-- The word of an instruction. -/
def encode : Instr → Word
  | .scd n => 0x00C#12 ++ nibbleOfReg n
  | .cls => 0x00E0#16
  | .ret => 0x00EE#16
  | .scr => 0x00FB#16
  | .scl => 0x00FC#16
  | .exit => 0x00FD#16
  | .low => 0x00FE#16
  | .high => 0x00FF#16
  | .sys nnn => wordNNN 0x0#4 nnn
  | .jp nnn => wordNNN 0x1#4 nnn
  | .call nnn => wordNNN 0x2#4 nnn
  | .seImm x kk => wordXKK 0x3#4 x kk
  | .sneImm x kk => wordXKK 0x4#4 x kk
  | .seReg x y => wordXYN 0x5#4 x y 0x0#4
  | .ldImm x kk => wordXKK 0x6#4 x kk
  | .addImm x kk => wordXKK 0x7#4 x kk
  | .ldReg x y => wordXYN 0x8#4 x y 0x0#4
  | .orReg x y => wordXYN 0x8#4 x y 0x1#4
  | .andReg x y => wordXYN 0x8#4 x y 0x2#4
  | .xorReg x y => wordXYN 0x8#4 x y 0x3#4
  | .addReg x y => wordXYN 0x8#4 x y 0x4#4
  | .subReg x y => wordXYN 0x8#4 x y 0x5#4
  | .shrReg x y => wordXYN 0x8#4 x y 0x6#4
  | .subnReg x y => wordXYN 0x8#4 x y 0x7#4
  | .shlReg x y => wordXYN 0x8#4 x y 0xE#4
  | .sneReg x y => wordXYN 0x9#4 x y 0x0#4
  | .ldI nnn => wordNNN 0xA#4 nnn
  | .jpV0 nnn => wordNNN 0xB#4 nnn
  | .rnd x kk => wordXKK 0xC#4 x kk
  | .drw x y n => wordXYN 0xD#4 x y n
  | .skp x => wordXKK 0xE#4 x 0x9E#8
  | .sknp x => wordXKK 0xE#4 x 0xA1#8
  | .ldVxDt x => wordXKK 0xF#4 x 0x07#8
  | .ldVxK x => wordXKK 0xF#4 x 0x0A#8
  | .ldDtVx x => wordXKK 0xF#4 x 0x15#8
  | .ldStVx x => wordXKK 0xF#4 x 0x18#8
  | .addI x => wordXKK 0xF#4 x 0x1E#8
  | .ldF x => wordXKK 0xF#4 x 0x29#8
  | .ldHf x => wordXKK 0xF#4 x 0x30#8
  | .ldB x => wordXKK 0xF#4 x 0x33#8
  | .ldMemVx x => wordXKK 0xF#4 x 0x55#8
  | .ldVxMem x => wordXKK 0xF#4 x 0x65#8
  | .ldRVx x => wordXKK 0xF#4 x 0x75#8
  | .ldVxR x => wordXKK 0xF#4 x 0x85#8

/-! The opcode map as data (30_encoding.md R95). -/

/-- One row of the opcode map: a word `w` selects it when `w &&& mask = value`, and, for the row `SYS nnn`, also
`w &&& 0x0F00 ≠ 0`. -/
structure OpRow where
  /-- The row's number in R95. -/
  num : Nat
  mask : Word
  value : Word
  /-- The extra constraint of row 9. -/
  needsN1 : Bool := false
  deriving DecidableEq, Repr

/-- The word selects the row. -/
def rowMatches (w : Word) (row : OpRow) : Bool :=
  w &&& row.mask == row.value && (!row.needsN1 || w &&& 0x0F00#16 != 0#16)

/-- Rows 1 to 16 of R95. -/
def opcodeRowsLow : List OpRow :=
  [ ⟨1, 0xFFF0#16, 0x00C0#16, false⟩, ⟨2, 0xFFFF#16, 0x00E0#16, false⟩, ⟨3, 0xFFFF#16, 0x00EE#16, false⟩,
    ⟨4, 0xFFFF#16, 0x00FB#16, false⟩, ⟨5, 0xFFFF#16, 0x00FC#16, false⟩, ⟨6, 0xFFFF#16, 0x00FD#16, false⟩,
    ⟨7, 0xFFFF#16, 0x00FE#16, false⟩, ⟨8, 0xFFFF#16, 0x00FF#16, false⟩, ⟨9, 0xF000#16, 0x0000#16, true⟩,
    ⟨10, 0xF000#16, 0x1000#16, false⟩, ⟨11, 0xF000#16, 0x2000#16, false⟩, ⟨12, 0xF000#16, 0x3000#16, false⟩,
    ⟨13, 0xF000#16, 0x4000#16, false⟩, ⟨14, 0xF00F#16, 0x5000#16, false⟩, ⟨15, 0xF000#16, 0x6000#16, false⟩,
    ⟨16, 0xF000#16, 0x7000#16, false⟩ ]

/-- Rows 17 to 30 of R95. -/
def opcodeRowsMid : List OpRow :=
  [ ⟨17, 0xF00F#16, 0x8000#16, false⟩, ⟨18, 0xF00F#16, 0x8001#16, false⟩, ⟨19, 0xF00F#16, 0x8002#16, false⟩,
    ⟨20, 0xF00F#16, 0x8003#16, false⟩, ⟨21, 0xF00F#16, 0x8004#16, false⟩, ⟨22, 0xF00F#16, 0x8005#16, false⟩,
    ⟨23, 0xF00F#16, 0x8006#16, false⟩, ⟨24, 0xF00F#16, 0x8007#16, false⟩, ⟨25, 0xF00F#16, 0x800E#16, false⟩,
    ⟨26, 0xF00F#16, 0x9000#16, false⟩, ⟨27, 0xF000#16, 0xA000#16, false⟩, ⟨28, 0xF000#16, 0xB000#16, false⟩,
    ⟨29, 0xF000#16, 0xC000#16, false⟩, ⟨30, 0xF000#16, 0xD000#16, false⟩ ]

/-- Rows 31 to 44 of R95. -/
def opcodeRowsHigh : List OpRow :=
  [ ⟨31, 0xF0FF#16, 0xE09E#16, false⟩, ⟨32, 0xF0FF#16, 0xE0A1#16, false⟩, ⟨33, 0xF0FF#16, 0xF007#16, false⟩,
    ⟨34, 0xF0FF#16, 0xF00A#16, false⟩, ⟨35, 0xF0FF#16, 0xF015#16, false⟩, ⟨36, 0xF0FF#16, 0xF018#16, false⟩,
    ⟨37, 0xF0FF#16, 0xF01E#16, false⟩, ⟨38, 0xF0FF#16, 0xF029#16, false⟩, ⟨39, 0xF0FF#16, 0xF030#16, false⟩,
    ⟨40, 0xF0FF#16, 0xF033#16, false⟩, ⟨41, 0xF0FF#16, 0xF055#16, false⟩, ⟨42, 0xF0FF#16, 0xF065#16, false⟩,
    ⟨43, 0xF0FF#16, 0xF075#16, false⟩, ⟨44, 0xF0FF#16, 0xF085#16, false⟩ ]

/-- The opcode map of R95, in its order. -/
def opcodeMap : List OpRow := opcodeRowsLow ++ opcodeRowsMid ++ opcodeRowsHigh

/-- The number of the first row a word matches (30_encoding.md R94), none for an unknown word (R96). -/
def selectRow (w : Word) : Option Nat := (opcodeMap.find? (rowMatches w)).map (·.num)

/-- The row of R95 an instruction stands for. -/
def rowOf : Instr → Nat
  | .scd _ => 1 | .cls => 2 | .ret => 3 | .scr => 4 | .scl => 5 | .exit => 6 | .low => 7 | .high => 8
  | .sys _ => 9 | .jp _ => 10 | .call _ => 11 | .seImm _ _ => 12 | .sneImm _ _ => 13 | .seReg _ _ => 14
  | .ldImm _ _ => 15 | .addImm _ _ => 16 | .ldReg _ _ => 17 | .orReg _ _ => 18 | .andReg _ _ => 19
  | .xorReg _ _ => 20 | .addReg _ _ => 21 | .subReg _ _ => 22 | .shrReg _ _ => 23 | .subnReg _ _ => 24
  | .shlReg _ _ => 25 | .sneReg _ _ => 26 | .ldI _ => 27 | .jpV0 _ => 28 | .rnd _ _ => 29 | .drw _ _ _ => 30
  | .skp _ => 31 | .sknp _ => 32 | .ldVxDt _ => 33 | .ldVxK _ => 34 | .ldDtVx _ => 35 | .ldStVx _ => 36
  | .addI _ => 37 | .ldF _ => 38 | .ldHf _ => 39 | .ldB _ => 40 | .ldMemVx _ => 41 | .ldVxMem _ => 42
  | .ldRVx _ => 43 | .ldVxR _ => 44

end Sys2Proof
end

