-- ==== Sys2Proof/Config.lean ====
section
/-! DEFINITION. What an implementation fixes, at the defaults of 00_scope.md R6, and the two free values that stand
for the inputs of a step (40_fetch_dispatch.md R111). -/

namespace Sys2Proof.Config

/-- `MEM_SIZE`: bytes of memory (00_scope.md R5). -/
def memSize : Nat := 4096

/-- `PROG_BASE`: where the image is loaded and where `pc` starts (R6, D1). DESIGN CHOICE (of the spec), log entry 4. -/
def progBase : Word := 0x200#16

/-- `FONT_LO_BASE` (R6, D2). DESIGN CHOICE (of the spec), log entry 5. -/
def fontLoBase : Nat := 0x050

/-- `FONT_LO_STRIDE`: bytes per low-resolution glyph (R6, D2). -/
def fontLoStride : Nat := 5

/-- `FONT_HI_BASE` (R6, D2). DESIGN CHOICE (of the spec), log entry 5. -/
def fontHiBase : Nat := 0x0A0

/-- `FONT_HI_STRIDE`: bytes per high-resolution glyph (R6, D2). -/
def fontHiStride : Nat := 10

/-- `PC_EXIT`: the sentinel that `00FD` writes (R6, D3). DESIGN CHOICE (of the spec), log entry 4. -/
def pcExit : Word := 0xFFFF#16

/-- `SP_MAX`: the largest `sp` (R6, D9, 90_conflicts.md C3). DESIGN CHOICE (of the spec), log entry 4. -/
def spMax : Nat := 15

/-- `SNE_REG_SKIPS_ON_EQUAL` (D12, 90_conflicts.md C1). DESIGN CHOICE (of the spec), log entry 4. -/
def sneRegSkipsOnEqual : Bool := false

/-- `FONT_LO_DATA`: glyphs 0 to 7 (70_reset_and_hazards.md R264). -/
def fontLoFirst : List Byte :=
  [0xF0, 0x90, 0x90, 0x90, 0xF0] ++ [0x20, 0x60, 0x20, 0x20, 0x70] ++
  [0xF0, 0x10, 0xF0, 0x80, 0xF0] ++ [0xF0, 0x10, 0xF0, 0x10, 0xF0] ++
  [0x90, 0x90, 0xF0, 0x10, 0x10] ++ [0xF0, 0x80, 0xF0, 0x10, 0xF0] ++
  [0xF0, 0x80, 0xF0, 0x90, 0xF0] ++ [0xF0, 0x10, 0x20, 0x40, 0x40]

/-- `FONT_LO_DATA`: glyphs 8 to F (R264). -/
def fontLoLast : List Byte :=
  [0xF0, 0x90, 0xF0, 0x90, 0xF0] ++ [0xF0, 0x90, 0xF0, 0x10, 0xF0] ++
  [0xF0, 0x90, 0xF0, 0x90, 0x90] ++ [0xE0, 0x90, 0xE0, 0x90, 0xE0] ++
  [0xF0, 0x80, 0x80, 0x80, 0xF0] ++ [0xE0, 0x90, 0x90, 0x90, 0xE0] ++
  [0xF0, 0x80, 0xF0, 0x80, 0xF0] ++ [0xF0, 0x80, 0xF0, 0x80, 0x80]

/-- `FONT_LO_DATA`: 16 glyphs of 5 bytes (R264). PRESUMED, log entry 5. -/
def fontLoData : List Byte := fontLoFirst ++ fontLoLast

/-- `FONT_HI_DATA`: 10 glyphs of 10 bytes (R265). PRESUMED, log entry 5: a claim names these bytes as a premise. -/
def fontHiData : List Byte :=
  [0x3C, 0x7E, 0xE7, 0xC3, 0xC3, 0xC3, 0xC3, 0xE7, 0x7E, 0x3C] ++
  [0x18, 0x38, 0x58, 0x18, 0x18, 0x18, 0x18, 0x18, 0x18, 0x3C] ++
  [0x3E, 0x7F, 0xC3, 0x06, 0x0C, 0x18, 0x30, 0x60, 0xFF, 0xFF] ++
  [0x3C, 0x7E, 0xC3, 0x03, 0x0E, 0x0E, 0x03, 0xC3, 0x7E, 0x3C] ++
  [0x06, 0x0E, 0x1E, 0x36, 0x66, 0xC6, 0xFF, 0xFF, 0x06, 0x06] ++
  [0xFF, 0xFF, 0xC0, 0xC0, 0xFC, 0xFE, 0x03, 0xC3, 0x7E, 0x3C] ++
  [0x3E, 0x7C, 0xC0, 0xC0, 0xFC, 0xFE, 0xC3, 0xC3, 0x7E, 0x3C] ++
  [0xFF, 0xFF, 0x03, 0x06, 0x0C, 0x18, 0x30, 0x60, 0x60, 0x60] ++
  [0x3C, 0x7E, 0xC3, 0xC3, 0x7E, 0x7E, 0xC3, 0xC3, 0x7E, 0x3C] ++
  [0x3C, 0x7E, 0xC3, 0xC3, 0x7F, 0x3F, 0x03, 0x03, 0x3E, 0x7C]

/-- FREE VALUE: the random byte of the `n`-th draw, under no law (40_fetch_dispatch.md R111, D19). Log entry 2. -/
opaque rnd : Nat → Byte

/-- FREE VALUE: the whole milliseconds that pass on the wall clock between the previous sample and the `n`-th draw;
any natural number, so the sampled instants are any sequence that never decreases (R111, 44_timers.md R196, D18).
Log entry 2. -/
opaque delay : Nat → Nat

end Sys2Proof.Config
end

