-- ==== Sys2Proof/Machine/State.lean ====
section
/-! DEFINITION. The machine's state as plain data (10_state.md), the two reason types of a step that does not answer a
next state, and the state after reset (10_state.md R38). -/

namespace Sys2Proof.Machine

/-- Memory as (address, byte) pairs, addresses strictly rising and below 4096, no byte 0: an address not listed holds 0,
which is what reset puts there (10_state.md R27, R38; 20_memory.md R60). `Memory.wf` says this form holds. -/
abbrev Memory := List Host.Cell

/-- The framebuffer: 32 rows of 64 pixels, row 0 at the top, column 0 at the left, true = lit (45_graphics.md R200). -/
abbrev Gfx := Vector (Vector Bool 64) 32

/-- The causes of a fault of the spec, in the order of their codes 1 to 8 (60_exceptions.md R230). A fault of the
spec is a NEXT state that holds the record; it is not an outcome `fault` of a step (log entry 3). -/
inductive FaultCause where
  | illegalOpcode
  | nativeCall
  | fetchBounds
  | memBounds
  | fbBounds
  | stackOverflow
  | stackUnderflow
  | keyIndex
  deriving DecidableEq, Repr

/-- The record of a fault (10_state.md R36). -/
structure FaultRecord where
  cause : FaultCause
  /-- The `pc` of the faulting instruction. -/
  fpc : Word
  /-- The fetched word, 0 when the fetch itself faulted. -/
  fop : Word
  /-- The cause-specific value. -/
  finfo : Word
  deriving DecidableEq, Repr

/-- The codes of the log port, 1 to 3 (40_fetch_dispatch.md R119). -/
inductive LogCode where
  | unknownOpcode
  | nativeCall
  | loadFailure
  deriving DecidableEq, Repr

/-- One event of the log port (R119). -/
structure LogEvent where
  code : LogCode
  info : Word
  deriving DecidableEq, Repr

/-- The state of the machine. The fields from `v` to `fault` are the spec's (10_state.md R20 to R36); the last three
are the model's own: the environment of the steps (log entry 2) and the events sent on the log port (log entry 6). -/
structure State where
  /-- `V[0..15]`, `V[15]` is VF (R20, R21). -/
  v : Vector Byte 16
  /-- `R[0..15]` (R22). -/
  r : Vector Byte 16
  /-- `I` (R23). -/
  i : Word
  /-- `pc` (R24). -/
  pc : Word
  /-- `sp`, the next free slot (R26). -/
  sp : Fin 16
  /-- `stack[0..15]` (R25). -/
  stack : Vector Word 16
  /-- `memory` (R27). -/
  mem : Memory
  /-- `gfx` (R28). -/
  gfx : Gfx
  /-- `hgr` (R29). -/
  hgr : Bool
  /-- `dt_armed` (R31). -/
  dtArmed : Byte
  /-- `dt_start`, in milliseconds (R31). -/
  dtStart : Option Nat
  /-- `st_armed` (R32). -/
  stArmed : Byte
  /-- `st_start` (R32). -/
  stStart : Option Nat
  /-- `key[0..15]`, true = pressed (R33). -/
  key : Vector Bool 16
  /-- `last_key` (R34). -/
  lastKey : Option Key
  /-- `draw_flag` (R35). -/
  drawFlag : Bool
  /-- `fault` (R36). -/
  fault : Option FaultRecord
  /-- MODEL: the last sampled instant of the wall clock. -/
  clock : Nat
  /-- MODEL: how many free inputs have been drawn. -/
  draws : Nat
  /-- MODEL: the events sent on the log port, oldest first. -/
  log : List LogEvent
  deriving DecidableEq, Repr

/-- Reasons for a step to stop with an outcome `fault`: there are none. Every fault the spec describes is taken as a
NEXT state with the record in `State.fault` (60_exceptions.md R231), nobody raises this type, and every step of the
machine answers a next state. Safe: nothing the hardware does is left out. -/
inductive Fault where
  deriving DecidableEq, Repr

/-- Reasons to refuse. A meaning raises none of them; the host interface (Machine/Ports.lean) refuses the host's
operations outside its contract, as 93_implementation_defined.md U19 asks. -/
inductive Refusal where
  /-- Raised by `exec` for an instruction that has no meaning yet: safe. No arm raises it. -/
  | notModelled (mnemonic : String)
  /-- Raised by `Session.apply` for a second `load`, or a `load` after a step, without a `reset` between
  (92_eei_decisions.md D30, 20_memory.md R73): safe. -/
  | loadOutOfOrder
  /-- Raised by `Session.apply` for a `step` after a failed `load` (70_reset_and_hazards.md R263): safe. -/
  | stepAfterFailedLoad
  /-- Raised by `Session.apply` for a `refresh_input` whose `first` is not a member of `keys`, or is none although a
  key is held (46_input.md R220): safe. -/
  | badRefresh
  /-- Raised by `Session.apply` for a `read_status` at an instant before the last sampled one
  (44_timers.md R196): safe. -/
  | clockBackwards
  deriving DecidableEq, Repr

/-- What an instruction's meaning answers. -/
abbrev Result := Host.Outcome State Fault Refusal

/-- The framebuffer with every pixel off. -/
def Gfx.blank : Gfx := Vector.replicate 32 (Vector.replicate 64 false)

/-- The machine right after reset (10_state.md R38, 70_reset_and_hazards.md R260): everything zero, the optional fields
none, `pc` at `PROG_BASE`. The model's own fields: clock and draws 0, nothing logged (log entries 2, 6). -/
def State.reset : State where
  v := Vector.replicate 16 0
  r := Vector.replicate 16 0
  i := 0
  pc := Config.progBase
  sp := 0
  stack := Vector.replicate 16 0
  mem := []
  gfx := Gfx.blank
  hgr := false
  dtArmed := 0
  dtStart := none
  stArmed := 0
  stStart := none
  key := Vector.replicate 16 false
  lastKey := none
  drawFlag := false
  fault := none
  clock := 0
  draws := 0
  log := []

end Sys2Proof.Machine
end

