-- ==== Sys2Proof/Machine/Memory.lean ====
section
/-! DEFINITION. The named operations over memory (20_memory.md). Byte order is decided here, once. -/

namespace Sys2Proof.Machine

/-- The byte at an address, 0 where nothing is listed. The bounds check of 20_memory.md R63 is the caller's
(`blockInBounds`): outside the 4096 bytes this answers 0 and no meaning uses it. -/
def Memory.read : Memory → Nat → Byte
  | [], _ => 0
  | (b, w) :: m, a => if a = b then w else if a < b then 0 else Memory.read m a

/-- Stores one byte and keeps the canonical form: a stored 0 removes the entry (20_memory.md R64). -/
def Memory.write : Memory → Nat → Byte → Memory
  | [], a, x => if x = 0 then [] else [(a, x)]
  | (b, w) :: m, a, x =>
    if a = b then (if x = 0 then m else (a, x) :: m)
    else if a < b then (if x = 0 then (b, w) :: m else (a, x) :: (b, w) :: m)
    else (b, w) :: Memory.write m a x

/-- The canonical form from an address on: addresses at least `lo` and rising, below 4096, no byte 0. -/
def Memory.wfFrom : Nat → Memory → Bool
  | _, [] => true
  | lo, (a, x) :: m => decide (lo ≤ a) && decide (a < Config.memSize) && (x != 0) && Memory.wfFrom (a + 1) m

/-- The canonical form of memory. -/
def Memory.wf (m : Memory) : Bool := Memory.wfFrom 0 m

/-- Two bytes as one word, the lower address in the high byte (20_memory.md R66, R67): instruction fetch and the row of
a high-resolution sprite. -/
def Memory.readWord (m : Memory) (a : Nat) : Word := Memory.read m a ++ Memory.read m (a + 1)

/-- Stores a list of bytes at rising addresses (20_memory.md R67). -/
def Memory.writeBlock : Memory → Nat → List Byte → Memory
  | m, _, [] => m
  | m, a, x :: xs => Memory.writeBlock (Memory.write m a x) (a + 1) xs

/-- The bounds check of an access to `len` bytes from `base`, on natural numbers (20_memory.md R63, R64; 43 R179). -/
def blockInBounds (base len : Nat) : Bool := decide (len = 0 ∨ base + len ≤ Config.memSize)

/-- The lowest address outside memory of an access that starts at `base` and does not fit: the `finfo` of MEM_BOUNDS
(60_exceptions.md R230). -/
def lowestOffending (base : Nat) : Nat := max base Config.memSize

end Sys2Proof.Machine
end

