-- ==== Sys2Proof/Machine/Screen.lean ====
section
/-! DEFINITION. The named operations over the framebuffer (45_graphics.md R200, R201, R204, R205, R208). -/

namespace Sys2Proof.Machine

/-- The coordinates of a pixel: column, row. They can lie outside the grid until they are checked. -/
abbrev Pixel := Nat × Nat

/-- The pixel lies in the 64 by 32 grid (45_graphics.md R201). -/
def Pixel.inGrid (p : Pixel) : Bool := decide (p.1 < 64 ∧ p.2 < 32)

/-- `Pix(c, r)`; false outside the grid, which no meaning reads (R201). -/
def Gfx.pix (g : Gfx) (c r : Nat) : Bool :=
  if h : c < 64 ∧ r < 32 then (g[r]'h.2)[c]'h.1 else false

/-- `Pix(c, r) <- Pix(c, r) ^ 1`; nothing outside the grid, where no meaning flips (R201). -/
def Gfx.flip (g : Gfx) (c r : Nat) : Gfx :=
  if h : c < 64 ∧ r < 32 then g.set r ((g[r]'h.2).set c (!(g[r]'h.2)[c]'h.1) h.1) h.2 else g

/-- Flips every pixel of a list, one after the other. -/
def Gfx.flipAll : Gfx → List Pixel → Gfx
  | g, [] => g
  | g, (c, r) :: ps => Gfx.flipAll (Gfx.flip g c r) ps

/-- Some pixel of the list is lit. A sprite's list holds no pixel twice, so this is the collision of R204: some flip
turns a lit pixel off. -/
def Gfx.anyLit (g : Gfx) (ps : List Pixel) : Bool := ps.any fun p => Gfx.pix g p.1 p.2

/-- The pixels under the set bits of one sprite row placed at `(c, r)`: bit `w - 1 - col` is column `col`, the most
significant bit first, of the first `cols` columns (R204, R205). -/
def rowPixels {w : Nat} (cols : Nat) (bits : BitVec w) (c r : Nat) : List Pixel :=
  ((List.range cols).filter fun col => bits.getMsbD col).map fun col => (c + col, r)

/-- The pixels under the set bits of a sprite whose rows are given from the top. -/
def spritePixels {w : Nat} (cols c : Nat) : Nat → List (BitVec w) → List Pixel
  | _, [] => []
  | r, bits :: rows => rowPixels cols bits c r ++ spritePixels cols c (r + 1) rows

/-- Scroll down by `n` rows: row `r` at `n` or below shows the old row `r - n`, the top `n` rows stay (R208). -/
def Gfx.scrollDown (g : Gfx) (n : Nat) : Gfx :=
  Vector.ofFn fun r : Fin 32 => if n ≤ r.val then g[r.val - n] else g[r.val]

end Sys2Proof.Machine
end

