-- ==== Sys2Proof/Machine/Ops.lean ====
section
/-! DEFINITION. The named operations over registers, the stack, the timers, the ports and the run state, and the ONE
operation that takes a fault. Every meaning is built from these. -/

namespace Sys2Proof.Machine

/-! Registers (10_state.md R20 to R24). -/

/-- `V[x]`. -/
def State.getV (s : State) (x : Reg) : Byte := s.v[x.val]

/-- `V[x] <- b`. -/
def State.setV (s : State) (x : Reg) (b : Byte) : State := { s with v := s.v.set x.val b }

/-- The flag register VF is `V[15]` (10_state.md R21). -/
def regF : Reg := 15

/-- `R[x]` (10_state.md R22). -/
def State.getR (s : State) (x : Reg) : Byte := s.r[x.val]

/-- `V[k] <- f k` for `k` from 0 to `x`: the block loads (43_index_memory.md R176, R178). -/
def State.loadV (s : State) (x : Reg) (f : Reg → Byte) : State :=
  { s with v := Vector.ofFn fun k : Reg => if k ≤ x then f k else s.getV k }

/-- `R[k] <- V[k]` for `k` from 0 to `x` (R177). -/
def State.saveR (s : State) (x : Reg) : State :=
  { s with r := Vector.ofFn fun k : Reg => if k ≤ x then s.getV k else s.getR k }

/-- `V[0]` to `V[x]` in rising order: what `Fx55` stores (R175). -/
def State.block (s : State) (x : Reg) : List Byte := (List.range (x.val + 1)).map fun k => s.v.getD k 0

/-- `I <- w`. -/
def State.setI (s : State) (w : Word) : State := { s with i := w }

/-- `I <- (I + x + 1) mod 65536`: the increment of the four block transfers (R175 to R178). -/
def State.bumpI (s : State) (x : Reg) : State := s.setI (s.i + BitVec.ofNat 16 (x.val + 1))

/-- `pc <- w`. -/
def State.setPc (s : State) (w : Word) : State := { s with pc := w }

/-- `pc <- pc + 2`, modulo 65536 (10_state.md R24, 40_fetch_dispatch.md R114). -/
def State.advance (s : State) : State := s.setPc (s.pc + 2)

/-- `pc <- pc + 4` if the condition holds, else `pc + 2` (42_control.md R150). -/
def State.skipIf (s : State) (c : Bool) : State := s.setPc (if c then s.pc + 4 else s.pc + 2)

/-! The call stack (10_state.md R25, R26). -/

/-- `stack[k]`. -/
def State.slot (s : State) (k : Fin 16) : Word := s.stack[k.val]

/-- `stack[sp] <- w; sp <- sp + 1`. The caller checks `sp` against `SP_MAX` first (42_control.md R156). -/
def State.push (s : State) (w : Word) : State := { s with stack := s.stack.set s.sp.val w, sp := s.sp + 1 }

/-- `sp <- sp - 1`; the slot keeps its value. The caller checks `sp` against 0 first (R157). -/
def State.pop (s : State) : State := { s with sp := s.sp - 1 }

/-! The other stores. -/

def State.setMem (s : State) (m : Memory) : State := { s with mem := m }

def State.setGfx (s : State) (g : Gfx) : State := { s with gfx := g }

/-- `hgr <- b` (10_state.md R29). -/
def State.setHgr (s : State) (b : Bool) : State := { s with hgr := b }

/-- `draw_flag <- 1` (45_graphics.md R211). -/
def State.markDrawn (s : State) : State := { s with drawFlag := true }

/-- Arms the delay timer at an instant (44_timers.md R192). -/
def State.armDelay (s : State) (b : Byte) (now : Nat) : State := { s with dtArmed := b, dtStart := some now }

/-- Arms the sound timer at an instant (R193). -/
def State.armSound (s : State) (b : Byte) (now : Nat) : State := { s with stArmed := b, stStart := some now }

/-- `key[k]` (10_state.md R33). -/
def State.pressed (s : State) (k : Key) : Bool := s.key[k.val]

/-- `log(code, info)`: one event on the log port (40_fetch_dispatch.md R119). -/
def State.emit (s : State) (code : LogCode) (info : Word) : State := { s with log := s.log ++ [⟨code, info⟩] }

/-! The inputs of a step (40_fetch_dispatch.md R111), drawn where an instruction uses them (log entry 2). -/

/-- `rnd`: the free byte of this draw. -/
def State.rndInput (s : State) : Byte := Config.rnd s.draws

/-- `now`: the last sampled instant plus a free number of milliseconds. -/
def State.nowInput (s : State) : Nat := s.clock + Config.delay s.draws

/-- Counts a draw of `rnd`. -/
def State.drewRnd (s : State) : State := { s with draws := s.draws + 1 }

/-- Counts a draw of `now` and keeps the instant as the last sampled one, so that `now` never decreases. -/
def State.sampledAt (s : State) (now : Nat) : State := { s with draws := s.draws + 1, clock := now }

/-- `TimerValue(armed, start, now)` (44_timers.md R190). -/
def timerValue (armed : Byte) (start : Option Nat) (now : Nat) : Byte :=
  match start with
  | none => 0
  | some t =>
    let ticks := (now - t) * 60 / 1000
    if armed.toNat ≤ ticks then 0 else BitVec.ofNat 8 (armed.toNat - ticks)

/-! Taking a fault (60_exceptions.md R231): the one operation. There is no return from a fault (R234); the way out is
the host's reset, `State.hostReset` beside it. -/

/-- `raise Fault(cause, info)` by the instruction whose word is `fop`: writes the record and nothing else. -/
def State.raise (s : State) (cause : FaultCause) (fop : Word) (info : Nat) : State :=
  { s with fault := some ⟨cause, s.pc, fop, BitVec.ofNat 16 info⟩ }

/-- The code of a cause (60_exceptions.md R230). -/
def FaultCause.code : FaultCause → Nat
  | .illegalOpcode => 1
  | .nativeCall => 2
  | .fetchBounds => 3
  | .memBounds => 4
  | .fbBounds => 5
  | .stackOverflow => 6
  | .stackUnderflow => 7
  | .keyIndex => 8

/-- The code of a log event (40_fetch_dispatch.md R119). -/
def LogCode.code : LogCode → Nat
  | .unknownOpcode => 1
  | .nativeCall => 2
  | .loadFailure => 3

/-- The host's `reset` (70_reset_and_hazards.md R260): every field of the machine to its reset value. The model's own
fields go on: the wall clock, the free inputs and the log belong to the environment (log entry 7). -/
def State.hostReset (s : State) : State := { State.reset with clock := s.clock, draws := s.draws, log := s.log }

/-! Run states and fetch (40_fetch_dispatch.md R110, R112). -/

/-- The three run states (R110). -/
inductive RunState where
  | faulted
  | halted
  | running
  deriving DecidableEq, Repr

/-- The run state is a function of `fault` and `pc` (R110). -/
def State.runState (s : State) : RunState :=
  if s.fault.isSome then .faulted else if s.pc = Config.pcExit then .halted else .running

/-- The instruction word at `pc`, none when one of its two bytes would lie outside memory (20_memory.md R65). -/
def State.fetch (s : State) : Option Word :=
  if s.pc.toNat + 2 ≤ Config.memSize then some (Memory.readWord s.mem s.pc.toNat) else none

/-- The engine's own fault at fetch: `FETCH_BOUNDS` with `finfo = pc` (R112 line 3). -/
def State.fetchFault (s : State) : State := s.raise .fetchBounds 0 s.pc.toNat

/-- The engine's own fault at decode: one log event and `ILLEGAL_OPCODE` with `finfo = op` (R112 line 6). -/
def State.illegalOpcode (s : State) (op : Word) : State :=
  (s.emit .unknownOpcode op).raise .illegalOpcode op op.toNat

/-- The state with a word stored where the next fetch reads it, high byte first; nothing where no fetch is possible. -/
def State.placeWord (s : State) (op : Word) : State :=
  if s.pc.toNat + 2 ≤ Config.memSize then s.setMem (Memory.writeBlock s.mem s.pc.toNat (bytesOfWord op)) else s

end Sys2Proof.Machine
end

