-- ==== Sys2Proof/Machine/Operands.lean ====
section
/-! DEFINITION. The operand forms of 30_encoding.md R92 and 43_index_memory.md R179: everything is zero-extended,
nothing is scaled, and an address is the natural number `I + offset`. -/

namespace Sys2Proof.Machine

/-- `nnn` as an address (`zext_16(nnn)`). -/
def addrOf (nnn : Addr12) : Word := nnn.zeroExtend 16

/-- A register byte in a 16-bit sum (`zext_16(V[x])`). -/
def State.wideV (s : State) (x : Reg) : Word := (s.getV x).zeroExtend 16

/-- `V[0] + nnn` (42_control.md R158). -/
def State.offsetTarget (s : State) (nnn : Addr12) : Word := s.wideV 0 + addrOf nnn

/-- The address of glyph `V[x]` in a font window, modulo 65536 (43_index_memory.md R172, R173). -/
def State.glyphAddr (s : State) (base stride : Nat) (x : Reg) : Word :=
  BitVec.ofNat 16 (base + stride * (s.getV x).toNat)

/-- The three decimal digits of a byte, hundreds first (R174). -/
def bcdDigits (b : Byte) : List Byte :=
  [BitVec.ofNat 8 (b.toNat / 100), BitVec.ofNat 8 (b.toNat / 10 % 10), BitVec.ofNat 8 (b.toNat % 10)]

/-- The key number a register holds, none when it is 16 or more (46_input.md R221, R222). -/
def State.keyOf (s : State) (x : Reg) : Option Key :=
  if h : (s.getV x).toNat < 16 then some ⟨(s.getV x).toNat, h⟩ else none

/-- The rows of a low-resolution sprite: `n` bytes from `I` (45_graphics.md R204). -/
def State.lowRows (s : State) (n : Nibble) : List Byte :=
  (List.range n.toNat).map fun row => Memory.read s.mem (s.i.toNat + row)

/-- The 15 rows of a high-resolution sprite: words from `I`, first byte high (R205). -/
def State.highRows (s : State) : List Word :=
  (List.range 15).map fun row => Memory.readWord s.mem (s.i.toNat + 2 * row)

/-- The draw is the high-resolution one (45_graphics.md R203). -/
def State.drawsHigh (s : State) (n : Nibble) : Bool := s.hgr && n == 0#4

/-- How many bytes from `I` the draw reads (R204, R205). -/
def State.spriteLength (s : State) (n : Nibble) : Nat := if s.drawsHigh n then 30 else n.toNat

/-- The pixels under the sprite's set bits, placed at `(V[x], V[y])` (R203 to R205). -/
def State.sprite (s : State) (x y : Reg) (n : Nibble) : List Pixel :=
  if s.drawsHigh n then spritePixels 15 (s.getV x).toNat (s.getV y).toNat s.highRows
  else spritePixels 8 (s.getV x).toNat (s.getV y).toNat (s.lowRows n)

/-- The `finfo` of FB_BOUNDS: the origin, row byte high, column byte low (R201). -/
def State.originInfo (s : State) (x y : Reg) : Nat := (s.getV y ++ s.getV x).toNat

end Sys2Proof.Machine
end

