-- ==== Sys2Proof/Machine/Flags.lean ====
section
/-! DEFINITION. The values the instructions write to VF (10_state.md R21) and the order of an instruction's writes
(41_arithmetic.md R130). -/

namespace Sys2Proof.Machine

/-- A flag as the byte VF holds: 1 or 0. -/
def flagByte (c : Bool) : Byte := if c then 1 else 0

/-- The carry of an 8-bit add: `a + b >= 256` (41_arithmetic.md R137, R143). -/
def carryFlag (a b : Byte) : Byte := flagByte (decide (256 ≤ a.toNat + b.toNat))

/-- The inverted borrow of `a - b`: 0 if `a < b`, else 1 (R138, R140, R143). -/
def noBorrowFlag (a b : Byte) : Byte := flagByte (decide (b.toNat ≤ a.toNat))

/-- The bit a right shift drops: bit 0 (R139). -/
def shiftedOutLow (b : Byte) : Byte := flagByte (b.getLsbD 0)

/-- The bit a left shift drops: bit 7 (R141). -/
def shiftedOutHigh (b : Byte) : Byte := flagByte (b.getLsbD 7)

/-- The flag of `7xkk`, always 0 (R132). -/
def addImmFlag : Byte := 0

/-- Writes a result, then `pc` (R130). -/
def State.finish (s : State) (x : Reg) (b : Byte) : State := (s.setV x b).advance

/-- Writes a result, then VF, then `pc`: with `x = 15` the flag is what stays (R130). -/
def State.finishFlag (s : State) (x : Reg) (b f : Byte) : State := ((s.setV x b).setV regF f).advance

end Sys2Proof.Machine
end

