-- ==== Sys2Proof/Machine/Arith.lean ====
section
/-! DEFINITION. The meanings of 41_arithmetic.md: load, arithmetic, logic, shift and random. None of them can fault. -/

namespace Sys2Proof.Machine

/-- `6xkk` (41_arithmetic.md R131). -/
def execLdImm (x : Reg) (kk : Byte) (s : State) : Result := .next (s.finish x kk)

/-- `7xkk` (R132): wraps, and VF is 0 whatever the sum. -/
def execAddImm (x : Reg) (kk : Byte) (s : State) : Result := .next (s.finishFlag x (s.getV x + kk) addImmFlag)

/-- `8xy0` (R133). -/
def execLdReg (x y : Reg) (s : State) : Result := .next (s.finish x (s.getV y))

/-- `8xy1` (R134): VF is not written. -/
def execOrReg (x y : Reg) (s : State) : Result := .next (s.finish x (s.getV x ||| s.getV y))

/-- `8xy2` (R135): VF is not written. -/
def execAndReg (x y : Reg) (s : State) : Result := .next (s.finish x (s.getV x &&& s.getV y))

/-- `8xy3` (R136): VF is not written. -/
def execXorReg (x y : Reg) (s : State) : Result := .next (s.finish x (s.getV x ^^^ s.getV y))

/-- `8xy4` (R137). -/
def execAddReg (x y : Reg) (s : State) : Result :=
  .next (s.finishFlag x (s.getV x + s.getV y) (carryFlag (s.getV x) (s.getV y)))

/-- `8xy5` (R138): `V[x] - V[y]`. -/
def execSubReg (x y : Reg) (s : State) : Result :=
  .next (s.finishFlag x (s.getV x - s.getV y) (noBorrowFlag (s.getV x) (s.getV y)))

/-- `8xy6` (R139): the source is `V[y]`. -/
def execShrReg (x y : Reg) (s : State) : Result :=
  .next (s.finishFlag x (s.getV y >>> 1) (shiftedOutLow (s.getV y)))

/-- `8xy7` (R140): `V[y] - V[x]`. -/
def execSubnReg (x y : Reg) (s : State) : Result :=
  .next (s.finishFlag x (s.getV y - s.getV x) (noBorrowFlag (s.getV y) (s.getV x)))

/-- `8xyE` (R141): the source is `V[y]`. -/
def execShlReg (x y : Reg) (s : State) : Result :=
  .next (s.finishFlag x (s.getV y <<< 1) (shiftedOutHigh (s.getV y)))

/-- `Cxkk` with the input byte given (R142). -/
def State.randomize (s : State) (x : Reg) (kk b : Byte) : State := s.drewRnd.finish x (b &&& kk)

/-- `Cxkk` (R142): the byte is the free input `rnd`. -/
def execRnd (x : Reg) (kk : Byte) (s : State) : Result := .next (s.randomize x kk s.rndInput)

end Sys2Proof.Machine
end

