-- ==== Sys2Proof/Machine/Control.lean ====
section
/-! DEFINITION. The meanings of 42_control.md: skips, jumps, call, return, exit and native call. -/

namespace Sys2Proof.Machine

/-- `3xkk` (42_control.md R151). -/
def execSeImm (x : Reg) (kk : Byte) (s : State) : Result := .next (s.skipIf (s.getV x == kk))

/-- `4xkk` (R152). -/
def execSneImm (x : Reg) (kk : Byte) (s : State) : Result := .next (s.skipIf (s.getV x != kk))

/-- `5xy0` (R153). -/
def execSeReg (x y : Reg) (s : State) : Result := .next (s.skipIf (s.getV x == s.getV y))

/-- `9xy0` (R154, 90_conflicts.md C1): skips when the registers differ, unless the parameter asks for the other
reading. -/
def execSneReg (x y : Reg) (s : State) : Result :=
  .next (s.skipIf (if Config.sneRegSkipsOnEqual then s.getV x == s.getV y else s.getV x != s.getV y))

/-- `1nnn` (R155). -/
def execJp (nnn : Addr12) (s : State) : Result := .next (s.setPc (addrOf nnn))

/-- `2nnn` (R156): pushes the call's own address. -/
def execCall (nnn : Addr12) (s : State) : Result :=
  if Config.spMax ≤ s.sp.val then .next (s.raise .stackOverflow (encode (.call nnn)) s.sp.val)
  else .next ((s.push s.pc).setPc (addrOf nnn))

/-- `00EE` (R157): the `+ 2` is added here. -/
def execRet (s : State) : Result :=
  if s.sp = 0 then .next (s.raise .stackUnderflow (encode .ret) 0)
  else .next (s.pop.setPc (s.slot (s.sp - 1) + 2))

/-- `Bnnn` (R158): not reduced modulo 4096. -/
def execJpV0 (nnn : Addr12) (s : State) : Result := .next (s.setPc (s.offsetTarget nnn))

/-- `00FD` (R159). -/
def execExit (s : State) : Result := .next (s.setPc Config.pcExit)

/-- `0nnn` with `n1` nonzero (R160): one log event and the fault NATIVE_CALL. -/
def execSys (nnn : Addr12) (s : State) : Result :=
  .next ((s.emit .nativeCall (encode (.sys nnn))).raise .nativeCall (encode (.sys nnn)) (encode (.sys nnn)).toNat)

end Sys2Proof.Machine
end

