-- ==== Sys2Proof/Machine/Index.lean ====
section
/-! DEFINITION. The meanings of 43_index_memory.md: the index register, BCD and the block transfers. -/

namespace Sys2Proof.Machine

/-- The fault MEM_BOUNDS of an access from `I` (43_index_memory.md R174 to R176, 60_exceptions.md R230). -/
def State.memFault (s : State) (fop : Word) : State := s.raise .memBounds fop (lowestOffending s.i.toNat)

/-- `Annn` (43_index_memory.md R170). -/
def execLdI (nnn : Addr12) (s : State) : Result := .next (s.setI (addrOf nnn)).advance

/-- `Fx1E` (R171): modulo 65536, VF is not written. -/
def execAddI (x : Reg) (s : State) : Result := .next (s.setI (s.i + s.wideV x)).advance

/-- `Fx29` (R172): `V[x]` is not masked. -/
def execLdF (x : Reg) (s : State) : Result :=
  .next (s.setI (s.glyphAddr Config.fontLoBase Config.fontLoStride x)).advance

/-- `Fx30` (R173): `V[x]` is not masked. -/
def execLdHf (x : Reg) (s : State) : Result :=
  .next (s.setI (s.glyphAddr Config.fontHiBase Config.fontHiStride x)).advance

/-- `Fx33` (R174): three digits or none. -/
def execLdB (x : Reg) (s : State) : Result :=
  if blockInBounds s.i.toNat 3 then
    .next (s.setMem (Memory.writeBlock s.mem s.i.toNat (bcdDigits (s.getV x)))).advance
  else .next (s.memFault (encode (.ldB x)))

/-- `Fx55` (R175): all bytes or none. -/
def execLdMemVx (x : Reg) (s : State) : Result :=
  if blockInBounds s.i.toNat (x.val + 1) then
    .next ((s.setMem (Memory.writeBlock s.mem s.i.toNat (s.block x))).bumpI x).advance
  else .next (s.memFault (encode (.ldMemVx x)))

/-- `Fx65` (R176): every address uses the `I` from before. -/
def execLdVxMem (x : Reg) (s : State) : Result :=
  if blockInBounds s.i.toNat (x.val + 1) then
    .next ((s.loadV x fun k => Memory.read s.mem (s.i.toNat + k.val)).bumpI x).advance
  else .next (s.memFault (encode (.ldVxMem x)))

/-- `Fx75` (R177): `I` moves although no memory is touched. -/
def execLdRVx (x : Reg) (s : State) : Result := .next ((s.saveR x).bumpI x).advance

/-- `Fx85` (R178). -/
def execLdVxR (x : Reg) (s : State) : Result := .next ((s.loadV x s.getR).bumpI x).advance

end Sys2Proof.Machine
end

