-- ==== Sys2Proof/Machine/Graphics.lean ====
section
/-! DEFINITION. The meanings of 45_graphics.md: clear, draw, resolution mode and scroll. -/

namespace Sys2Proof.Machine

/-- `00E0` (45_graphics.md R202). -/
def execCls (s : State) : Result := .next (s.setGfx Gfx.blank).markDrawn.advance

/-- `Dxyn`, both modes (R203 to R205): MEM_BOUNDS is checked before FB_BOUNDS (60_exceptions.md R233), both before any
write; the coordinates are those from before VF is written. -/
def execDrw (x y : Reg) (n : Nibble) (s : State) : Result :=
  if blockInBounds s.i.toNat (s.spriteLength n) then
    if (s.sprite x y n).all Pixel.inGrid then
      .next (((s.setGfx (Gfx.flipAll s.gfx (s.sprite x y n))).setV regF
        (flagByte (Gfx.anyLit s.gfx (s.sprite x y n)))).markDrawn).advance
    else .next (s.raise .fbBounds (encode (.drw x y n)) (s.originInfo x y))
  else .next (s.memFault (encode (.drw x y n)))

/-- `00FE` (R206). -/
def execLow (s : State) : Result := .next (s.setHgr false).advance

/-- `00FF` (R207). -/
def execHigh (s : State) : Result := .next (s.setHgr true).advance

/-- `00Cn` (R208): the count is `V[n]`. -/
def execScd (n : Reg) (s : State) : Result :=
  .next (s.setGfx (Gfx.scrollDown s.gfx (s.getV n).toNat)).markDrawn.advance

/-- `00FB` (R209): a stub. -/
def execScr (s : State) : Result := .next s.advance

/-- `00FC` (R210): a stub. -/
def execScl (s : State) : Result := .next s.advance

end Sys2Proof.Machine
end

