-- ==== Sys2Proof/Machine/Input.lean ====
section
/-! DEFINITION. The meanings of 46_input.md: the key skips and the polling wait. -/

namespace Sys2Proof.Machine

/-- `Ex9E` (46_input.md R221). -/
def execSkp (x : Reg) (s : State) : Result :=
  match s.keyOf x with
  | some k => .next (s.skipIf (s.pressed k))
  | none => .next (s.raise .keyIndex (encode (.skp x)) (s.getV x).toNat)

/-- `ExA1` (R222). -/
def execSknp (x : Reg) (s : State) : Result :=
  match s.keyOf x with
  | some k => .next (s.skipIf (!s.pressed k))
  | none => .next (s.raise .keyIndex (encode (.sknp x)) (s.getV x).toNat)

/-- `Fx0A` (R223): takes the latched key and does not clear the latch; with none latched nothing changes and the same
word is fetched again. -/
def execLdVxK (x : Reg) (s : State) : Result :=
  match s.lastKey with
  | some k => .next (s.finish x (BitVec.ofNat 8 k.val))
  | none => .next s

end Sys2Proof.Machine
end

