-- ==== Sys2Proof/Machine/Timers.lean ====
section
/-! DEFINITION. The meanings of 44_timers.md, and the sound timer's read path. Each meaning is an operation on an instant,
applied to the free input `now`. -/

namespace Sys2Proof.Machine

/-- `Fx07` at an instant (44_timers.md R191). -/
def State.readDelayAt (s : State) (x : Reg) (now : Nat) : State :=
  (s.sampledAt now).finish x (timerValue s.dtArmed s.dtStart now)

/-- `Fx15` at an instant (R192). -/
def State.armDelayAt (s : State) (x : Reg) (now : Nat) : State :=
  ((s.sampledAt now).armDelay (s.getV x) now).advance

/-- `Fx18` at an instant (R193). -/
def State.armSoundAt (s : State) (x : Reg) (now : Nat) : State :=
  ((s.sampledAt now).armSound (s.getV x) now).advance

/-- `Fx07` (R191). -/
def execLdVxDt (x : Reg) (s : State) : Result := .next (s.readDelayAt x s.nowInput)

/-- `Fx15` (R192). -/
def execLdDtVx (x : Reg) (s : State) : Result := .next (s.armDelayAt x s.nowInput)

/-- `Fx18` (R193). -/
def execLdStVx (x : Reg) (s : State) : Result := .next (s.armSoundAt x s.nowInput)

/-- The sound timer's current value (R195): read by the host, by no instruction. -/
def State.soundValue (s : State) (now : Nat) : Byte := timerValue s.stArmed s.stStart now

end Sys2Proof.Machine
end

