-- ==== Sys2Proof/Machine/Step.lean ====
section
/-! DEFINITION. One step (40_fetch_dispatch.md R112), in the spec's order. Everything it does is a named operation. -/

namespace Sys2Proof.Machine

/-- `Step` (R112): nothing when FAULTED or HALTED; else fetch, decode, execute. The inputs `now` and `rnd` are drawn by
the instruction that uses them (log entry 2). -/
def step (s : State) : Host.Outcome State Fault Refusal :=
  match s.runState with
  | .faulted => .next s
  | .halted => .next s
  | .running =>
    match s.fetch with
    | none => .next s.fetchFault
    | some op =>
      match decodeWord op with
      | .ok i => exec i s
      | .error _ => .next (s.illegalOpcode op)

/-- The state with the instruction whose table bits are `w` stored where the next step fetches. -/
def State.withFetchWord (s : State) (nbits w : Nat) : State := s.placeWord (BitVec.ofNat 16 (w % 2 ^ nbits))

end Sys2Proof.Machine
end

