-- ==== Sys2Proof/Machine/Ports.lean ====
section
/-! DEFINITION. The host interface (40_fetch_dispatch.md R116 to R120): the host operations beside `step` and
`State.hostReset`, and a session in which the host applies them in any legal order (R117, 70_reset_and_hazards.md R266).
The step of `Sys2Proof.core` contains none of them (log entry 7). -/

namespace Sys2Proof.Machine

/-- Font installation (70_reset_and_hazards.md R262). -/
def State.installFonts (s : State) : State :=
  s.setMem (Memory.writeBlock (Memory.writeBlock s.mem Config.fontLoBase Config.fontLoData)
    Config.fontHiBase Config.fontHiData)

/-- The longest image `load` accepts (R263). -/
def maxImage : Nat := Config.memSize - Config.progBase.toNat

/-- `load(image)` accepts the image (R263). -/
def imageFits (image : List Byte) : Bool := decide (image.length ≤ maxImage)

/-- `load(image)` (R263): the fonts, then the image at `PROG_BASE`; a too long image changes nothing and sends one event
on the log port. -/
def State.load (s : State) (image : List Byte) : State :=
  if imageFits image then
    s.installFonts.setMem (Memory.writeBlock s.installFonts.mem Config.progBase.toNat image)
  else s.emit .loadFailure (BitVec.ofNat 16 (min image.length 0xFFFF))

/-- `first` is a legal choice for `keys`: none exactly when no key is held, else one of them (46_input.md R220). -/
def refreshLegal (keys : List Key) (first : Option Key) : Bool :=
  match first with
  | none => keys.isEmpty
  | some k => keys.contains k

/-- `refresh_input(keys, first)` (R220): overwrites the latch, never merges. -/
def State.refreshInput (s : State) (keys : List Key) (first : Option Key) : State :=
  { s with key := Vector.ofFn fun k : Key => keys.contains k, lastKey := first }

/-- `ack_draw()` (40_fetch_dispatch.md R118). -/
def State.ackDraw (s : State) : State := { s with drawFlag := false }

/-- What `read_display()` returns (R118). -/
structure Display where
  /-- The pixels, row-major. -/
  pixels : List Bool
  drawFlag : Bool
  deriving DecidableEq, Repr

/-- `read_display()` (R118): row 0 first, each row from column 0. -/
def State.readDisplay (s : State) : Display :=
  { pixels := s.gfx.toList.flatMap fun row => row.toList, drawFlag := s.drawFlag }

/-- What `read_status(now)` returns (R116, R120). -/
structure Status where
  runState : RunState
  fault : Option FaultRecord
  sound : Byte
  deriving DecidableEq, Repr

/-- `read_status(now)` (R120, 44_timers.md R195). -/
def State.readStatus (s : State) (now : Nat) : Status :=
  { runState := s.runState, fault := s.fault, sound := s.soundValue now }

/-- The host's operations (R116). -/
inductive HostOp where
  | reset
  | load (image : List Byte)
  | refreshInput (keys : List Key) (first : Option Key)
  | step
  | readDisplay
  | ackDraw
  | readStatus (now : Nat)
  deriving DecidableEq, Repr

/-- What an operation hands back to the host. -/
inductive Reply where
  | done
  | loaded (ok : Bool)
  | display (d : Display)
  | status (st : Status)
  deriving DecidableEq, Repr

/-- How far the host has come since the last reset (70_reset_and_hazards.md R266, 92_eei_decisions.md D30). -/
inductive Phase where
  /-- After `reset`, before any `load` and any `step`. -/
  | fresh
  /-- After a `load` that answered ok, or a `step`. -/
  | started
  /-- After a `load` that answered failure: the run loop must not be started (R263). -/
  | loadFailed
  deriving DecidableEq, Repr

/-- A machine in the hands of a host. -/
structure Session where
  state : State
  phase : Phase
  /-- The reply to the last operation. -/
  reply : Reply
  deriving DecidableEq, Repr

/-- The machine as it is created (10_state.md R38). -/
def Session.initial : Session := { state := State.reset, phase := .fresh, reply := .done }

/-- What a host operation answers. -/
abbrev HostResult := Host.Outcome Session Fault Refusal

/-- A session continued with a state, an answer to the host and, for `load` and `step`, a new phase. -/
def Session.answer (σ : Session) (s : State) (reply : Reply) (phase : Phase) : HostResult :=
  .next { σ with state := s, reply := reply, phase := phase }

/-- The host's `step`: refused after a failed `load`. -/
def Session.doStep (σ : Session) : HostResult :=
  if σ.phase = .loadFailed then .refused .stepAfterFailedLoad
  else
    match step σ.state with
    | .next t => σ.answer t .done .started
    | .fault f => .fault f
    | .refused r => .refused r

/-- The host's `load`: only on a fresh machine (D30, 20_memory.md R73). -/
def Session.doLoad (σ : Session) (image : List Byte) : HostResult :=
  if σ.phase = .fresh then
    σ.answer (σ.state.load image) (.loaded (imageFits image)) (if imageFits image then .started else .loadFailed)
  else .refused .loadOutOfOrder

/-- The host's `refresh_input`: `first` must be legal (46_input.md R220). -/
def Session.doRefresh (σ : Session) (keys : List Key) (first : Option Key) : HostResult :=
  if refreshLegal keys first then σ.answer (σ.state.refreshInput keys first) .done σ.phase
  else .refused .badRefresh

/-- The host's `read_status`: the clock does not go back (44_timers.md R196); the instant is a sample of it. -/
def Session.doReadStatus (σ : Session) (now : Nat) : HostResult :=
  if σ.state.clock ≤ now then
    σ.answer { σ.state with clock := now } (.status (σ.state.readStatus now)) σ.phase
  else .refused .clockBackwards

/-- One host operation (R116); an operation outside the host's contract is refused by name
(93_implementation_defined.md U19). -/
def Session.apply (σ : Session) : HostOp → HostResult
  | .reset => σ.answer σ.state.hostReset .done .fresh
  | .load image => σ.doLoad image
  | .refreshInput keys first => σ.doRefresh keys first
  | .step => σ.doStep
  | .readDisplay => σ.answer σ.state (.display σ.state.readDisplay) σ.phase
  | .ackDraw => σ.answer σ.state.ackDraw .done σ.phase
  | .readStatus now => σ.doReadStatus now

/-- Host operations in any order, any number of times (R117). -/
def Session.applyAll : Session → List HostOp → HostResult
  | σ, [] => .next σ
  | σ, op :: ops =>
    match σ.apply op with
    | .next τ => Session.applyAll τ ops
    | .fault f => .fault f
    | .refused r => .refused r

end Sys2Proof.Machine
end

