-- ==== Sys2Proof/Safety.lean ====
section
/-! DEFINITION. The terms claims are stated in: what an instruction leaves unchanged, the invariants of the machine, what
faults the spec's table of causes asks for, the machine in the hands of a host, and a run that ends well. -/

namespace Sys2Proof.Machine

/-- The pieces of the state a frame speaks of. -/
inductive Part where
  | v | r | index | pc | sp | stack | mem | gfx | hgr | delay | sound | keys | drawFlag | fault
  /-- The environment's fields `clock` and `draws`. -/
  | env
  | log
  deriving DecidableEq, Repr

/-- The piece is the same in both states. Memory and the framebuffer are compared through the reads of one byte and of
one pixel. -/
def Part.same : Part → State → State → Prop
  | .v, s, t => ∀ x, t.getV x = s.getV x
  | .r, s, t => ∀ x, t.getR x = s.getR x
  | .index, s, t => t.i = s.i
  | .pc, s, t => t.pc = s.pc
  | .sp, s, t => t.sp = s.sp
  | .stack, s, t => ∀ k, t.slot k = s.slot k
  | .mem, s, t => ∀ a, Memory.read t.mem a = Memory.read s.mem a
  | .gfx, s, t => ∀ c r, Gfx.pix t.gfx c r = Gfx.pix s.gfx c r
  | .hgr, s, t => t.hgr = s.hgr
  | .delay, s, t => t.dtArmed = s.dtArmed ∧ t.dtStart = s.dtStart
  | .sound, s, t => t.stArmed = s.stArmed ∧ t.stStart = s.stStart
  | .keys, s, t => (∀ k, t.pressed k = s.pressed k) ∧ t.lastKey = s.lastKey
  | .drawFlag, s, t => t.drawFlag = s.drawFlag
  | .fault, s, t => t.fault = s.fault
  | .env, s, t => t.clock = s.clock ∧ t.draws = s.draws
  | .log, s, t => t.log = s.log

/-- Everything but the listed pieces is the same in both states. -/
def Frame (written : List Part) (s t : State) : Prop := ∀ p : Part, p ∉ written → p.same s t

/-- The state with a fault recorded at its `pc` and nothing else changed (60_exceptions.md R231). -/
def State.withFault (s : State) (cause : FaultCause) (fop finfo : Word) : State :=
  { s with fault := some ⟨cause, s.pc, fop, finfo⟩ }

/-! Invariants. -/

/-- No timer was armed after the last sampled instant (44_timers.md R196: `now >= s` for every stored `s`). -/
def State.ClockOk (s : State) : Prop :=
  (∀ t, s.dtStart = some t → t ≤ s.clock) ∧ (∀ t, s.stStart = some t → t ≤ s.clock)

/-- The invariant of the latch (10_state.md R34). -/
def State.LatchOk (s : State) : Prop :=
  (s.lastKey = none ↔ ∀ k, s.pressed k = false) ∧ (∀ k, s.lastKey = some k → s.pressed k = true)

/-- Every saved `pc` is one a call was fetched from (42_control.md R157: at most 4094). -/
def State.StackOk (s : State) : Prop := ∀ k, (s.slot k).toNat ≤ 4094

/-- `pc` is the sentinel or at most 4350 (92_eei_decisions.md D3). -/
def State.PcOk (s : State) : Prop := s.pc = Config.pcExit ∨ s.pc.toNat ≤ 4350

/-- The invariant of the machine. -/
structure State.Inv (s : State) : Prop where
  mem : Memory.wf s.mem = true
  clock : s.ClockOk
  latch : s.LatchOk
  stack : s.StackOk
  pc : s.PcOk

/-! The table of fault causes (60_exceptions.md R230) as a function of the state before a step. -/

/-- The words R96 of 30_encoding.md lists as unknown, by their digits. -/
def isUnknownWord (w : Word) : Prop :=
  let n0 := w.toNat / 4096
  let n1 := w.toNat / 256 % 16
  let kk := w.toNat % 256
  let n := w.toNat % 16
  (n0 = 0 ∧ n1 = 0 ∧ ¬(0xC0 ≤ kk ∧ kk ≤ 0xCF) ∧ kk ∉ [0xE0, 0xEE, 0xFB, 0xFC, 0xFD, 0xFE, 0xFF]) ∨
  (n0 = 5 ∧ n ≠ 0) ∨
  (n0 = 8 ∧ n ∈ [0x8, 0x9, 0xA, 0xB, 0xC, 0xD, 0xF]) ∨
  (n0 = 9 ∧ n ≠ 0) ∨
  (n0 = 0xE ∧ kk ∉ [0x9E, 0xA1]) ∨
  (n0 = 0xF ∧ kk ∉ [0x07, 0x0A, 0x15, 0x18, 0x1E, 0x29, 0x30, 0x33, 0x55, 0x65, 0x75, 0x85])

/-- `MEM_BOUNDS` for an access whose last byte lies at 4096 or above; the lowest offending address. -/
def memCause (base len : Nat) : Option (FaultCause × Nat) :=
  if 1 ≤ len ∧ 4096 ≤ base + len - 1 then some (.memBounds, max base 4096) else none

/-- The fault a decoded instruction must raise, with its `finfo`, by the column "when" of R230; of the two of `Dxyn`,
MEM_BOUNDS first (R233). -/
def instrFault (i : Instr) (s : State) : Option (FaultCause × Nat) :=
  match i with
  | .sys nnn => some (.nativeCall, nnn.toNat)
  | .ldB _ => memCause s.i.toNat 3
  | .ldMemVx x => memCause s.i.toNat (x.val + 1)
  | .ldVxMem x => memCause s.i.toNat (x.val + 1)
  | .drw x y n =>
    match memCause s.i.toNat (if s.hgr = true ∧ n = 0#4 then 30 else n.toNat) with
    | some f => some f
    | none =>
      if ∃ p ∈ s.sprite x y n, 64 ≤ p.1 ∨ 32 ≤ p.2 then
        some (.fbBounds, 256 * (s.getV y).toNat + (s.getV x).toNat)
      else none
  | .call _ => if s.sp.val = 15 then some (.stackOverflow, 15) else none
  | .ret => if s.sp.val = 0 then some (.stackUnderflow, 0) else none
  | .skp x => if 16 ≤ (s.getV x).toNat then some (.keyIndex, (s.getV x).toNat) else none
  | .sknp x => if 16 ≤ (s.getV x).toNat then some (.keyIndex, (s.getV x).toNat) else none
  | .scd _ | .cls | .scr | .scl | .exit | .low | .high | .jp _ | .seImm _ _ | .sneImm _ _ | .seReg _ _ => none
  | .ldImm _ _ | .addImm _ _ | .ldReg _ _ | .orReg _ _ | .andReg _ _ | .xorReg _ _ | .addReg _ _ => none
  | .subReg _ _ | .shrReg _ _ | .subnReg _ _ | .shlReg _ _ | .sneReg _ _ | .ldI _ | .jpV0 _ | .rnd _ _ => none
  | .ldVxDt _ | .ldVxK _ | .ldDtVx _ | .ldStVx _ | .addI _ | .ldF _ | .ldHf _ | .ldRVx _ | .ldVxR _ => none

/-- The record a step of a RUNNING machine must leave (R230, R231, R233): fetch first, then decode, then the
instruction's own checks. -/
def State.expectedRecord (s : State) : Option FaultRecord :=
  if 4094 < s.pc.toNat then some ⟨.fetchBounds, s.pc, 0, s.pc⟩
  else
    let op := Memory.read s.mem s.pc.toNat ++ Memory.read s.mem (s.pc.toNat + 1)
    match decodeWord op with
    | .error _ => some ⟨.illegalOpcode, s.pc, op, op⟩
    | .ok i => (instrFault i s).map fun f => ⟨f.1, s.pc, op, BitVec.ofNat 16 f.2⟩

/-! Runs. -/

/-- What a host can bring a machine to (40_fetch_dispatch.md R117): any operations inside its contract, in any order. -/
inductive Reachable : Session → Prop where
  | initial : Reachable Session.initial
  | apply {σ τ : Session} (op : HostOp) : Reachable σ → σ.apply op = .next τ → Reachable τ

/-- The only successful end of a run (R121). -/
def State.endedWell (s : State) : Prop := s.runState = .halted

end Sys2Proof.Machine
end

