-- ==== Sys2Proof/Certificates/Slice0/Obligations.lean ====
section
/-! DEFINITION. The statements for the provers, from the numbered rules of spec/. A result statement names the words of
its instruction, says that exec answers a next state, what that state holds, and what it leaves (`Frame`). -/

open Sys2Proof Sys2Proof.Machine

/-! Decoding and encoding (30_encoding.md). -/

/-- R92, R93, R95: the word, and the two bytes, of every well-formed instruction decode to it, every operand at every
value. -/
def Obligations.EveryInstructionRoundTrips : Prop :=
  ∀ i : Instr, i.wellFormed = true →
    decodeWord (encode i) = .ok i ∧ ∀ rest, decode (bytesOfWord (encode i) ++ rest) = .ok (i, rest)

/-- R95: a word that decodes is the word of the instruction it decodes to, which is well-formed; so two words never mean
one instruction and no bit of a word is dropped. -/
def Obligations.DecodedWordsEncodeBack : Prop :=
  ∀ (w : Word) (i : Instr), decodeWord w = .ok i → i.wellFormed = true ∧ encode i = w

/-- R94: a word selects the first row of the opcode map that it matches, the rows are disjoint, and the decoder gives an
instruction of that row, or an error where there is none. -/
def Obligations.DecoderSelectsTheFirstRow : Prop :=
  ∀ w : Word,
    (selectRow w = match decodeWord w with
      | .ok i => some (rowOf i)
      | .error _ => none) ∧
    (opcodeMap.filter (rowMatches w)).length ≤ 1

/-- R96 (the spec's decision D5): the unknown words are exactly those of its table, and one of them, fetched by a RUNNING
machine, sends `log(UNKNOWN_OPCODE, op)` (kept in the model's field `log`, log entry 6) and raises
`Fault(ILLEGAL_OPCODE, op)`. -/
def Obligations.UnknownWordsAreExactlyTheListed : Prop :=
  (∀ w : Word, (∃ e, decodeWord w = .error e) ↔ isUnknownWord w) ∧
  ∀ (s : State) (w : Word), s.runState = .running → s.pc.toNat ≤ 4094 →
    Memory.read s.mem s.pc.toNat ++ Memory.read s.mem (s.pc.toNat + 1) = w → isUnknownWord w →
    step s = .next { s.withFault .illegalOpcode w w with log := s.log ++ [⟨.unknownOpcode, w⟩] }

/-- Sanity: a few words written out from R95, one of each family, decode to the instruction they stand for. -/
def Obligations.SampleWordsDecode : Prop :=
  decodeWord 0x00C2#16 = .ok (.scd 2) ∧ decodeWord 0x0123#16 = .ok (.sys 0x123#12) ∧
  decodeWord 0x220A#16 = .ok (.call 0x20A#12) ∧ decodeWord 0x6005#16 = .ok (.ldImm 0 0x05#8) ∧
  decodeWord 0x812E#16 = .ok (.shlReg 1 2) ∧ decodeWord 0xA234#16 = .ok (.ldI 0x234#12) ∧
  decodeWord 0xD125#16 = .ok (.drw 1 2 5#4) ∧ decodeWord 0xE19E#16 = .ok (.skp 1) ∧
  decodeWord 0xF218#16 = .ok (.ldStVx 2) ∧ decodeWord 0xF065#16 = .ok (.ldVxMem 0)

/-! The step (40_fetch_dispatch.md). -/

/-- R112, R66: a RUNNING machine whose two bytes at `pc` decode to an instruction runs exactly its meaning: the step adds
nothing around it (R114). -/
def Obligations.StepRunsTheDecodedInstruction : Prop :=
  ∀ (s : State) (i : Instr), s.runState = .running → s.pc.toNat ≤ 4094 →
    decode [Memory.read s.mem s.pc.toNat, Memory.read s.mem (s.pc.toNat + 1)] = .ok (i, []) → step s = exec i s

/-- R112: the seven lines of the step, in their order. The inputs `now` and `rnd` are drawn inside line 7 (log entry 2). -/
def Obligations.StepHasTheSpecifiedLines : Prop :=
  ∀ s : State,
    (s.fault ≠ none → step s = .next s) ∧
    (s.fault = none → s.pc = Config.pcExit → step s = .next s) ∧
    (s.fault = none → s.pc ≠ Config.pcExit → 4094 < s.pc.toNat →
      step s = .next (s.withFault .fetchBounds 0 s.pc)) ∧
    (∀ op : Word, s.fault = none → s.pc ≠ Config.pcExit → s.pc.toNat ≤ 4094 →
      op = Memory.read s.mem s.pc.toNat ++ Memory.read s.mem (s.pc.toNat + 1) →
      (∀ i, decodeWord op = .ok i → step s = exec i s) ∧
      (∀ e, decodeWord op = .error e →
        step s = .next { s.withFault .illegalOpcode op op with log := s.log ++ [⟨.unknownOpcode, op⟩] }))

/-- R112, R232: a step always answers a next state, in every state, and so does every meaning: nothing is refused. The
model's form: a fault of the spec is a next state (log entry 3), and `exec` gives a meaning in HALTED and FAULTED states
too (log entry 11). -/
def Obligations.EveryStepAnswersANextState : Prop :=
  (∀ s : State, ∃ t, step s = .next t) ∧ ∀ (i : Instr) (s : State), ∃ t, exec i s = .next t

/-! Faults (60_exceptions.md). -/

/-- R231: a step that raises a fault writes the record and nothing else of the machine: `fpc` is the `pc`, `fop` the
fetched word, or 0 where the fetch itself faulted, cause and `finfo` those of the table of causes; the machine is FAULTED
from then on. The log port's record is the model's own field (log entry 6). -/
def Obligations.FaultEntryWritesOnlyTheRecord : Prop :=
  ∀ s t : State, s.fault = none → step s = .next t → t.fault ≠ none →
    (∃ f, t.fault = some f ∧ s.expectedRecord = some f ∧ f.fpc = s.pc ∧
      f.fop = if s.pc.toNat ≤ 4094 then Memory.read s.mem s.pc.toNat ++ Memory.read s.mem (s.pc.toNat + 1) else 0) ∧
    t = { s with fault := t.fault, log := t.log } ∧ Frame [.fault, .log] s t ∧
    t.runState = .faulted ∧ ∀ k, Host.Core.run Sys2Proof.core k t = .next t

/-- R230, R233: the codes of the causes; and the record a step of a RUNNING machine leaves is exactly the one the table of
causes asks for: the cause under its condition, with its `finfo`, the first in the order of priority, and none where no
condition holds. -/
def Obligations.EveryFaultHasItsCauseAndInfo : Prop :=
  ([FaultCause.illegalOpcode, .nativeCall, .fetchBounds, .memBounds, .fbBounds, .stackOverflow, .stackUnderflow,
    .keyIndex].map FaultCause.code = [1, 2, 3, 4, 5, 6, 7, 8]) ∧
  ∀ s t : State, s.runState = .running → step s = .next t → t.fault = s.expectedRecord

/-- R234: FAULTED is absorbing: a step does nothing, no sequence of host operations without `reset` changes the record,
`reset` clears it with everything else, and `refresh_input`, `read_display`, `ack_draw` and `read_status` have their usual
effect on a FAULTED or HALTED machine. -/
def Obligations.OnlyResetLeavesFaulted : Prop :=
  (∀ s : State, s.fault ≠ none → step s = .next s) ∧
  (∀ (ops : List HostOp) (σ τ : Session), σ.state.fault ≠ none → HostOp.reset ∉ ops →
    σ.applyAll ops = .next τ → τ.state.fault = σ.state.fault) ∧
  (∀ s : State, s.hostReset.fault = none ∧ Frame [.env, .log] State.reset s.hostReset) ∧
  (∀ (σ : Session) (keys : List Key) (k : Key) (now : Nat), σ.state.runState ≠ .running → k ∈ keys →
    σ.state.clock ≤ now →
    (∃ τ, σ.apply (.refreshInput keys (some k)) = .next τ ∧ (∀ j, τ.state.pressed j = true ↔ j ∈ keys) ∧
      τ.state.lastKey = some k) ∧
    (∃ τ, σ.apply .readDisplay = .next τ ∧ τ.reply = .display σ.state.readDisplay ∧ τ.state = σ.state) ∧
    (∃ τ, σ.apply .ackDraw = .next τ ∧ τ.state.drawFlag = false) ∧
    (∃ τ, σ.apply (.readStatus now) = .next τ ∧ τ.reply = .status (σ.state.readStatus now)))

/-- R110, R121: HALTED is absorbing as well: no sequence of host operations without `reset` leaves it, and it never
turns into FAULTED. -/
def Obligations.OnlyResetLeavesHalted : Prop :=
  ∀ (ops : List HostOp) (σ τ : Session), σ.state.runState = .halted → HostOp.reset ∉ ops →
    σ.applyAll ops = .next τ → τ.state.runState = .halted ∧ τ.state.pc = Config.pcExit

/-- R121, R159: HALTED is reached only by executing `00FD`, in every state whose saved return addresses are addresses of
calls. -/
def Obligations.OnlyExitHalts : Prop :=
  ∀ s t : State, s.StackOk → s.runState = .running → step s = .next t → t.runState = .halted →
    Memory.read s.mem s.pc.toNat ++ Memory.read s.mem (s.pc.toNat + 1) = 0x00FD#16

/-! Invariants. -/

/-- Every step, in every state, keeps the invariant (the model's own collection; R34, R157, R196, D3): memory in
its canonical form, no timer armed after the last sampled instant, the latch consistent with the keys, saved addresses and
`pc` in their ranges. -/
def Obligations.StepKeepsTheInvariant : Prop :=
  ∀ s t : State, s.Inv → step s = .next t → t.Inv

/-- The invariant holds right after reset. -/
def Obligations.ResetMeetsTheInvariant : Prop := State.reset.Inv

/-- R117: whatever a host inside its contract does, in any order, the invariant holds. -/
def Obligations.ReachableStatesMeetTheInvariant : Prop :=
  ∀ σ : Session, Reachable σ → σ.state.Inv

/-- R26: no step and no host operation but `reset` ever writes `stack[15]`. -/
def Obligations.LastStackSlotIsNeverWritten : Prop :=
  (∀ s t : State, step s = .next t → t.slot 15 = s.slot 15) ∧
  (∀ (op : HostOp) (σ τ : Session), op ≠ .reset → σ.apply op = .next τ → τ.state.slot 15 = σ.state.slot 15)

/-- R39, R230: which instructions write which state, `pc` aside, over all instructions, in every state. -/
def Obligations.EachStateHasItsOwnWriters : Prop :=
  ∀ (i : Instr) (s t : State), exec i s = .next t →
    (t.r ≠ s.r → ∃ x, i = .ldRVx x) ∧
    (t.i ≠ s.i → (∃ n, i = .ldI n) ∨
      ∃ x, i ∈ [.addI x, .ldF x, .ldHf x, .ldMemVx x, .ldVxMem x, .ldRVx x, .ldVxR x]) ∧
    (t.mem ≠ s.mem → ∃ x, i = .ldB x ∨ i = .ldMemVx x) ∧
    (t.gfx ≠ s.gfx → i = .cls ∨ (∃ n, i = .scd n) ∨ ∃ x y n, i = .drw x y n) ∧
    (t.hgr ≠ s.hgr → i = .low ∨ i = .high) ∧
    (t.dtArmed ≠ s.dtArmed ∨ t.dtStart ≠ s.dtStart → ∃ x, i = .ldDtVx x) ∧
    (t.stArmed ≠ s.stArmed ∨ t.stStart ≠ s.stStart → ∃ x, i = .ldStVx x) ∧
    (t.sp ≠ s.sp → i = .ret ∨ ∃ n, i = .call n) ∧
    (t.stack ≠ s.stack → ∃ n, i = .call n) ∧
    (t.drawFlag ≠ s.drawFlag → t.drawFlag = true ∧ (i = .cls ∨ (∃ n, i = .scd n) ∨ ∃ x y n, i = .drw x y n)) ∧
    t.key = s.key ∧ t.lastKey = s.lastKey ∧
    (t.v ≠ s.v → ∃ x y kk n, i ∈ [.ldImm x kk, .addImm x kk, .ldReg x y, .orReg x y, .andReg x y, .xorReg x y, .addReg x y,
      .subReg x y, .shrReg x y, .subnReg x y, .shlReg x y, .rnd x kk, .ldVxDt x, .ldVxK x, .ldVxMem x, .ldVxR x,
      .drw x y n]) ∧
    (t.fault ≠ s.fault → ∃ x y n nnn, i ∈ [.sys nnn, .call nnn, .ret, .ldB x, .ldMemVx x, .ldVxMem x, .drw x y n, .skp x,
      .sknp x])

/-! Arithmetic (41_arithmetic.md). -/

/-- R131. -/
def Obligations.LoadImmediateWritesTheRegister : Prop :=
  ∀ (x : Reg) (kk : Byte) (s : State),
    decodeWord (0x6#4 ++ nibbleOfReg x ++ kk) = .ok (.ldImm x kk) ∧
    ∃ t, exec (.ldImm x kk) s = .next t ∧ t.getV x = kk ∧ (∀ z, z ≠ x → t.getV z = s.getV z) ∧
      t.pc = s.pc + 2 ∧ Frame [.v, .pc] s t

/-- R132: the sum wraps and VF is 0 whatever the sum, also as the destination. -/
def Obligations.AddImmediateZeroesTheFlag : Prop :=
  ∀ (x : Reg) (kk : Byte) (s : State),
    decodeWord (0x7#4 ++ nibbleOfReg x ++ kk) = .ok (.addImm x kk) ∧
    ∃ t, exec (.addImm x kk) s = .next t ∧ t.getV 15 = 0 ∧
      (x ≠ 15 → (t.getV x).toNat = ((s.getV x).toNat + kk.toNat) % 256) ∧
      (∀ z, z ≠ x → z ≠ 15 → t.getV z = s.getV z) ∧ t.pc = s.pc + 2 ∧ Frame [.v, .pc] s t

/-- R133 to R136: the copy and the three bitwise operations, bit by bit; VF is written only as the destination. -/
def Obligations.CopyAndLogicLeaveTheFlag : Prop :=
  ∀ (x y : Reg) (s : State),
    (decodeWord (0x8#4 ++ nibbleOfReg x ++ nibbleOfReg y ++ 0x0#4) = .ok (.ldReg x y) ∧
      ∃ t, exec (.ldReg x y) s = .next t ∧ t.getV x = s.getV y ∧ (∀ z, z ≠ x → t.getV z = s.getV z) ∧
        t.pc = s.pc + 2 ∧ Frame [.v, .pc] s t) ∧
    (decodeWord (0x8#4 ++ nibbleOfReg x ++ nibbleOfReg y ++ 0x1#4) = .ok (.orReg x y) ∧
      ∃ t, exec (.orReg x y) s = .next t ∧
        (∀ b, (t.getV x).getLsbD b = ((s.getV x).getLsbD b || (s.getV y).getLsbD b)) ∧
        (∀ z, z ≠ x → t.getV z = s.getV z) ∧ t.pc = s.pc + 2 ∧ Frame [.v, .pc] s t) ∧
    (decodeWord (0x8#4 ++ nibbleOfReg x ++ nibbleOfReg y ++ 0x2#4) = .ok (.andReg x y) ∧
      ∃ t, exec (.andReg x y) s = .next t ∧
        (∀ b, (t.getV x).getLsbD b = ((s.getV x).getLsbD b && (s.getV y).getLsbD b)) ∧
        (∀ z, z ≠ x → t.getV z = s.getV z) ∧ t.pc = s.pc + 2 ∧ Frame [.v, .pc] s t) ∧
    (decodeWord (0x8#4 ++ nibbleOfReg x ++ nibbleOfReg y ++ 0x3#4) = .ok (.xorReg x y) ∧
      ∃ t, exec (.xorReg x y) s = .next t ∧
        (∀ b, (t.getV x).getLsbD b = ((s.getV x).getLsbD b ^^ (s.getV y).getLsbD b)) ∧
        (∀ z, z ≠ x → t.getV z = s.getV z) ∧ t.pc = s.pc + 2 ∧ Frame [.v, .pc] s t)

/-- R137: the sum wraps, VF is 1 exactly when the sum reaches 256, and with `x = 15` the flag stays. -/
def Obligations.AddSetsTheCarry : Prop :=
  ∀ (x y : Reg) (s : State),
    decodeWord (0x8#4 ++ nibbleOfReg x ++ nibbleOfReg y ++ 0x4#4) = .ok (.addReg x y) ∧
    ∃ t, exec (.addReg x y) s = .next t ∧
      (t.getV 15 = if 256 ≤ (s.getV x).toNat + (s.getV y).toNat then 1 else 0) ∧
      (x ≠ 15 → (t.getV x).toNat = ((s.getV x).toNat + (s.getV y).toNat) % 256) ∧
      (∀ z, z ≠ x → z ≠ 15 → t.getV z = s.getV z) ∧ t.pc = s.pc + 2 ∧ Frame [.v, .pc] s t

/-- R138, R140: the two subtractions wrap, VF is 0 exactly on a borrow, and with `x = 15` the flag stays. -/
def Obligations.SubtractsClearTheFlagOnBorrow : Prop :=
  ∀ (x y : Reg) (s : State),
    (decodeWord (0x8#4 ++ nibbleOfReg x ++ nibbleOfReg y ++ 0x5#4) = .ok (.subReg x y) ∧
      ∃ t, exec (.subReg x y) s = .next t ∧
        (t.getV 15 = if (s.getV x).toNat < (s.getV y).toNat then 0 else 1) ∧
        (x ≠ 15 → ((t.getV x).toNat : Int) = ((s.getV x).toNat - (s.getV y).toNat : Int) % 256) ∧
        (∀ z, z ≠ x → z ≠ 15 → t.getV z = s.getV z) ∧ t.pc = s.pc + 2 ∧ Frame [.v, .pc] s t) ∧
    (decodeWord (0x8#4 ++ nibbleOfReg x ++ nibbleOfReg y ++ 0x7#4) = .ok (.subnReg x y) ∧
      ∃ t, exec (.subnReg x y) s = .next t ∧
        (t.getV 15 = if (s.getV y).toNat < (s.getV x).toNat then 0 else 1) ∧
        (x ≠ 15 → ((t.getV x).toNat : Int) = ((s.getV y).toNat - (s.getV x).toNat : Int) % 256) ∧
        (∀ z, z ≠ x → z ≠ 15 → t.getV z = s.getV z) ∧ t.pc = s.pc + 2 ∧ Frame [.v, .pc] s t)

/-- R139, R141: the shifts by one take `V[y]`, VF is the bit shifted out, and with `x = 15` the flag stays. -/
def Obligations.ShiftsMoveTheSourceByOne : Prop :=
  ∀ (x y : Reg) (s : State),
    (decodeWord (0x8#4 ++ nibbleOfReg x ++ nibbleOfReg y ++ 0x6#4) = .ok (.shrReg x y) ∧
      ∃ t, exec (.shrReg x y) s = .next t ∧ (t.getV 15).toNat = (s.getV y).toNat % 2 ∧
        (x ≠ 15 → (t.getV x).toNat = (s.getV y).toNat / 2) ∧
        (∀ z, z ≠ x → z ≠ 15 → t.getV z = s.getV z) ∧ t.pc = s.pc + 2 ∧ Frame [.v, .pc] s t) ∧
    (decodeWord (0x8#4 ++ nibbleOfReg x ++ nibbleOfReg y ++ 0xE#4) = .ok (.shlReg x y) ∧
      ∃ t, exec (.shlReg x y) s = .next t ∧ (t.getV 15).toNat = (s.getV y).toNat / 128 ∧
        (x ≠ 15 → (t.getV x).toNat = 2 * (s.getV y).toNat % 256) ∧
        (∀ z, z ≠ x → z ≠ 15 → t.getV z = s.getV z) ∧ t.pc = s.pc + 2 ∧ Frame [.v, .pc] s t)

/-- R142: the register gets the step's free random byte under the mask (the model draws it at `Config.rnd`, log entry 2);
every later draw is another one. -/
def Obligations.RandomByteIsMasked : Prop :=
  ∀ (x : Reg) (kk : Byte) (s : State),
    decodeWord (0xC#4 ++ nibbleOfReg x ++ kk) = .ok (.rnd x kk) ∧
    ∃ t, exec (.rnd x kk) s = .next t ∧ t.getV x = Config.rnd s.draws &&& kk ∧ s.draws < t.draws ∧
      t.clock = s.clock ∧ (∀ z, z ≠ x → t.getV z = s.getV z) ∧ t.pc = s.pc + 2 ∧ Frame [.v, .pc, .env] s t

/-! Control transfer (42_control.md). -/

/-- R151, R152. -/
def Obligations.ImmediateSkipsCompare : Prop :=
  ∀ (x : Reg) (kk : Byte) (s : State),
    (decodeWord (0x3#4 ++ nibbleOfReg x ++ kk) = .ok (.seImm x kk) ∧
      ∃ t, exec (.seImm x kk) s = .next t ∧ (t.pc = if s.getV x = kk then s.pc + 4 else s.pc + 2) ∧
        Frame [.pc] s t) ∧
    (decodeWord (0x4#4 ++ nibbleOfReg x ++ kk) = .ok (.sneImm x kk) ∧
      ∃ t, exec (.sneImm x kk) s = .next t ∧ (t.pc = if s.getV x ≠ kk then s.pc + 4 else s.pc + 2) ∧
        Frame [.pc] s t)

/-- R153, R154: `5xy0` skips when the registers are equal, `9xy0` when they differ (the parameter
`SNE_REG_SKIPS_ON_EQUAL` at its default), and the last nibble must be 0. -/
def Obligations.RegisterSkipsCompare : Prop :=
  ∀ (x y : Reg) (s : State),
    (decodeWord (0x5#4 ++ nibbleOfReg x ++ nibbleOfReg y ++ 0x0#4) = .ok (.seReg x y) ∧
      (∀ n : Nibble, n ≠ 0 → ∀ i, decodeWord (0x5#4 ++ nibbleOfReg x ++ nibbleOfReg y ++ n) ≠ .ok i) ∧
      ∃ t, exec (.seReg x y) s = .next t ∧ (t.pc = if s.getV x = s.getV y then s.pc + 4 else s.pc + 2) ∧
        Frame [.pc] s t) ∧
    (decodeWord (0x9#4 ++ nibbleOfReg x ++ nibbleOfReg y ++ 0x0#4) = .ok (.sneReg x y) ∧
      (∀ n : Nibble, n ≠ 0 → ∀ i, decodeWord (0x9#4 ++ nibbleOfReg x ++ nibbleOfReg y ++ n) ≠ .ok i) ∧
      ∃ t, exec (.sneReg x y) s = .next t ∧ (t.pc = if s.getV x ≠ s.getV y then s.pc + 4 else s.pc + 2) ∧
        Frame [.pc] s t)

/-- R155, R158: the jump, and the jump with the offset `V[0]`, not reduced modulo 4096. -/
def Obligations.JumpsSetThePc : Prop :=
  ∀ (nnn : Addr12) (s : State),
    (decodeWord (0x1#4 ++ nnn) = .ok (.jp nnn) ∧
      ∃ t, exec (.jp nnn) s = .next t ∧ t.pc.toNat = nnn.toNat ∧ Frame [.pc] s t) ∧
    (decodeWord (0xB#4 ++ nnn) = .ok (.jpV0 nnn) ∧
      ∃ t, exec (.jpV0 nnn) s = .next t ∧ t.pc.toNat = (s.getV 0).toNat + nnn.toNat ∧ Frame [.pc] s t)

/-- R156 (`SP_MAX` at the spec's default, D9): a call below `SP_MAX` pushes its own address; at `SP_MAX` it raises STACK_OVERFLOW. -/
def Obligations.CallPushesItsOwnAddress : Prop :=
  ∀ (nnn : Addr12) (s : State),
    decodeWord (0x2#4 ++ nnn) = .ok (.call nnn) ∧
    (s.sp.val < 15 →
      ∃ t, exec (.call nnn) s = .next t ∧ t.slot s.sp = s.pc ∧ (∀ k, k ≠ s.sp → t.slot k = s.slot k) ∧
        t.sp.val = s.sp.val + 1 ∧ t.pc.toNat = nnn.toNat ∧ Frame [.stack, .sp, .pc] s t) ∧
    (s.sp.val = 15 →
      exec (.call nnn) s = .next (s.withFault .stackOverflow (0x2#4 ++ nnn) 15#16))

/-- R157: a return pops and goes on after the call; the slot keeps its value; with an empty stack it raises
STACK_UNDERFLOW. -/
def Obligations.ReturnResumesAfterTheCall : Prop :=
  ∀ s : State,
    decodeWord 0x00EE#16 = .ok .ret ∧
    (∀ k : Fin 16, s.sp.val = k.val + 1 →
      ∃ t, exec .ret s = .next t ∧ t.pc.toNat = ((s.slot k).toNat + 2) % 65536 ∧ t.sp = k ∧ Frame [.sp, .pc] s t) ∧
    (s.sp = 0 → exec .ret s = .next (s.withFault .stackUnderflow 0x00EE#16 0))

/-- R157, the source's property: a call followed at once by a return leaves `pc` two after the call and `sp` as it was;
of the stack only the pushed slot has changed, which holds the call's own address. -/
def Obligations.CallThenReturnComesBack : Prop :=
  ∀ (nnn : Addr12) (s : State), s.sp.val < 15 →
    ∃ t u, exec (.call nnn) s = .next t ∧ exec .ret t = .next u ∧ u.pc = s.pc + 2 ∧ u.sp = s.sp ∧
      u.slot s.sp = s.pc ∧ (∀ k, k ≠ s.sp → u.slot k = s.slot k) ∧ Frame [.stack, .pc] s u

/-- R159: `00FD` writes the sentinel and nothing else, and from then on the machine is HALTED: every later step does
nothing. -/
def Obligations.ExitHaltsTheMachine : Prop :=
  ∀ s : State,
    decodeWord 0x00FD#16 = .ok .exit ∧
    ∃ t, exec .exit s = .next t ∧ t.pc = Config.pcExit ∧ Frame [.pc] s t ∧
      (s.fault = none → t.runState = .halted ∧ ∀ k, Host.Core.run Sys2Proof.core k t = .next t)

/-- R160 (the spec's decision D6): a native call sends `log(NATIVE_CALL, op)`, raises `Fault(NATIVE_CALL, op)` and changes nothing else; its words
are those with `n1` not 0. -/
def Obligations.NativeCallFaults : Prop :=
  ∀ (nnn : Addr12) (s : State),
    (decodeWord (0x0#4 ++ nnn) = .ok (.sys nnn) ↔ 256 ≤ nnn.toNat) ∧
    exec (.sys nnn) s = .next { s with
      fault := some ⟨.nativeCall, s.pc, 0x0#4 ++ nnn, 0x0#4 ++ nnn⟩, log := s.log ++ [⟨.nativeCall, 0x0#4 ++ nnn⟩] }

/-! Index register and memory (43_index_memory.md). -/

/-- R170, R171: `Annn` zero-extends; `Fx1E` adds modulo 65536, without VF. -/
def Obligations.IndexIsLoadedAndAdded : Prop :=
  (∀ (nnn : Addr12) (s : State),
    decodeWord (0xA#4 ++ nnn) = .ok (.ldI nnn) ∧
    ∃ t, exec (.ldI nnn) s = .next t ∧ t.i.toNat = nnn.toNat ∧ t.pc = s.pc + 2 ∧ Frame [.index, .pc] s t) ∧
  (∀ (x : Reg) (s : State),
    decodeWord (0xF#4 ++ nibbleOfReg x ++ 0x1E#8) = .ok (.addI x) ∧
    ∃ t, exec (.addI x) s = .next t ∧ t.i.toNat = (s.i.toNat + (s.getV x).toNat) % 65536 ∧ t.pc = s.pc + 2 ∧
      Frame [.index, .pc] s t)

/-- R172, R173 (bases and strides at the spec's defaults, D2): the glyph pointers; `V[x]` is not masked. -/
def Obligations.FontPointersSelectTheGlyph : Prop :=
  ∀ (x : Reg) (s : State),
    (decodeWord (0xF#4 ++ nibbleOfReg x ++ 0x29#8) = .ok (.ldF x) ∧
      ∃ t, exec (.ldF x) s = .next t ∧
        t.i.toNat = (Config.fontLoBase + Config.fontLoStride * (s.getV x).toNat) % 65536 ∧ t.pc = s.pc + 2 ∧
        Frame [.index, .pc] s t) ∧
    (decodeWord (0xF#4 ++ nibbleOfReg x ++ 0x30#8) = .ok (.ldHf x) ∧
      ∃ t, exec (.ldHf x) s = .next t ∧
        t.i.toNat = (Config.fontHiBase + Config.fontHiStride * (s.getV x).toNat) % 65536 ∧ t.pc = s.pc + 2 ∧
        Frame [.index, .pc] s t)

/-- R174: three digits at `I`, `I + 1`, `I + 2`, every other byte kept; or MEM_BOUNDS and nothing written. -/
def Obligations.BcdStoresThreeDigits : Prop :=
  ∀ (x : Reg) (s : State), Memory.wf s.mem = true →
    decodeWord (0xF#4 ++ nibbleOfReg x ++ 0x33#8) = .ok (.ldB x) ∧
    (s.i.toNat + 2 < 4096 →
      ∃ t, exec (.ldB x) s = .next t ∧
        (Memory.read t.mem s.i.toNat).toNat = (s.getV x).toNat / 100 ∧
        (Memory.read t.mem (s.i.toNat + 1)).toNat = (s.getV x).toNat / 10 % 10 ∧
        (Memory.read t.mem (s.i.toNat + 2)).toNat = (s.getV x).toNat % 10 ∧
        (∀ a, a < s.i.toNat ∨ s.i.toNat + 3 ≤ a → Memory.read t.mem a = Memory.read s.mem a) ∧
        t.pc = s.pc + 2 ∧ Frame [.mem, .pc] s t) ∧
    (4096 ≤ s.i.toNat + 2 →
      exec (.ldB x) s =
        .next (s.withFault .memBounds (0xF#4 ++ nibbleOfReg x ++ 0x33#8) (BitVec.ofNat 16 (max s.i.toNat 4096))))

/-- R175: `V[0]` to `V[x]` at `I` to `I + x`, every other byte kept, `I` moved by `x + 1`; or MEM_BOUNDS and nothing
written. -/
def Obligations.BlockStoreWritesTheRegisters : Prop :=
  ∀ (x : Reg) (s : State), Memory.wf s.mem = true →
    decodeWord (0xF#4 ++ nibbleOfReg x ++ 0x55#8) = .ok (.ldMemVx x) ∧
    (s.i.toNat + x.val < 4096 →
      ∃ t, exec (.ldMemVx x) s = .next t ∧
        (∀ k : Reg, k ≤ x → Memory.read t.mem (s.i.toNat + k.val) = s.getV k) ∧
        (∀ a, a < s.i.toNat ∨ s.i.toNat + x.val + 1 ≤ a → Memory.read t.mem a = Memory.read s.mem a) ∧
        t.i.toNat = (s.i.toNat + x.val + 1) % 65536 ∧ t.pc = s.pc + 2 ∧ Frame [.mem, .index, .pc] s t) ∧
    (4096 ≤ s.i.toNat + x.val →
      exec (.ldMemVx x) s =
        .next (s.withFault .memBounds (0xF#4 ++ nibbleOfReg x ++ 0x55#8) (BitVec.ofNat 16 (max s.i.toNat 4096))))

/-- R176: `V[0]` to `V[x]` from `I` to `I + x`, the other registers kept, `I` moved by `x + 1`; or MEM_BOUNDS and
nothing written. -/
def Obligations.BlockLoadReadsTheRegisters : Prop :=
  ∀ (x : Reg) (s : State),
    decodeWord (0xF#4 ++ nibbleOfReg x ++ 0x65#8) = .ok (.ldVxMem x) ∧
    (s.i.toNat + x.val < 4096 →
      ∃ t, exec (.ldVxMem x) s = .next t ∧
        (∀ k : Reg, k ≤ x → t.getV k = Memory.read s.mem (s.i.toNat + k.val)) ∧
        (∀ k : Reg, x < k → t.getV k = s.getV k) ∧
        t.i.toNat = (s.i.toNat + x.val + 1) % 65536 ∧ t.pc = s.pc + 2 ∧ Frame [.v, .index, .pc] s t) ∧
    (4096 ≤ s.i.toNat + x.val →
      exec (.ldVxMem x) s =
        .next (s.withFault .memBounds (0xF#4 ++ nibbleOfReg x ++ 0x65#8) (BitVec.ofNat 16 (max s.i.toNat 4096))))

/-- R177, R178: the persistent registers are saved and loaded from index 0; `I` moves although no memory is touched. -/
def Obligations.PersistentRegistersAreSavedAndLoaded : Prop :=
  ∀ (x : Reg) (s : State),
    (decodeWord (0xF#4 ++ nibbleOfReg x ++ 0x75#8) = .ok (.ldRVx x) ∧
      ∃ t, exec (.ldRVx x) s = .next t ∧ (∀ k, k ≤ x → t.getR k = s.getV k) ∧ (∀ k, x < k → t.getR k = s.getR k) ∧
        t.i.toNat = (s.i.toNat + x.val + 1) % 65536 ∧ t.pc = s.pc + 2 ∧ Frame [.r, .index, .pc] s t) ∧
    (decodeWord (0xF#4 ++ nibbleOfReg x ++ 0x85#8) = .ok (.ldVxR x) ∧
      ∃ t, exec (.ldVxR x) s = .next t ∧ (∀ k, k ≤ x → t.getV k = s.getR k) ∧ (∀ k, x < k → t.getV k = s.getV k) ∧
        t.i.toNat = (s.i.toNat + x.val + 1) % 65536 ∧ t.pc = s.pc + 2 ∧ Frame [.v, .index, .pc] s t)

/-- R71, R67: a store over the instruction stream is seen by the very next fetch: two bytes stored by `Fx55` where `pc`
then stands are the word the next step executes. -/
def Obligations.StoreIsSeenByTheNextFetch : Prop :=
  ∀ (x k j : Reg) (s : State) (i : Instr), Memory.wf s.mem = true → s.runState = .running →
    s.i.toNat + x.val < 4096 → j.val = k.val + 1 → j ≤ x → (s.pc + 2).toNat = s.i.toNat + k.val →
    decodeWord (s.getV k ++ s.getV j) = .ok i →
    ∃ t, exec (.ldMemVx x) s = .next t ∧ step t = exec i t

/-! Timers (44_timers.md). -/

/-- R190: the formula of the lazily evaluated timer. -/
def Obligations.TimerValueHasTheFormula : Prop :=
  (∀ (armed : Byte) (now : Nat), timerValue armed none now = 0) ∧
  ∀ (armed : Byte) (start now : Nat), start ≤ now →
    (armed.toNat ≤ (now - start) * 60 / 1000 → timerValue armed (some start) now = 0) ∧
    ((now - start) * 60 / 1000 < armed.toNat →
      (timerValue armed (some start) now).toNat + (now - start) * 60 / 1000 = armed.toNat)

/-- R196: the sampled clock (the model's field `clock`, log entry 2) never goes back in a step, and a timer's value never
increases as the clock goes on. Where `now` lies before the timer's start, which R196 excludes, the value is the model's
choice (log entry 9), and the statement holds of that choice too. -/
def Obligations.TimersOnlyCountDown : Prop :=
  (∀ s t : State, step s = .next t → s.clock ≤ t.clock) ∧
  ∀ (armed : Byte) (start : Option Nat) (now later : Nat), now ≤ later →
    (timerValue armed start later).toNat ≤ (timerValue armed start now).toNat ∧
    (timerValue armed start now).toNat ≤ armed.toNat

/-- R191: `Fx07` reads the delay timer at the instant the model samples (log entry 2), which is not before the last one,
and does not change the timer. -/
def Obligations.DelayTimerIsRead : Prop :=
  ∀ (x : Reg) (s : State),
    decodeWord (0xF#4 ++ nibbleOfReg x ++ 0x07#8) = .ok (.ldVxDt x) ∧
    ∃ t, exec (.ldVxDt x) s = .next t ∧ s.clock ≤ t.clock ∧
      t.getV x = timerValue s.dtArmed s.dtStart t.clock ∧ (∀ z, z ≠ x → t.getV z = s.getV z) ∧
      t.pc = s.pc + 2 ∧ Frame [.v, .pc, .env] s t

/-- R192, R193: arming records the register value and the instant the model samples (log entry 2). -/
def Obligations.TimersAreArmed : Prop :=
  ∀ (x : Reg) (s : State),
    (decodeWord (0xF#4 ++ nibbleOfReg x ++ 0x15#8) = .ok (.ldDtVx x) ∧
      ∃ t, exec (.ldDtVx x) s = .next t ∧ s.clock ≤ t.clock ∧ t.dtArmed = s.getV x ∧ t.dtStart = some t.clock ∧
        t.pc = s.pc + 2 ∧ Frame [.delay, .pc, .env] s t) ∧
    (decodeWord (0xF#4 ++ nibbleOfReg x ++ 0x18#8) = .ok (.ldStVx x) ∧
      ∃ t, exec (.ldStVx x) s = .next t ∧ s.clock ≤ t.clock ∧ t.stArmed = s.getV x ∧ t.stStart = some t.clock ∧
        t.pc = s.pc + 2 ∧ Frame [.sound, .pc, .env] s t)

/-! Framebuffer and drawing (45_graphics.md). -/

/-- R202. -/
def Obligations.ClearTurnsEveryPixelOff : Prop :=
  ∀ s : State,
    decodeWord 0x00E0#16 = .ok .cls ∧
    ∃ t, exec .cls s = .next t ∧ (∀ c r, Gfx.pix t.gfx c r = false) ∧ t.drawFlag = true ∧ t.pc = s.pc + 2 ∧
      Frame [.gfx, .drawFlag, .pc] s t

/-- R204: the low-resolution draw. `bit row col` is bit `7 - col` of the byte at `I + row`. -/
def Obligations.LowResolutionDraw : Prop :=
  ∀ (x y : Reg) (n : Nibble) (s : State), ¬(s.hgr = true ∧ n = 0) →
    let vx := (s.getV x).toNat
    let vy := (s.getV y).toNat
    let bit := fun row col => (Memory.read s.mem (s.i.toNat + row)).getLsbD (7 - col)
    let word : Word := 0xD#4 ++ nibbleOfReg x ++ nibbleOfReg y ++ n
    decodeWord word = .ok (.drw x y n) ∧
    (1 ≤ n.toNat → 4096 ≤ s.i.toNat + n.toNat - 1 → exec (.drw x y n) s =
        .next (s.withFault .memBounds word (BitVec.ofNat 16 (max s.i.toNat 4096)))) ∧
    ((n.toNat = 0 ∨ s.i.toNat + n.toNat - 1 < 4096) →
      ((∃ row col, row < n.toNat ∧ col < 8 ∧ bit row col = true ∧ (64 ≤ vx + col ∨ 32 ≤ vy + row)) →
        exec (.drw x y n) s = .next (s.withFault .fbBounds word (s.getV y ++ s.getV x))) ∧
      ((∀ row col, row < n.toNat → col < 8 → bit row col = true → vx + col < 64 ∧ vy + row < 32) →
        ∃ t, exec (.drw x y n) s = .next t ∧
          (∀ row col, row < n.toNat → col < 8 → bit row col = true →
            Gfx.pix t.gfx (vx + col) (vy + row) = !Gfx.pix s.gfx (vx + col) (vy + row)) ∧
          (∀ c r, (∀ row col, row < n.toNat → col < 8 → bit row col = true → ¬(c = vx + col ∧ r = vy + row)) →
            Gfx.pix t.gfx c r = Gfx.pix s.gfx c r) ∧
          ((∃ row col, row < n.toNat ∧ col < 8 ∧ bit row col = true ∧ Gfx.pix s.gfx (vx + col) (vy + row) = true) →
            t.getV 15 = 1) ∧
          ((∀ row col, row < n.toNat → col < 8 → bit row col = true → Gfx.pix s.gfx (vx + col) (vy + row) = false) →
            t.getV 15 = 0) ∧
          (∀ z, z ≠ 15 → t.getV z = s.getV z) ∧ t.drawFlag = true ∧ t.pc = s.pc + 2 ∧
          Frame [.gfx, .v, .drawFlag, .pc] s t))

/-- R205: the high-resolution draw: 15 rows of two bytes, 15 columns. `bit row col` is bit `15 - col` of the word at
`I + 2 * row`, the first byte high. -/
def Obligations.HighResolutionDraw : Prop :=
  ∀ (x y : Reg) (s : State), s.hgr = true →
    let vx := (s.getV x).toNat
    let vy := (s.getV y).toNat
    let bit := fun row col => (Memory.read s.mem (s.i.toNat + 2 * row) ++
      Memory.read s.mem (s.i.toNat + 2 * row + 1) : Word).getLsbD (15 - col)
    let word : Word := 0xD#4 ++ nibbleOfReg x ++ nibbleOfReg y ++ 0x0#4
    decodeWord word = .ok (.drw x y 0) ∧
    (4096 ≤ s.i.toNat + 29 → exec (.drw x y 0) s =
        .next (s.withFault .memBounds word (BitVec.ofNat 16 (max s.i.toNat 4096)))) ∧
    (s.i.toNat + 29 < 4096 →
      ((∃ row col, row < 15 ∧ col < 15 ∧ bit row col = true ∧ (64 ≤ vx + col ∨ 32 ≤ vy + row)) →
        exec (.drw x y 0) s = .next (s.withFault .fbBounds word (s.getV y ++ s.getV x))) ∧
      ((∀ row col, row < 15 → col < 15 → bit row col = true → vx + col < 64 ∧ vy + row < 32) →
        ∃ t, exec (.drw x y 0) s = .next t ∧
          (∀ row col, row < 15 → col < 15 → bit row col = true →
            Gfx.pix t.gfx (vx + col) (vy + row) = !Gfx.pix s.gfx (vx + col) (vy + row)) ∧
          (∀ c r, (∀ row col, row < 15 → col < 15 → bit row col = true → ¬(c = vx + col ∧ r = vy + row)) →
            Gfx.pix t.gfx c r = Gfx.pix s.gfx c r) ∧
          ((∃ row col, row < 15 ∧ col < 15 ∧ bit row col = true ∧ Gfx.pix s.gfx (vx + col) (vy + row) = true) →
            t.getV 15 = 1) ∧
          ((∀ row col, row < 15 → col < 15 → bit row col = true → Gfx.pix s.gfx (vx + col) (vy + row) = false) →
            t.getV 15 = 0) ∧
          (∀ z, z ≠ 15 → t.getV z = s.getV z) ∧ t.drawFlag = true ∧ t.pc = s.pc + 2 ∧
          Frame [.gfx, .v, .drawFlag, .pc] s t))

/-- R204, the source's property: the same sprite drawn twice at the same coordinates restores every pixel, and the
second draw reports a collision exactly when it covers a pixel that the first one lit. -/
def Obligations.DrawingTwiceRestoresTheScreen : Prop :=
  ∀ (x y : Reg) (n : Nibble) (s t : State), exec (.drw x y n) s = .next t → t.fault = none →
    t.getV x = s.getV x → t.getV y = s.getV y →
    ∃ u, exec (.drw x y n) t = .next u ∧ u.fault = none ∧ (∀ c r, Gfx.pix u.gfx c r = Gfx.pix s.gfx c r) ∧
      (u.getV 15 = 1 ↔ ∃ c r, Gfx.pix s.gfx c r = false ∧ Gfx.pix t.gfx c r = true)

/-- R206, R207: the mode switches write `hgr` and nothing else. -/
def Obligations.ResolutionSwitchesOnlyTheFlag : Prop :=
  ∀ s : State,
    (decodeWord 0x00FE#16 = .ok .low ∧
      ∃ t, exec .low s = .next t ∧ t.hgr = false ∧ t.pc = s.pc + 2 ∧ Frame [.hgr, .pc] s t) ∧
    (decodeWord 0x00FF#16 = .ok .high ∧
      ∃ t, exec .high s = .next t ∧ t.hgr = true ∧ t.pc = s.pc + 2 ∧ Frame [.hgr, .pc] s t)

/-- R208: scroll down by `V[n]` rows; the top rows stay. -/
def Obligations.ScrollDownMovesTheRows : Prop :=
  ∀ (n : Reg) (s : State),
    decodeWord (0x00C#12 ++ nibbleOfReg n) = .ok (.scd n) ∧
    ∃ t, exec (.scd n) s = .next t ∧
      (∀ c r, c < 64 → r < 32 → (s.getV n).toNat ≤ r →
        Gfx.pix t.gfx c r = Gfx.pix s.gfx c (r - (s.getV n).toNat)) ∧
      (∀ c r, c < 64 → r < 32 → r < (s.getV n).toNat → Gfx.pix t.gfx c r = Gfx.pix s.gfx c r) ∧
      t.drawFlag = true ∧ t.pc = s.pc + 2 ∧ Frame [.gfx, .drawFlag, .pc] s t

/-- R209, R210: the two scroll stubs only advance `pc`. -/
def Obligations.ScrollStubsOnlyAdvance : Prop :=
  ∀ s : State,
    (decodeWord 0x00FB#16 = .ok .scr ∧ ∃ t, exec .scr s = .next t ∧ t.pc = s.pc + 2 ∧ Frame [.pc] s t) ∧
    (decodeWord 0x00FC#16 = .ok .scl ∧ ∃ t, exec .scl s = .next t ∧ t.pc = s.pc + 2 ∧ Frame [.pc] s t)

/-! Input (46_input.md). -/

/-- R221, R222: the key skips look at the latched key `V[x]`, and raise KEY_INDEX when `V[x]` is 16 or more. -/
def Obligations.KeySkipsReadTheLatch : Prop :=
  ∀ (x : Reg) (s : State),
    decodeWord (0xE#4 ++ nibbleOfReg x ++ 0x9E#8) = .ok (.skp x) ∧
    decodeWord (0xE#4 ++ nibbleOfReg x ++ 0xA1#8) = .ok (.sknp x) ∧
    (∀ k : Key, (s.getV x).toNat = k.val →
      (∃ t, exec (.skp x) s = .next t ∧ (t.pc = if s.pressed k = true then s.pc + 4 else s.pc + 2) ∧
        Frame [.pc] s t) ∧
      (∃ t, exec (.sknp x) s = .next t ∧ (t.pc = if s.pressed k = false then s.pc + 4 else s.pc + 2) ∧
        Frame [.pc] s t)) ∧
    (16 ≤ (s.getV x).toNat →
      exec (.skp x) s =
        .next (s.withFault .keyIndex (0xE#4 ++ nibbleOfReg x ++ 0x9E#8) (BitVec.ofNat 16 (s.getV x).toNat)) ∧
      exec (.sknp x) s =
        .next (s.withFault .keyIndex (0xE#4 ++ nibbleOfReg x ++ 0xA1#8) (BitVec.ofNat 16 (s.getV x).toNat)))

/-- R223: with a key latched `Fx0A` takes it and goes on, the latch kept; with none nothing changes. -/
def Obligations.KeyWaitPollsTheLatch : Prop :=
  ∀ (x : Reg) (s : State),
    decodeWord (0xF#4 ++ nibbleOfReg x ++ 0x0A#8) = .ok (.ldVxK x) ∧
    (∀ k : Key, s.lastKey = some k →
      ∃ t, exec (.ldVxK x) s = .next t ∧ (t.getV x).toNat = k.val ∧ (∀ z, z ≠ x → t.getV z = s.getV z) ∧
        t.pc = s.pc + 2 ∧ Frame [.v, .pc] s t) ∧
    (s.lastKey = none → exec (.ldVxK x) s = .next s)

/-! The host's operations. -/

/-- R220: a refresh overwrites the whole latch and nothing else: `keys` are pressed, all others released, `first` is latched
(R34: the latch is then consistent). -/
def Obligations.RefreshOverwritesTheLatch : Prop :=
  ∀ (keys : List Key) (first : Option Key) (σ : Session),
    (first = none ∧ keys = []) ∨ (∃ k, first = some k ∧ k ∈ keys) →
      ∃ τ, σ.apply (.refreshInput keys first) = .next τ ∧
        (∀ k, τ.state.pressed k = true ↔ k ∈ keys) ∧ τ.state.lastKey = first ∧ τ.state.LatchOk ∧
        Frame [.keys] σ.state τ.state

/-- The model's choice (log entry 8, 93_implementation_defined.md U19): a host operation outside the host's contract is
refused by name, and nothing else is: `first` no member of `keys`, a clock that goes back, a second `load` or a `load`
after a step, a `step` after a failed `load`. -/
def Obligations.OnlyContractBreachesAreRefused : Prop :=
  ∀ σ : Session,
    (∀ keys first, (first = none ∧ keys ≠ []) ∨ (∃ k, first = some k ∧ k ∉ keys) →
      σ.apply (.refreshInput keys first) = .refused .badRefresh) ∧
    (∀ now, now < σ.state.clock → σ.apply (.readStatus now) = .refused .clockBackwards) ∧
    (∀ image, σ.phase ≠ .fresh → σ.apply (.load image) = .refused .loadOutOfOrder) ∧
    (σ.phase = .loadFailed → σ.apply .step = .refused .stepAfterFailedLoad) ∧
    (∀ image, σ.phase = .fresh → ∃ τ, σ.apply (.load image) = .next τ ∧ τ.state = σ.state.load image ∧
      τ.reply = .loaded (imageFits image) ∧ τ.phase = if imageFits image then .started else .loadFailed) ∧
    (σ.phase ≠ .loadFailed → ∃ τ, σ.apply .step = .next τ ∧ step σ.state = .next τ.state ∧ τ.phase = .started) ∧
    (∃ τ, σ.apply .reset = .next τ ∧ τ.state = σ.state.hostReset ∧ τ.phase = .fresh) ∧
    (∀ keys first, (first = none ∧ keys = []) ∨ (∃ k, first = some k ∧ k ∈ keys) →
      ∃ τ, σ.apply (.refreshInput keys first) = .next τ ∧ τ.phase = σ.phase) ∧
    (∀ now, σ.state.clock ≤ now → ∃ τ, σ.apply (.readStatus now) = .next τ ∧ τ.phase = σ.phase) ∧
    (∃ τ, σ.apply .readDisplay = .next τ ∧ τ.phase = σ.phase) ∧ (∃ τ, σ.apply .ackDraw = .next τ ∧ τ.phase = σ.phase)

/-- R38: what the machine's state holds after reset, and that it is RUNNING; the host's `reset` puts the same there from
any state. -/
def Obligations.ResetLeavesTheSpecifiedValues : Prop :=
  ∀ s t : State, t = State.reset ∨ t = s.hostReset →
    (∀ x, t.getV x = 0) ∧ (∀ x, t.getR x = 0) ∧ t.i = 0 ∧ t.pc = Config.progBase ∧ t.sp = 0 ∧
    (∀ k, t.slot k = 0) ∧ (∀ a, Memory.read t.mem a = 0) ∧ (∀ c r, Gfx.pix t.gfx c r = false) ∧ t.hgr = false ∧
    t.dtArmed = 0 ∧ t.stArmed = 0 ∧ t.dtStart = none ∧ t.stStart = none ∧ (∀ k, t.pressed k = false) ∧
    t.lastKey = none ∧ t.drawFlag = false ∧ t.fault = none ∧ t.runState = .running

/-- R262, R263: a fitting image is loaded after the two fonts, every other byte and all other state kept; a too long one
changes nothing and is reported on the log port (the model's field `log`, log entry 6). The fonts' bytes are named, not
fixed: they are parameters (R264, R265, log entry 5). -/
def Obligations.LoadInstallsFontsThenTheImage : Prop :=
  ∀ (image : List Byte) (s : State), Memory.wf s.mem = true →
    (image.length ≤ 4096 - Config.progBase.toNat →
      imageFits image = true ∧
      (∀ k, k < 80 → Memory.read (s.load image).mem (Config.fontLoBase + k) = Config.fontLoData.getD k 0) ∧
      (∀ k, k < 100 → Memory.read (s.load image).mem (Config.fontHiBase + k) = Config.fontHiData.getD k 0) ∧
      (∀ k, k < image.length → Memory.read (s.load image).mem (Config.progBase.toNat + k) = image.getD k 0) ∧
      (∀ a, ¬(Config.fontLoBase ≤ a ∧ a < Config.fontLoBase + 80) →
        ¬(Config.fontHiBase ≤ a ∧ a < Config.fontHiBase + 100) →
        ¬(Config.progBase.toNat ≤ a ∧ a < Config.progBase.toNat + image.length) →
        Memory.read (s.load image).mem a = Memory.read s.mem a) ∧
      Frame [.mem] s (s.load image)) ∧
    (4096 - Config.progBase.toNat < image.length →
      imageFits image = false ∧
      s.load image = { s with log := s.log ++ [⟨.loadFailure, BitVec.ofNat 16 (min image.length 0xFFFF)⟩] })

/-- R118, R120, R195: the display port delivers the pixels row-major with the flag and changes nothing, `ack_draw` clears
only the flag, and the status port reports the run state, the record and the sound timer's value and changes nothing of the
spec's machine. The model's own fields `clock` and `draws` (log entry 2) are left to `StatusReadIsASample`. -/
def Obligations.PortsReportTheState : Prop :=
  ∀ (σ : Session) (now : Nat),
    (∃ τ d, σ.apply .readDisplay = .next τ ∧ τ.state = σ.state ∧ τ.reply = .display d ∧
      d.drawFlag = σ.state.drawFlag ∧ d.pixels.length = 2048 ∧
      ∀ c r, c < 64 → r < 32 → d.pixels[64 * r + c]? = some (Gfx.pix σ.state.gfx c r)) ∧
    (∃ τ, σ.apply .ackDraw = .next τ ∧ τ.state.drawFlag = false ∧ Frame [.drawFlag] σ.state τ.state) ∧
    (∀ τ, σ.apply (.readStatus now) = .next τ →
      τ.reply = .status ⟨σ.state.runState, σ.state.fault, timerValue σ.state.stArmed σ.state.stStart now⟩ ∧
      Frame [.env] σ.state τ.state)

/-- R116, R196 in the model's form (log entries 2, 8): a `read_status` at an instant not before the last sampled one is
answered; that instant becomes the last sampled one, no free input is drawn, and no other field changes. -/
def Obligations.StatusReadIsASample : Prop :=
  ∀ (σ : Session) (now : Nat), σ.state.clock ≤ now →
    ∃ τ, σ.apply (.readStatus now) = .next τ ∧
      τ.reply = .status ⟨σ.state.runState, σ.state.fault, timerValue σ.state.stArmed σ.state.stStart now⟩ ∧
      τ.state.clock = now ∧ τ.state.draws = σ.state.draws ∧ τ.phase = σ.phase ∧ Frame [.env] σ.state τ.state
end

