-- ==== Sys2Proof/Laws/Decode.lean ====
section
/-! SUPPORT. The small laws of instruction words: a word as a number, and each field of each format read back from the
word the encoder builds. -/

namespace Sys2Proof

theorem toNat_append_eq {m n : Nat} (a : BitVec m) (b : BitVec n) :
    (a ++ b).toNat = a.toNat * 2 ^ n + b.toNat := by
  rw [BitVec.toNat_append, Nat.shiftLeft_eq, ← Nat.shiftLeft_eq, ← Nat.shiftLeft_add_eq_or_of_lt b.isLt]

@[simp] theorem nibbleOfReg_toNat (x : Reg) : (nibbleOfReg x).toNat = x.val := by
  have := x.isLt
  simp only [nibbleOfReg, BitVec.toNat_ofNat]
  omega

@[simp] theorem regOfNibble_nibbleOfReg (x : Reg) : regOfNibble (nibbleOfReg x) = x :=
  Fin.ext (nibbleOfReg_toNat x)

@[simp] theorem nibbleOfReg_regOfNibble (b : Nibble) : nibbleOfReg (regOfNibble b) = b :=
  BitVec.eq_of_toNat_eq (by simp [regOfNibble])

theorem wordXKK_toNat (n0 : Nibble) (x : Reg) (kk : Byte) :
    (wordXKK n0 x kk).toNat = (n0.toNat * 16 + x.val) * 256 + kk.toNat := by
  unfold wordXKK
  rw [toNat_append_eq, toNat_append_eq, nibbleOfReg_toNat]
  norm_num

theorem wordNNN_toNat (n0 : Nibble) (nnn : Addr12) : (wordNNN n0 nnn).toNat = n0.toNat * 4096 + nnn.toNat := by
  unfold wordNNN
  rw [toNat_append_eq]
  norm_num

theorem wordXYN_toNat (n0 : Nibble) (x y : Reg) (n : Nibble) :
    (wordXYN n0 x y n).toNat = ((n0.toNat * 16 + x.val) * 16 + y.val) * 16 + n.toNat := by
  unfold wordXYN
  rw [toNat_append_eq, toNat_append_eq, toNat_append_eq, nibbleOfReg_toNat, nibbleOfReg_toNat]
  norm_num

/-! The fields of a word as numbers. -/

theorem fieldN0_toNat (w : Word) : (fieldN0 w).toNat = w.toNat / 4096 := by
  have := w.isLt
  simp only [fieldN0, BitVec.extractLsb'_toNat, Nat.shiftRight_eq_div_pow]
  omega

theorem fieldN1_toNat (w : Word) : (fieldN1 w).toNat = w.toNat / 256 % 16 := by
  simp only [fieldN1, BitVec.extractLsb'_toNat, Nat.shiftRight_eq_div_pow]

theorem fieldN2_toNat (w : Word) : (fieldN2 w).toNat = w.toNat / 16 % 16 := by
  simp only [fieldN2, BitVec.extractLsb'_toNat, Nat.shiftRight_eq_div_pow]

theorem fieldN3_toNat (w : Word) : (fieldN3 w).toNat = w.toNat % 16 := by
  simp only [fieldN3, BitVec.extractLsb'_toNat, Nat.shiftRight_eq_div_pow]
  omega

theorem fieldKk_toNat (w : Word) : (fieldKk w).toNat = w.toNat % 256 := by
  simp only [fieldKk, BitVec.extractLsb'_toNat, Nat.shiftRight_eq_div_pow]
  omega

theorem fieldNnn_toNat (w : Word) : (fieldNnn w).toNat = w.toNat % 4096 := by
  simp only [fieldNnn, BitVec.extractLsb'_toNat, Nat.shiftRight_eq_div_pow]
  omega

theorem fieldX_val (w : Word) : (fieldX w).val = w.toNat / 256 % 16 := fieldN1_toNat w

theorem fieldY_val (w : Word) : (fieldY w).val = w.toNat / 16 % 16 := fieldN2_toNat w

/-! The fields of the words the encoder builds. -/

@[simp] theorem fieldN0_wordXKK (n0 : Nibble) (x : Reg) (kk : Byte) : fieldN0 (wordXKK n0 x kk) = n0 := by
  refine BitVec.eq_of_toNat_eq ?_
  have := x.isLt
  have := kk.isLt
  rw [fieldN0_toNat, wordXKK_toNat]
  omega

@[simp] theorem fieldX_wordXKK (n0 : Nibble) (x : Reg) (kk : Byte) : fieldX (wordXKK n0 x kk) = x := by
  refine Fin.ext ?_
  have := x.isLt
  have := kk.isLt
  rw [fieldX_val, wordXKK_toNat]
  omega

@[simp] theorem fieldKk_wordXKK (n0 : Nibble) (x : Reg) (kk : Byte) : fieldKk (wordXKK n0 x kk) = kk := by
  refine BitVec.eq_of_toNat_eq ?_
  have := kk.isLt
  rw [fieldKk_toNat, wordXKK_toNat]
  omega

@[simp] theorem fieldN0_wordNNN (n0 : Nibble) (nnn : Addr12) : fieldN0 (wordNNN n0 nnn) = n0 := by
  refine BitVec.eq_of_toNat_eq ?_
  have := nnn.isLt
  rw [fieldN0_toNat, wordNNN_toNat]
  omega

@[simp] theorem fieldNnn_wordNNN (n0 : Nibble) (nnn : Addr12) : fieldNnn (wordNNN n0 nnn) = nnn := by
  refine BitVec.eq_of_toNat_eq ?_
  have := nnn.isLt
  rw [fieldNnn_toNat, wordNNN_toNat]
  omega

@[simp] theorem fieldN1_wordNNN (n0 : Nibble) (nnn : Addr12) :
    fieldN1 (wordNNN n0 nnn) = nnn.extractLsb' 8 4 := by
  refine BitVec.eq_of_toNat_eq ?_
  have := nnn.isLt
  rw [fieldN1_toNat, wordNNN_toNat]
  simp only [BitVec.extractLsb'_toNat, Nat.shiftRight_eq_div_pow]
  omega

@[simp] theorem fieldN0_wordXYN (n0 : Nibble) (x y : Reg) (n : Nibble) : fieldN0 (wordXYN n0 x y n) = n0 := by
  refine BitVec.eq_of_toNat_eq ?_
  have := x.isLt
  have := y.isLt
  have := n.isLt
  rw [fieldN0_toNat, wordXYN_toNat]
  omega

@[simp] theorem fieldX_wordXYN (n0 : Nibble) (x y : Reg) (n : Nibble) : fieldX (wordXYN n0 x y n) = x := by
  refine Fin.ext ?_
  have := x.isLt
  have := y.isLt
  have := n.isLt
  rw [fieldX_val, wordXYN_toNat]
  omega

@[simp] theorem fieldY_wordXYN (n0 : Nibble) (x y : Reg) (n : Nibble) : fieldY (wordXYN n0 x y n) = y := by
  refine Fin.ext ?_
  have := y.isLt
  have := n.isLt
  rw [fieldY_val, wordXYN_toNat]
  omega

@[simp] theorem fieldN3_wordXYN (n0 : Nibble) (x y : Reg) (n : Nibble) : fieldN3 (wordXYN n0 x y n) = n := by
  refine BitVec.eq_of_toNat_eq ?_
  have := n.isLt
  rw [fieldN3_toNat, wordXYN_toNat]
  omega

/-- The two bytes of a word, joined again, are the word. -/
@[simp] theorem bytes_append (w : Word) : (w.extractLsb' 8 8 ++ w.extractLsb' 0 8 : Word) = w := by
  refine BitVec.eq_of_toNat_eq ?_
  have := w.isLt
  rw [toNat_append_eq]
  simp only [BitVec.extractLsb'_toNat, Nat.shiftRight_eq_div_pow]
  omega

/-- Decoding two bytes is decoding their word; the bytes after them are left. -/
theorem decode_pair (hi lo : Byte) (rest : List Byte) :
    decode (hi :: lo :: rest) = (decodeWord (hi ++ lo)).map fun i => (i, rest) := by
  simp only [decode]
  cases decodeWord (hi ++ lo) <;> rfl

/-! The fixed bits of the words the encoder builds. -/

theorem wordXKK_and (n0 m0 : Nibble) (x : Reg) (kk m2 : Byte) (m1 : Nibble) :
    wordXKK n0 x kk &&& (m0 ++ m1 ++ m2 : Word) = ((n0 &&& m0) ++ (nibbleOfReg x &&& m1) ++ (kk &&& m2) : Word) := by
  unfold wordXKK
  rw [BitVec.and_append, BitVec.and_append]

theorem wordNNN_and (n0 m0 : Nibble) (nnn m1 : Addr12) :
    wordNNN n0 nnn &&& (m0 ++ m1 : Word) = ((n0 &&& m0) ++ (nnn &&& m1) : Word) := by
  unfold wordNNN
  rw [BitVec.and_append]

theorem wordXYN_and (n0 m0 : Nibble) (x y : Reg) (m1 m2 : Nibble) (n m3 : Nibble) :
    wordXYN n0 x y n &&& (m0 ++ m1 ++ m2 ++ m3 : Word)
      = ((n0 &&& m0) ++ (nibbleOfReg x &&& m1) ++ (nibbleOfReg y &&& m2) ++ (n &&& m3) : Word) := by
  unfold wordXYN
  rw [BitVec.and_append, BitVec.and_append, BitVec.and_append]

end Sys2Proof
end

