-- ==== Sys2Proof/Laws/Memory.lean ====
section
/-! SUPPORT. The laws of memory: a read after a write, every other address untouched, and every operation keeps the
canonical form `Memory.wf`. -/

namespace Sys2Proof.Machine

@[simp] theorem Memory.wf_nil : Memory.wf [] = true := rfl

@[simp] theorem Memory.read_nil (a : Nat) : Memory.read [] a = 0 := rfl

theorem Memory.wfFrom_cons {lo a : Nat} {x : Byte} {m : Memory} :
    Memory.wfFrom lo ((a, x) :: m) = true ↔ lo ≤ a ∧ a < 4096 ∧ x ≠ 0 ∧ Memory.wfFrom (a + 1) m = true := by
  simp only [Memory.wfFrom, Bool.and_eq_true, decide_eq_true_eq, bne_iff_ne, and_assoc]
  rfl

theorem Memory.wfFrom_mono {lo lo' : Nat} {m : Memory} (h : Memory.wfFrom lo m = true) (hle : lo' ≤ lo) :
    Memory.wfFrom lo' m = true := by
  cases m with
  | nil => rfl
  | cons c m =>
    obtain ⟨a, x⟩ := c
    rw [Memory.wfFrom_cons] at h ⊢
    exact ⟨hle.trans h.1, h.2⟩

/-- Below the first listed address everything reads 0. -/
theorem Memory.read_below {lo a : Nat} {m : Memory} (h : Memory.wfFrom lo m = true) (ha : a < lo) :
    Memory.read m a = 0 := by
  cases m with
  | nil => rfl
  | cons c m =>
    obtain ⟨b, w⟩ := c
    have hb := (Memory.wfFrom_cons.1 h).1
    simp only [Memory.read]
    rw [if_neg (by omega), if_pos (by omega)]

/-- A write keeps the canonical form. -/
theorem Memory.wfFrom_write {lo a : Nat} {m : Memory} (x : Byte) (h : Memory.wfFrom lo m = true) (hlo : lo ≤ a)
    (ha : a < 4096) : Memory.wfFrom lo (Memory.write m a x) = true := by
  induction m generalizing lo with
  | nil =>
    simp only [Memory.write]
    split
    · rfl
    · exact Memory.wfFrom_cons.2 ⟨hlo, ha, ‹_›, rfl⟩
  | cons c m ih =>
    obtain ⟨b, w⟩ := c
    obtain ⟨h1, h2, h3, h4⟩ := Memory.wfFrom_cons.1 h
    simp only [Memory.write]
    split
    · subst_vars
      split
      · exact Memory.wfFrom_mono h4 (by omega)
      · exact Memory.wfFrom_cons.2 ⟨h1, h2, ‹_›, h4⟩
    · split
      · split
        · exact h
        · exact Memory.wfFrom_cons.2 ⟨hlo, ha, ‹_›, Memory.wfFrom_cons.2 ⟨by omega, h2, h3, h4⟩⟩
      · exact Memory.wfFrom_cons.2 ⟨h1, h2, h3, ih h4 (by omega)⟩

/-- What any address reads after a write. -/
theorem Memory.readFrom_write {lo a : Nat} {m : Memory} (x : Byte) (h : Memory.wfFrom lo m = true) (c : Nat) :
    Memory.read (Memory.write m a x) c = if c = a then x else Memory.read m c := by
  induction m generalizing lo with
  | nil =>
    simp only [Memory.write]
    split
    · subst_vars; simp
    · simp [Memory.read]
  | cons p m ih =>
    obtain ⟨b, w⟩ := p
    obtain ⟨h1, h2, h3, h4⟩ := Memory.wfFrom_cons.1 h
    have below : ∀ d, d < b + 1 → Memory.read m d = 0 := fun d hd => Memory.read_below h4 hd
    simp only [Memory.write]
    rcases Nat.lt_trichotomy a b with hab | hab | hab
    · rw [if_neg (by omega), if_pos hab]
      split
      · subst_vars
        by_cases hc : c = a
        · rw [if_pos hc, Memory.read, if_neg (by omega), if_pos (by omega)]
        · rw [if_neg hc]
      · simp only [Memory.read]
        by_cases hc : c = a
        · simp [hc]
        · rw [if_neg hc, if_neg hc]
          split
          · rw [if_neg (by omega), if_pos (by omega)]
          · rfl
    · rw [if_pos hab]
      subst hab
      split
      · subst_vars
        by_cases hc : c = a
        · subst hc; simp [below c (by omega)]
        · simp only [Memory.read, if_neg hc]
          split
          · exact below c (by omega)
          · rfl
      · simp only [Memory.read]
        by_cases hc : c = a <;> simp [hc]
    · rw [if_neg (by omega), if_neg (by omega)]
      simp only [Memory.read]
      by_cases hc : c = a
      · rw [if_neg (by omega), if_neg (by omega), ih h4, if_pos hc, if_pos hc]
      · rw [ih h4, if_neg hc, if_neg hc]

theorem Memory.wf_write {m : Memory} {a : Nat} (x : Byte) (h : Memory.wf m = true) (ha : a < 4096) :
    Memory.wf (Memory.write m a x) = true := Memory.wfFrom_write x h (Nat.zero_le a) ha

/-- A read after a write: the byte written at its own address, the old byte everywhere else. -/
theorem Memory.read_write {m : Memory} (a : Nat) (x : Byte) (h : Memory.wf m = true) (c : Nat) :
    Memory.read (Memory.write m a x) c = if c = a then x else Memory.read m c := Memory.readFrom_write x h c

theorem Memory.wf_writeBlock {m : Memory} {a : Nat} {xs : List Byte} (h : Memory.wf m = true)
    (ha : a + xs.length ≤ 4096) : Memory.wf (Memory.writeBlock m a xs) = true := by
  induction xs generalizing m a with
  | nil => exact h
  | cons x xs ih =>
    rw [List.length_cons] at ha
    exact ih (Memory.wf_write x h (by omega)) (by omega)

/-- A read after a block store, inside the block and outside it. -/
theorem Memory.read_writeBlock {m : Memory} {a : Nat} {xs : List Byte} (h : Memory.wf m = true)
    (ha : a + xs.length ≤ 4096) (c : Nat) :
    Memory.read (Memory.writeBlock m a xs) c
      = if a ≤ c ∧ c < a + xs.length then xs.getD (c - a) 0 else Memory.read m c := by
  induction xs generalizing m a with
  | nil => simp [Memory.writeBlock]
  | cons x xs ih =>
    rw [List.length_cons] at ha ⊢
    rw [Memory.writeBlock, ih (Memory.wf_write x h (by omega)) (by omega), Memory.read_write a x h]
    by_cases hc : c = a
    · subst hc; simp
    · rw [if_neg hc]
      by_cases hin : a + 1 ≤ c ∧ c < a + 1 + xs.length
      · rw [if_pos hin, if_pos (by omega)]
        have : c - a = (c - (a + 1)) + 1 := by omega
        rw [this, List.getD_cons_succ]
      · rw [if_neg hin, if_neg (by omega)]

/-- A block store in bounds leaves every address outside the block. -/
theorem Memory.read_writeBlock_outside {m : Memory} {a : Nat} {xs : List Byte} (h : Memory.wf m = true)
    (ha : a + xs.length ≤ 4096) {c : Nat} (hc : c < a ∨ a + xs.length ≤ c) :
    Memory.read (Memory.writeBlock m a xs) c = Memory.read m c := by
  rw [Memory.read_writeBlock h ha, if_neg (by omega)]

theorem blockInBounds_iff {base len : Nat} : blockInBounds base len = true ↔ len = 0 ∨ base + len ≤ 4096 := by
  simp only [blockInBounds, decide_eq_true_eq]
  rfl

/-- The stored block of `Fx55` has `x + 1` bytes. -/
@[simp] theorem State.block_length (s : State) (x : Reg) : (s.block x).length = x.val + 1 := by simp [State.block]

/-- Byte `k` of the stored block is `V[k]`. -/
theorem State.block_getD (s : State) (x k : Reg) (h : k ≤ x) : (s.block x).getD k.val 0 = s.getV k := by
  have hk : k.val < x.val + 1 := Nat.lt_succ_of_le h
  simp [State.block, State.getV, List.getD, hk, Vector.getD]

@[simp] theorem bcdDigits_length (b : Byte) : (bcdDigits b).length = 3 := rfl

@[simp] theorem bytesOfWord_length (w : Word) : (bytesOfWord w).length = 2 := rfl

end Sys2Proof.Machine
end

