-- ==== Sys2Proof/Laws/Screen.lean ====
section
/-! SUPPORT. The laws of the framebuffer: what one pixel shows after a flip, a sequence of flips, a clear, a scroll; which
pixels a sprite covers. -/

namespace Sys2Proof.Machine

theorem Pixel.inGrid_iff (p : Pixel) : p.inGrid = true ↔ p.1 < 64 ∧ p.2 < 32 := by simp [Pixel.inGrid]

@[simp] theorem Gfx.pix_blank (c r : Nat) : Gfx.pix Gfx.blank c r = false := by
  simp [Gfx.pix, Gfx.blank]

theorem Gfx.pix_outside (g : Gfx) {c r : Nat} (h : ¬(c < 64 ∧ r < 32)) : Gfx.pix g c r = false := by
  simp only [Gfx.pix, dif_neg h]

/-- A flip inverts its own pixel and no other. -/
theorem Gfx.pix_flip (g : Gfx) (c r c' r' : Nat) (h : c < 64 ∧ r < 32) :
    Gfx.pix (Gfx.flip g c r) c' r' = if (c', r') = (c, r) then !Gfx.pix g c r else Gfx.pix g c' r' := by
  by_cases h' : c' < 64 ∧ r' < 32
  · simp only [Gfx.pix, Gfx.flip, dif_pos h, dif_pos h', Vector.getElem_set, Prod.mk.injEq]
    by_cases hr : r = r'
    · subst hr
      by_cases hc : c = c'
      · subst hc; simp
      · simp [hc, Ne.symm hc]
    · simp [hr, Ne.symm hr]
  · rw [Gfx.pix_outside _ h', Gfx.pix_outside g h', if_neg]
    rintro h1
    rw [Prod.mk.injEq] at h1
    omega

/-- Flipping a list without repeats inverts exactly its pixels. -/
theorem Gfx.pix_flipAll (g : Gfx) (ps : List Pixel) (hin : ps.all Pixel.inGrid = true) (hnd : ps.Nodup) (c r : Nat) :
    Gfx.pix (Gfx.flipAll g ps) c r = if (c, r) ∈ ps then !Gfx.pix g c r else Gfx.pix g c r := by
  induction ps generalizing g with
  | nil => simp [Gfx.flipAll]
  | cons p ps ih =>
    obtain ⟨a, b⟩ := p
    rw [List.all_cons, Bool.and_eq_true] at hin
    rw [List.nodup_cons] at hnd
    have hab : a < 64 ∧ b < 32 := (Pixel.inGrid_iff (a, b)).1 hin.1
    rw [Gfx.flipAll, ih (Gfx.flip g a b) hin.2 hnd.2, Gfx.pix_flip g a b c r hab]
    by_cases hp : (c, r) = (a, b)
    · rw [Prod.mk.injEq] at hp
      obtain ⟨rfl, rfl⟩ := hp
      simp [hnd.1]
    · simp [hp]

/-- Two framebuffers with the same pixels are equal. -/
theorem Gfx.ext_pix {g g' : Gfx} (h : ∀ c r, Gfx.pix g c r = Gfx.pix g' c r) : g = g' := by
  refine Vector.ext fun r hr => Vector.ext fun c hc => ?_
  have := h c r
  simpa [Gfx.pix, hc, hr] using this

theorem Gfx.anyLit_iff (g : Gfx) (ps : List Pixel) :
    Gfx.anyLit g ps = true ↔ ∃ c r, (c, r) ∈ ps ∧ Gfx.pix g c r = true := by
  simp [Gfx.anyLit]

theorem mem_rowPixels {w : Nat} (cols : Nat) (bits : BitVec w) (c r : Nat) (p : Pixel) :
    p ∈ rowPixels cols bits c r ↔ ∃ col, col < cols ∧ bits.getMsbD col = true ∧ p = (c + col, r) := by
  simp only [rowPixels, List.mem_map, List.mem_filter, List.mem_range]
  constructor
  · rintro ⟨col, ⟨h1, h2⟩, rfl⟩; exact ⟨col, h1, h2, rfl⟩
  · rintro ⟨col, h1, h2, rfl⟩; exact ⟨col, ⟨h1, h2⟩, rfl⟩

/-- A sprite covers the pixels under its set bits. -/
theorem mem_spritePixels {w : Nat} (cols c r : Nat) (rows : List (BitVec w)) (p : Pixel) :
    p ∈ spritePixels cols c r rows ↔
      ∃ row, ∃ h : row < rows.length, ∃ col, col < cols ∧ (rows[row]).getMsbD col = true ∧
        p = (c + col, r + row) := by
  induction rows generalizing r with
  | nil => simp [spritePixels]
  | cons bits rows ih =>
    rw [spritePixels, List.mem_append, mem_rowPixels, ih]
    constructor
    · rintro (⟨col, h1, h2, rfl⟩ | ⟨row, h, col, h1, h2, rfl⟩)
      · exact ⟨0, by simp, col, h1, h2, rfl⟩
      · refine ⟨row + 1, by simpa using h, col, h1, h2, ?_⟩
        rw [show r + 1 + row = r + (row + 1) by omega]
    · rintro ⟨row, h, col, h1, h2, rfl⟩
      cases row with
      | zero => exact .inl ⟨col, h1, h2, rfl⟩
      | succ row =>
        refine .inr ⟨row, by simpa using h, col, h1, h2, ?_⟩
        rw [show r + 1 + row = r + (row + 1) by omega]

theorem nodup_rowPixels {w : Nat} (cols : Nat) (bits : BitVec w) (c r : Nat) : (rowPixels cols bits c r).Nodup := by
  refine List.Nodup.map (fun a b h => ?_) (List.nodup_range.filter _)
  rw [Prod.mk.injEq] at h
  omega

/-- A sprite covers no pixel twice. -/
theorem nodup_spritePixels {w : Nat} (cols c r : Nat) (rows : List (BitVec w)) :
    (spritePixels cols c r rows).Nodup := by
  induction rows generalizing r with
  | nil => exact List.nodup_nil
  | cons bits rows ih =>
    rw [spritePixels]
    refine List.Nodup.append (nodup_rowPixels cols bits c r) (ih (r + 1)) ?_
    intro p hp hq
    rw [mem_rowPixels] at hp
    rw [mem_spritePixels] at hq
    obtain ⟨_, _, _, rfl⟩ := hp
    obtain ⟨row, _, _, _, _, h⟩ := hq
    rw [Prod.mk.injEq] at h
    omega

theorem State.nodup_sprite (s : State) (x y : Reg) (n : Nibble) : (s.sprite x y n).Nodup := by
  unfold State.sprite
  split <;> exact nodup_spritePixels _ _ _ _

/-! The sprite of a draw, in the terms of 45_graphics.md R203 to R205. -/

theorem State.drawsHigh_iff (s : State) (n : Nibble) : s.drawsHigh n = true ↔ s.hgr = true ∧ n = 0 := by
  simp [State.drawsHigh]

theorem State.spriteLength_low {s : State} {n : Nibble} (h : ¬(s.hgr = true ∧ n = 0)) : s.spriteLength n = n.toNat := by
  rw [State.spriteLength, if_neg (by rwa [State.drawsHigh_iff])]

theorem State.spriteLength_high {s : State} (h : s.hgr = true) : s.spriteLength 0 = 30 := by
  rw [State.spriteLength, if_pos (by rw [State.drawsHigh_iff]; exact ⟨h, rfl⟩)]

/-- The pixels of a low-resolution sprite: bit `7 - col` of the byte at `I + row` (R204). -/
theorem State.mem_sprite_low {s : State} (x y : Reg) {n : Nibble} (h : ¬(s.hgr = true ∧ n = 0)) (p : Pixel) :
    p ∈ s.sprite x y n ↔ ∃ row col, row < n.toNat ∧ col < 8 ∧
      (Memory.read s.mem (s.i.toNat + row)).getLsbD (7 - col) = true ∧
      p = ((s.getV x).toNat + col, (s.getV y).toNat + row) := by
  rw [State.sprite, if_neg (by rwa [State.drawsHigh_iff]), mem_spritePixels]
  constructor
  · rintro ⟨row, hr, col, hc, hb, rfl⟩
    exact ⟨row, col, by simpa [State.lowRows] using hr, hc, by simpa [State.lowRows, BitVec.getMsbD, hc] using hb, rfl⟩
  · rintro ⟨row, col, hr, hc, hb, rfl⟩
    exact ⟨row, by simpa [State.lowRows] using hr, col, hc, by simpa [State.lowRows, BitVec.getMsbD, hc] using hb, rfl⟩

/-- The pixels of a high-resolution sprite: bit `15 - col` of the word at `I + 2 * row` (R205). -/
theorem State.mem_sprite_high {s : State} (x y : Reg) (h : s.hgr = true) (p : Pixel) :
    p ∈ s.sprite x y 0 ↔ ∃ row col, row < 15 ∧ col < 15 ∧
      (Memory.readWord s.mem (s.i.toNat + 2 * row)).getLsbD (15 - col) = true ∧
      p = ((s.getV x).toNat + col, (s.getV y).toNat + row) := by
  rw [State.sprite, if_pos (by rw [State.drawsHigh_iff]; exact ⟨h, rfl⟩), mem_spritePixels]
  constructor
  · rintro ⟨row, hr, col, hc, hb, rfl⟩
    have hc' : col < 16 := by omega
    exact ⟨row, col, by simpa [State.highRows] using hr, hc, by simpa [State.highRows, BitVec.getMsbD, hc'] using hb, rfl⟩
  · rintro ⟨row, col, hr, hc, hb, rfl⟩
    have hc' : col < 16 := by omega
    exact ⟨row, by simpa [State.highRows] using hr, col, hc, by simpa [State.highRows, BitVec.getMsbD, hc'] using hb, rfl⟩

theorem Gfx.pix_scrollDown (g : Gfx) (n c r : Nat) (h : c < 64 ∧ r < 32) :
    Gfx.pix (Gfx.scrollDown g n) c r = if n ≤ r then Gfx.pix g c (r - n) else Gfx.pix g c r := by
  have h' : c < 64 ∧ r - n < 32 := ⟨h.1, by omega⟩
  simp only [Gfx.pix, Gfx.scrollDown, dif_pos h, dif_pos h', Vector.getElem_ofFn]
  split <;> rfl

end Sys2Proof.Machine
end

