-- ==== Sys2Proof/Laws/State.lean ====
section
/-! SUPPORT. One lemma per field per update of State, true by rfl or by unfolding that update, so that no later proof unfolds a record update; and
the same for the four accessors `getV`, `getR`, `slot`, `pressed`. What an update does to the accessor it changes stands
at the end. -/

namespace Sys2Proof.Machine

/-! `State.setV`. -/

@[simp] theorem State.setV_v (s : State) (x : Reg) (b : Byte) : (s.setV x b).v = s.v.set x.val b := rfl
@[simp] theorem State.setV_r (s : State) (x : Reg) (b : Byte) : (s.setV x b).r = s.r := rfl
@[simp] theorem State.setV_i (s : State) (x : Reg) (b : Byte) : (s.setV x b).i = s.i := rfl
@[simp] theorem State.setV_pc (s : State) (x : Reg) (b : Byte) : (s.setV x b).pc = s.pc := rfl
@[simp] theorem State.setV_sp (s : State) (x : Reg) (b : Byte) : (s.setV x b).sp = s.sp := rfl
@[simp] theorem State.setV_stack (s : State) (x : Reg) (b : Byte) : (s.setV x b).stack = s.stack := rfl
@[simp] theorem State.setV_mem (s : State) (x : Reg) (b : Byte) : (s.setV x b).mem = s.mem := rfl
@[simp] theorem State.setV_gfx (s : State) (x : Reg) (b : Byte) : (s.setV x b).gfx = s.gfx := rfl
@[simp] theorem State.setV_hgr (s : State) (x : Reg) (b : Byte) : (s.setV x b).hgr = s.hgr := rfl
@[simp] theorem State.setV_dtArmed (s : State) (x : Reg) (b : Byte) : (s.setV x b).dtArmed = s.dtArmed := rfl
@[simp] theorem State.setV_dtStart (s : State) (x : Reg) (b : Byte) : (s.setV x b).dtStart = s.dtStart := rfl
@[simp] theorem State.setV_stArmed (s : State) (x : Reg) (b : Byte) : (s.setV x b).stArmed = s.stArmed := rfl
@[simp] theorem State.setV_stStart (s : State) (x : Reg) (b : Byte) : (s.setV x b).stStart = s.stStart := rfl
@[simp] theorem State.setV_key (s : State) (x : Reg) (b : Byte) : (s.setV x b).key = s.key := rfl
@[simp] theorem State.setV_lastKey (s : State) (x : Reg) (b : Byte) : (s.setV x b).lastKey = s.lastKey := rfl
@[simp] theorem State.setV_drawFlag (s : State) (x : Reg) (b : Byte) : (s.setV x b).drawFlag = s.drawFlag := rfl
@[simp] theorem State.setV_fault (s : State) (x : Reg) (b : Byte) : (s.setV x b).fault = s.fault := rfl
@[simp] theorem State.setV_clock (s : State) (x : Reg) (b : Byte) : (s.setV x b).clock = s.clock := rfl
@[simp] theorem State.setV_draws (s : State) (x : Reg) (b : Byte) : (s.setV x b).draws = s.draws := rfl
@[simp] theorem State.setV_log (s : State) (x : Reg) (b : Byte) : (s.setV x b).log = s.log := rfl
@[simp] theorem State.getR_setV (s : State) (x : Reg) (b : Byte) (z : Reg) : (s.setV x b).getR z = s.getR z := rfl
@[simp] theorem State.slot_setV (s : State) (x : Reg) (b : Byte) (k : Fin 16) : (s.setV x b).slot k = s.slot k := rfl
@[simp] theorem State.pressed_setV (s : State) (x : Reg) (b : Byte) (k : Key) : (s.setV x b).pressed k = s.pressed k := rfl

/-! `State.loadV`. -/

@[simp] theorem State.loadV_r (s : State) (x : Reg) (f : Reg → Byte) : (s.loadV x f).r = s.r := by simp only [State.loadV]
@[simp] theorem State.loadV_i (s : State) (x : Reg) (f : Reg → Byte) : (s.loadV x f).i = s.i := by simp only [State.loadV]
@[simp] theorem State.loadV_pc (s : State) (x : Reg) (f : Reg → Byte) : (s.loadV x f).pc = s.pc := by simp only [State.loadV]
@[simp] theorem State.loadV_sp (s : State) (x : Reg) (f : Reg → Byte) : (s.loadV x f).sp = s.sp := by simp only [State.loadV]
@[simp] theorem State.loadV_stack (s : State) (x : Reg) (f : Reg → Byte) : (s.loadV x f).stack = s.stack := by simp only [State.loadV]
@[simp] theorem State.loadV_mem (s : State) (x : Reg) (f : Reg → Byte) : (s.loadV x f).mem = s.mem := by simp only [State.loadV]
@[simp] theorem State.loadV_gfx (s : State) (x : Reg) (f : Reg → Byte) : (s.loadV x f).gfx = s.gfx := by simp only [State.loadV]
@[simp] theorem State.loadV_hgr (s : State) (x : Reg) (f : Reg → Byte) : (s.loadV x f).hgr = s.hgr := by simp only [State.loadV]
@[simp] theorem State.loadV_dtArmed (s : State) (x : Reg) (f : Reg → Byte) : (s.loadV x f).dtArmed = s.dtArmed := by simp only [State.loadV]
@[simp] theorem State.loadV_dtStart (s : State) (x : Reg) (f : Reg → Byte) : (s.loadV x f).dtStart = s.dtStart := by simp only [State.loadV]
@[simp] theorem State.loadV_stArmed (s : State) (x : Reg) (f : Reg → Byte) : (s.loadV x f).stArmed = s.stArmed := by simp only [State.loadV]
@[simp] theorem State.loadV_stStart (s : State) (x : Reg) (f : Reg → Byte) : (s.loadV x f).stStart = s.stStart := by simp only [State.loadV]
@[simp] theorem State.loadV_key (s : State) (x : Reg) (f : Reg → Byte) : (s.loadV x f).key = s.key := by simp only [State.loadV]
@[simp] theorem State.loadV_lastKey (s : State) (x : Reg) (f : Reg → Byte) : (s.loadV x f).lastKey = s.lastKey := by simp only [State.loadV]
@[simp] theorem State.loadV_drawFlag (s : State) (x : Reg) (f : Reg → Byte) : (s.loadV x f).drawFlag = s.drawFlag := by simp only [State.loadV]
@[simp] theorem State.loadV_fault (s : State) (x : Reg) (f : Reg → Byte) : (s.loadV x f).fault = s.fault := by simp only [State.loadV]
@[simp] theorem State.loadV_clock (s : State) (x : Reg) (f : Reg → Byte) : (s.loadV x f).clock = s.clock := by simp only [State.loadV]
@[simp] theorem State.loadV_draws (s : State) (x : Reg) (f : Reg → Byte) : (s.loadV x f).draws = s.draws := by simp only [State.loadV]
@[simp] theorem State.loadV_log (s : State) (x : Reg) (f : Reg → Byte) : (s.loadV x f).log = s.log := by simp only [State.loadV]
@[simp] theorem State.getR_loadV (s : State) (x : Reg) (f : Reg → Byte) (z : Reg) : (s.loadV x f).getR z = s.getR z := by simp only [State.getR, State.loadV]
@[simp] theorem State.slot_loadV (s : State) (x : Reg) (f : Reg → Byte) (k : Fin 16) : (s.loadV x f).slot k = s.slot k := by simp only [State.slot, State.loadV]
@[simp] theorem State.pressed_loadV (s : State) (x : Reg) (f : Reg → Byte) (k : Key) : (s.loadV x f).pressed k = s.pressed k := by simp only [State.pressed, State.loadV]

/-! `State.saveR`. -/

@[simp] theorem State.saveR_v (s : State) (x : Reg) : (s.saveR x).v = s.v := by simp only [State.saveR]
@[simp] theorem State.saveR_i (s : State) (x : Reg) : (s.saveR x).i = s.i := by simp only [State.saveR]
@[simp] theorem State.saveR_pc (s : State) (x : Reg) : (s.saveR x).pc = s.pc := by simp only [State.saveR]
@[simp] theorem State.saveR_sp (s : State) (x : Reg) : (s.saveR x).sp = s.sp := by simp only [State.saveR]
@[simp] theorem State.saveR_stack (s : State) (x : Reg) : (s.saveR x).stack = s.stack := by simp only [State.saveR]
@[simp] theorem State.saveR_mem (s : State) (x : Reg) : (s.saveR x).mem = s.mem := by simp only [State.saveR]
@[simp] theorem State.saveR_gfx (s : State) (x : Reg) : (s.saveR x).gfx = s.gfx := by simp only [State.saveR]
@[simp] theorem State.saveR_hgr (s : State) (x : Reg) : (s.saveR x).hgr = s.hgr := by simp only [State.saveR]
@[simp] theorem State.saveR_dtArmed (s : State) (x : Reg) : (s.saveR x).dtArmed = s.dtArmed := by simp only [State.saveR]
@[simp] theorem State.saveR_dtStart (s : State) (x : Reg) : (s.saveR x).dtStart = s.dtStart := by simp only [State.saveR]
@[simp] theorem State.saveR_stArmed (s : State) (x : Reg) : (s.saveR x).stArmed = s.stArmed := by simp only [State.saveR]
@[simp] theorem State.saveR_stStart (s : State) (x : Reg) : (s.saveR x).stStart = s.stStart := by simp only [State.saveR]
@[simp] theorem State.saveR_key (s : State) (x : Reg) : (s.saveR x).key = s.key := by simp only [State.saveR]
@[simp] theorem State.saveR_lastKey (s : State) (x : Reg) : (s.saveR x).lastKey = s.lastKey := by simp only [State.saveR]
@[simp] theorem State.saveR_drawFlag (s : State) (x : Reg) : (s.saveR x).drawFlag = s.drawFlag := by simp only [State.saveR]
@[simp] theorem State.saveR_fault (s : State) (x : Reg) : (s.saveR x).fault = s.fault := by simp only [State.saveR]
@[simp] theorem State.saveR_clock (s : State) (x : Reg) : (s.saveR x).clock = s.clock := by simp only [State.saveR]
@[simp] theorem State.saveR_draws (s : State) (x : Reg) : (s.saveR x).draws = s.draws := by simp only [State.saveR]
@[simp] theorem State.saveR_log (s : State) (x : Reg) : (s.saveR x).log = s.log := by simp only [State.saveR]
@[simp] theorem State.getV_saveR (s : State) (x : Reg) (z : Reg) : (s.saveR x).getV z = s.getV z := by simp only [State.getV, State.saveR]
@[simp] theorem State.slot_saveR (s : State) (x : Reg) (k : Fin 16) : (s.saveR x).slot k = s.slot k := by simp only [State.slot, State.saveR]
@[simp] theorem State.pressed_saveR (s : State) (x : Reg) (k : Key) : (s.saveR x).pressed k = s.pressed k := by simp only [State.pressed, State.saveR]

/-! `State.setI`. -/

@[simp] theorem State.setI_v (s : State) (w : Word) : (s.setI w).v = s.v := rfl
@[simp] theorem State.setI_r (s : State) (w : Word) : (s.setI w).r = s.r := rfl
@[simp] theorem State.setI_i (s : State) (w : Word) : (s.setI w).i = w := rfl
@[simp] theorem State.setI_pc (s : State) (w : Word) : (s.setI w).pc = s.pc := rfl
@[simp] theorem State.setI_sp (s : State) (w : Word) : (s.setI w).sp = s.sp := rfl
@[simp] theorem State.setI_stack (s : State) (w : Word) : (s.setI w).stack = s.stack := rfl
@[simp] theorem State.setI_mem (s : State) (w : Word) : (s.setI w).mem = s.mem := rfl
@[simp] theorem State.setI_gfx (s : State) (w : Word) : (s.setI w).gfx = s.gfx := rfl
@[simp] theorem State.setI_hgr (s : State) (w : Word) : (s.setI w).hgr = s.hgr := rfl
@[simp] theorem State.setI_dtArmed (s : State) (w : Word) : (s.setI w).dtArmed = s.dtArmed := rfl
@[simp] theorem State.setI_dtStart (s : State) (w : Word) : (s.setI w).dtStart = s.dtStart := rfl
@[simp] theorem State.setI_stArmed (s : State) (w : Word) : (s.setI w).stArmed = s.stArmed := rfl
@[simp] theorem State.setI_stStart (s : State) (w : Word) : (s.setI w).stStart = s.stStart := rfl
@[simp] theorem State.setI_key (s : State) (w : Word) : (s.setI w).key = s.key := rfl
@[simp] theorem State.setI_lastKey (s : State) (w : Word) : (s.setI w).lastKey = s.lastKey := rfl
@[simp] theorem State.setI_drawFlag (s : State) (w : Word) : (s.setI w).drawFlag = s.drawFlag := rfl
@[simp] theorem State.setI_fault (s : State) (w : Word) : (s.setI w).fault = s.fault := rfl
@[simp] theorem State.setI_clock (s : State) (w : Word) : (s.setI w).clock = s.clock := rfl
@[simp] theorem State.setI_draws (s : State) (w : Word) : (s.setI w).draws = s.draws := rfl
@[simp] theorem State.setI_log (s : State) (w : Word) : (s.setI w).log = s.log := rfl
@[simp] theorem State.getV_setI (s : State) (w : Word) (z : Reg) : (s.setI w).getV z = s.getV z := rfl
@[simp] theorem State.getR_setI (s : State) (w : Word) (z : Reg) : (s.setI w).getR z = s.getR z := rfl
@[simp] theorem State.slot_setI (s : State) (w : Word) (k : Fin 16) : (s.setI w).slot k = s.slot k := rfl
@[simp] theorem State.pressed_setI (s : State) (w : Word) (k : Key) : (s.setI w).pressed k = s.pressed k := rfl

/-! `State.bumpI`. -/

@[simp] theorem State.bumpI_v (s : State) (x : Reg) : (s.bumpI x).v = s.v := rfl
@[simp] theorem State.bumpI_r (s : State) (x : Reg) : (s.bumpI x).r = s.r := rfl
@[simp] theorem State.bumpI_i (s : State) (x : Reg) : (s.bumpI x).i = s.i + BitVec.ofNat 16 (x.val + 1) := rfl
@[simp] theorem State.bumpI_pc (s : State) (x : Reg) : (s.bumpI x).pc = s.pc := rfl
@[simp] theorem State.bumpI_sp (s : State) (x : Reg) : (s.bumpI x).sp = s.sp := rfl
@[simp] theorem State.bumpI_stack (s : State) (x : Reg) : (s.bumpI x).stack = s.stack := rfl
@[simp] theorem State.bumpI_mem (s : State) (x : Reg) : (s.bumpI x).mem = s.mem := rfl
@[simp] theorem State.bumpI_gfx (s : State) (x : Reg) : (s.bumpI x).gfx = s.gfx := rfl
@[simp] theorem State.bumpI_hgr (s : State) (x : Reg) : (s.bumpI x).hgr = s.hgr := rfl
@[simp] theorem State.bumpI_dtArmed (s : State) (x : Reg) : (s.bumpI x).dtArmed = s.dtArmed := rfl
@[simp] theorem State.bumpI_dtStart (s : State) (x : Reg) : (s.bumpI x).dtStart = s.dtStart := rfl
@[simp] theorem State.bumpI_stArmed (s : State) (x : Reg) : (s.bumpI x).stArmed = s.stArmed := rfl
@[simp] theorem State.bumpI_stStart (s : State) (x : Reg) : (s.bumpI x).stStart = s.stStart := rfl
@[simp] theorem State.bumpI_key (s : State) (x : Reg) : (s.bumpI x).key = s.key := rfl
@[simp] theorem State.bumpI_lastKey (s : State) (x : Reg) : (s.bumpI x).lastKey = s.lastKey := rfl
@[simp] theorem State.bumpI_drawFlag (s : State) (x : Reg) : (s.bumpI x).drawFlag = s.drawFlag := rfl
@[simp] theorem State.bumpI_fault (s : State) (x : Reg) : (s.bumpI x).fault = s.fault := rfl
@[simp] theorem State.bumpI_clock (s : State) (x : Reg) : (s.bumpI x).clock = s.clock := rfl
@[simp] theorem State.bumpI_draws (s : State) (x : Reg) : (s.bumpI x).draws = s.draws := rfl
@[simp] theorem State.bumpI_log (s : State) (x : Reg) : (s.bumpI x).log = s.log := rfl
@[simp] theorem State.getV_bumpI (s : State) (x : Reg) (z : Reg) : (s.bumpI x).getV z = s.getV z := rfl
@[simp] theorem State.getR_bumpI (s : State) (x : Reg) (z : Reg) : (s.bumpI x).getR z = s.getR z := rfl
@[simp] theorem State.slot_bumpI (s : State) (x : Reg) (k : Fin 16) : (s.bumpI x).slot k = s.slot k := rfl
@[simp] theorem State.pressed_bumpI (s : State) (x : Reg) (k : Key) : (s.bumpI x).pressed k = s.pressed k := rfl

/-! `State.setPc`. -/

@[simp] theorem State.setPc_v (s : State) (w : Word) : (s.setPc w).v = s.v := rfl
@[simp] theorem State.setPc_r (s : State) (w : Word) : (s.setPc w).r = s.r := rfl
@[simp] theorem State.setPc_i (s : State) (w : Word) : (s.setPc w).i = s.i := rfl
@[simp] theorem State.setPc_pc (s : State) (w : Word) : (s.setPc w).pc = w := rfl
@[simp] theorem State.setPc_sp (s : State) (w : Word) : (s.setPc w).sp = s.sp := rfl
@[simp] theorem State.setPc_stack (s : State) (w : Word) : (s.setPc w).stack = s.stack := rfl
@[simp] theorem State.setPc_mem (s : State) (w : Word) : (s.setPc w).mem = s.mem := rfl
@[simp] theorem State.setPc_gfx (s : State) (w : Word) : (s.setPc w).gfx = s.gfx := rfl
@[simp] theorem State.setPc_hgr (s : State) (w : Word) : (s.setPc w).hgr = s.hgr := rfl
@[simp] theorem State.setPc_dtArmed (s : State) (w : Word) : (s.setPc w).dtArmed = s.dtArmed := rfl
@[simp] theorem State.setPc_dtStart (s : State) (w : Word) : (s.setPc w).dtStart = s.dtStart := rfl
@[simp] theorem State.setPc_stArmed (s : State) (w : Word) : (s.setPc w).stArmed = s.stArmed := rfl
@[simp] theorem State.setPc_stStart (s : State) (w : Word) : (s.setPc w).stStart = s.stStart := rfl
@[simp] theorem State.setPc_key (s : State) (w : Word) : (s.setPc w).key = s.key := rfl
@[simp] theorem State.setPc_lastKey (s : State) (w : Word) : (s.setPc w).lastKey = s.lastKey := rfl
@[simp] theorem State.setPc_drawFlag (s : State) (w : Word) : (s.setPc w).drawFlag = s.drawFlag := rfl
@[simp] theorem State.setPc_fault (s : State) (w : Word) : (s.setPc w).fault = s.fault := rfl
@[simp] theorem State.setPc_clock (s : State) (w : Word) : (s.setPc w).clock = s.clock := rfl
@[simp] theorem State.setPc_draws (s : State) (w : Word) : (s.setPc w).draws = s.draws := rfl
@[simp] theorem State.setPc_log (s : State) (w : Word) : (s.setPc w).log = s.log := rfl
@[simp] theorem State.getV_setPc (s : State) (w : Word) (z : Reg) : (s.setPc w).getV z = s.getV z := rfl
@[simp] theorem State.getR_setPc (s : State) (w : Word) (z : Reg) : (s.setPc w).getR z = s.getR z := rfl
@[simp] theorem State.slot_setPc (s : State) (w : Word) (k : Fin 16) : (s.setPc w).slot k = s.slot k := rfl
@[simp] theorem State.pressed_setPc (s : State) (w : Word) (k : Key) : (s.setPc w).pressed k = s.pressed k := rfl

/-! `State.advance`. -/

@[simp] theorem State.advance_v (s : State) : (s.advance).v = s.v := rfl
@[simp] theorem State.advance_r (s : State) : (s.advance).r = s.r := rfl
@[simp] theorem State.advance_i (s : State) : (s.advance).i = s.i := rfl
@[simp] theorem State.advance_pc (s : State) : (s.advance).pc = s.pc + 2 := rfl
@[simp] theorem State.advance_sp (s : State) : (s.advance).sp = s.sp := rfl
@[simp] theorem State.advance_stack (s : State) : (s.advance).stack = s.stack := rfl
@[simp] theorem State.advance_mem (s : State) : (s.advance).mem = s.mem := rfl
@[simp] theorem State.advance_gfx (s : State) : (s.advance).gfx = s.gfx := rfl
@[simp] theorem State.advance_hgr (s : State) : (s.advance).hgr = s.hgr := rfl
@[simp] theorem State.advance_dtArmed (s : State) : (s.advance).dtArmed = s.dtArmed := rfl
@[simp] theorem State.advance_dtStart (s : State) : (s.advance).dtStart = s.dtStart := rfl
@[simp] theorem State.advance_stArmed (s : State) : (s.advance).stArmed = s.stArmed := rfl
@[simp] theorem State.advance_stStart (s : State) : (s.advance).stStart = s.stStart := rfl
@[simp] theorem State.advance_key (s : State) : (s.advance).key = s.key := rfl
@[simp] theorem State.advance_lastKey (s : State) : (s.advance).lastKey = s.lastKey := rfl
@[simp] theorem State.advance_drawFlag (s : State) : (s.advance).drawFlag = s.drawFlag := rfl
@[simp] theorem State.advance_fault (s : State) : (s.advance).fault = s.fault := rfl
@[simp] theorem State.advance_clock (s : State) : (s.advance).clock = s.clock := rfl
@[simp] theorem State.advance_draws (s : State) : (s.advance).draws = s.draws := rfl
@[simp] theorem State.advance_log (s : State) : (s.advance).log = s.log := rfl
@[simp] theorem State.getV_advance (s : State) (z : Reg) : (s.advance).getV z = s.getV z := rfl
@[simp] theorem State.getR_advance (s : State) (z : Reg) : (s.advance).getR z = s.getR z := rfl
@[simp] theorem State.slot_advance (s : State) (k : Fin 16) : (s.advance).slot k = s.slot k := rfl
@[simp] theorem State.pressed_advance (s : State) (k : Key) : (s.advance).pressed k = s.pressed k := rfl

/-! `State.skipIf`. -/

@[simp] theorem State.skipIf_v (s : State) (c : Bool) : (s.skipIf c).v = s.v := rfl
@[simp] theorem State.skipIf_r (s : State) (c : Bool) : (s.skipIf c).r = s.r := rfl
@[simp] theorem State.skipIf_i (s : State) (c : Bool) : (s.skipIf c).i = s.i := rfl
@[simp] theorem State.skipIf_pc (s : State) (c : Bool) : (s.skipIf c).pc = if c then s.pc + 4 else s.pc + 2 := rfl
@[simp] theorem State.skipIf_sp (s : State) (c : Bool) : (s.skipIf c).sp = s.sp := rfl
@[simp] theorem State.skipIf_stack (s : State) (c : Bool) : (s.skipIf c).stack = s.stack := rfl
@[simp] theorem State.skipIf_mem (s : State) (c : Bool) : (s.skipIf c).mem = s.mem := rfl
@[simp] theorem State.skipIf_gfx (s : State) (c : Bool) : (s.skipIf c).gfx = s.gfx := rfl
@[simp] theorem State.skipIf_hgr (s : State) (c : Bool) : (s.skipIf c).hgr = s.hgr := rfl
@[simp] theorem State.skipIf_dtArmed (s : State) (c : Bool) : (s.skipIf c).dtArmed = s.dtArmed := rfl
@[simp] theorem State.skipIf_dtStart (s : State) (c : Bool) : (s.skipIf c).dtStart = s.dtStart := rfl
@[simp] theorem State.skipIf_stArmed (s : State) (c : Bool) : (s.skipIf c).stArmed = s.stArmed := rfl
@[simp] theorem State.skipIf_stStart (s : State) (c : Bool) : (s.skipIf c).stStart = s.stStart := rfl
@[simp] theorem State.skipIf_key (s : State) (c : Bool) : (s.skipIf c).key = s.key := rfl
@[simp] theorem State.skipIf_lastKey (s : State) (c : Bool) : (s.skipIf c).lastKey = s.lastKey := rfl
@[simp] theorem State.skipIf_drawFlag (s : State) (c : Bool) : (s.skipIf c).drawFlag = s.drawFlag := rfl
@[simp] theorem State.skipIf_fault (s : State) (c : Bool) : (s.skipIf c).fault = s.fault := rfl
@[simp] theorem State.skipIf_clock (s : State) (c : Bool) : (s.skipIf c).clock = s.clock := rfl
@[simp] theorem State.skipIf_draws (s : State) (c : Bool) : (s.skipIf c).draws = s.draws := rfl
@[simp] theorem State.skipIf_log (s : State) (c : Bool) : (s.skipIf c).log = s.log := rfl
@[simp] theorem State.getV_skipIf (s : State) (c : Bool) (z : Reg) : (s.skipIf c).getV z = s.getV z := rfl
@[simp] theorem State.getR_skipIf (s : State) (c : Bool) (z : Reg) : (s.skipIf c).getR z = s.getR z := rfl
@[simp] theorem State.slot_skipIf (s : State) (c : Bool) (k : Fin 16) : (s.skipIf c).slot k = s.slot k := rfl
@[simp] theorem State.pressed_skipIf (s : State) (c : Bool) (k : Key) : (s.skipIf c).pressed k = s.pressed k := rfl

/-! `State.push`. -/

@[simp] theorem State.push_v (s : State) (w : Word) : (s.push w).v = s.v := rfl
@[simp] theorem State.push_r (s : State) (w : Word) : (s.push w).r = s.r := rfl
@[simp] theorem State.push_i (s : State) (w : Word) : (s.push w).i = s.i := rfl
@[simp] theorem State.push_pc (s : State) (w : Word) : (s.push w).pc = s.pc := rfl
@[simp] theorem State.push_sp (s : State) (w : Word) : (s.push w).sp = s.sp + 1 := rfl
@[simp] theorem State.push_stack (s : State) (w : Word) : (s.push w).stack = s.stack.set s.sp.val w := rfl
@[simp] theorem State.push_mem (s : State) (w : Word) : (s.push w).mem = s.mem := rfl
@[simp] theorem State.push_gfx (s : State) (w : Word) : (s.push w).gfx = s.gfx := rfl
@[simp] theorem State.push_hgr (s : State) (w : Word) : (s.push w).hgr = s.hgr := rfl
@[simp] theorem State.push_dtArmed (s : State) (w : Word) : (s.push w).dtArmed = s.dtArmed := rfl
@[simp] theorem State.push_dtStart (s : State) (w : Word) : (s.push w).dtStart = s.dtStart := rfl
@[simp] theorem State.push_stArmed (s : State) (w : Word) : (s.push w).stArmed = s.stArmed := rfl
@[simp] theorem State.push_stStart (s : State) (w : Word) : (s.push w).stStart = s.stStart := rfl
@[simp] theorem State.push_key (s : State) (w : Word) : (s.push w).key = s.key := rfl
@[simp] theorem State.push_lastKey (s : State) (w : Word) : (s.push w).lastKey = s.lastKey := rfl
@[simp] theorem State.push_drawFlag (s : State) (w : Word) : (s.push w).drawFlag = s.drawFlag := rfl
@[simp] theorem State.push_fault (s : State) (w : Word) : (s.push w).fault = s.fault := rfl
@[simp] theorem State.push_clock (s : State) (w : Word) : (s.push w).clock = s.clock := rfl
@[simp] theorem State.push_draws (s : State) (w : Word) : (s.push w).draws = s.draws := rfl
@[simp] theorem State.push_log (s : State) (w : Word) : (s.push w).log = s.log := rfl
@[simp] theorem State.getV_push (s : State) (w : Word) (z : Reg) : (s.push w).getV z = s.getV z := rfl
@[simp] theorem State.getR_push (s : State) (w : Word) (z : Reg) : (s.push w).getR z = s.getR z := rfl
@[simp] theorem State.pressed_push (s : State) (w : Word) (k : Key) : (s.push w).pressed k = s.pressed k := rfl

/-! `State.pop`. -/

@[simp] theorem State.pop_v (s : State) : (s.pop).v = s.v := rfl
@[simp] theorem State.pop_r (s : State) : (s.pop).r = s.r := rfl
@[simp] theorem State.pop_i (s : State) : (s.pop).i = s.i := rfl
@[simp] theorem State.pop_pc (s : State) : (s.pop).pc = s.pc := rfl
@[simp] theorem State.pop_sp (s : State) : (s.pop).sp = s.sp - 1 := rfl
@[simp] theorem State.pop_stack (s : State) : (s.pop).stack = s.stack := rfl
@[simp] theorem State.pop_mem (s : State) : (s.pop).mem = s.mem := rfl
@[simp] theorem State.pop_gfx (s : State) : (s.pop).gfx = s.gfx := rfl
@[simp] theorem State.pop_hgr (s : State) : (s.pop).hgr = s.hgr := rfl
@[simp] theorem State.pop_dtArmed (s : State) : (s.pop).dtArmed = s.dtArmed := rfl
@[simp] theorem State.pop_dtStart (s : State) : (s.pop).dtStart = s.dtStart := rfl
@[simp] theorem State.pop_stArmed (s : State) : (s.pop).stArmed = s.stArmed := rfl
@[simp] theorem State.pop_stStart (s : State) : (s.pop).stStart = s.stStart := rfl
@[simp] theorem State.pop_key (s : State) : (s.pop).key = s.key := rfl
@[simp] theorem State.pop_lastKey (s : State) : (s.pop).lastKey = s.lastKey := rfl
@[simp] theorem State.pop_drawFlag (s : State) : (s.pop).drawFlag = s.drawFlag := rfl
@[simp] theorem State.pop_fault (s : State) : (s.pop).fault = s.fault := rfl
@[simp] theorem State.pop_clock (s : State) : (s.pop).clock = s.clock := rfl
@[simp] theorem State.pop_draws (s : State) : (s.pop).draws = s.draws := rfl
@[simp] theorem State.pop_log (s : State) : (s.pop).log = s.log := rfl
@[simp] theorem State.getV_pop (s : State) (z : Reg) : (s.pop).getV z = s.getV z := rfl
@[simp] theorem State.getR_pop (s : State) (z : Reg) : (s.pop).getR z = s.getR z := rfl
@[simp] theorem State.slot_pop (s : State) (k : Fin 16) : (s.pop).slot k = s.slot k := rfl
@[simp] theorem State.pressed_pop (s : State) (k : Key) : (s.pop).pressed k = s.pressed k := rfl

/-! `State.setMem`. -/

@[simp] theorem State.setMem_v (s : State) (m : Memory) : (s.setMem m).v = s.v := rfl
@[simp] theorem State.setMem_r (s : State) (m : Memory) : (s.setMem m).r = s.r := rfl
@[simp] theorem State.setMem_i (s : State) (m : Memory) : (s.setMem m).i = s.i := rfl
@[simp] theorem State.setMem_pc (s : State) (m : Memory) : (s.setMem m).pc = s.pc := rfl
@[simp] theorem State.setMem_sp (s : State) (m : Memory) : (s.setMem m).sp = s.sp := rfl
@[simp] theorem State.setMem_stack (s : State) (m : Memory) : (s.setMem m).stack = s.stack := rfl
@[simp] theorem State.setMem_mem (s : State) (m : Memory) : (s.setMem m).mem = m := rfl
@[simp] theorem State.setMem_gfx (s : State) (m : Memory) : (s.setMem m).gfx = s.gfx := rfl
@[simp] theorem State.setMem_hgr (s : State) (m : Memory) : (s.setMem m).hgr = s.hgr := rfl
@[simp] theorem State.setMem_dtArmed (s : State) (m : Memory) : (s.setMem m).dtArmed = s.dtArmed := rfl
@[simp] theorem State.setMem_dtStart (s : State) (m : Memory) : (s.setMem m).dtStart = s.dtStart := rfl
@[simp] theorem State.setMem_stArmed (s : State) (m : Memory) : (s.setMem m).stArmed = s.stArmed := rfl
@[simp] theorem State.setMem_stStart (s : State) (m : Memory) : (s.setMem m).stStart = s.stStart := rfl
@[simp] theorem State.setMem_key (s : State) (m : Memory) : (s.setMem m).key = s.key := rfl
@[simp] theorem State.setMem_lastKey (s : State) (m : Memory) : (s.setMem m).lastKey = s.lastKey := rfl
@[simp] theorem State.setMem_drawFlag (s : State) (m : Memory) : (s.setMem m).drawFlag = s.drawFlag := rfl
@[simp] theorem State.setMem_fault (s : State) (m : Memory) : (s.setMem m).fault = s.fault := rfl
@[simp] theorem State.setMem_clock (s : State) (m : Memory) : (s.setMem m).clock = s.clock := rfl
@[simp] theorem State.setMem_draws (s : State) (m : Memory) : (s.setMem m).draws = s.draws := rfl
@[simp] theorem State.setMem_log (s : State) (m : Memory) : (s.setMem m).log = s.log := rfl
@[simp] theorem State.getV_setMem (s : State) (m : Memory) (z : Reg) : (s.setMem m).getV z = s.getV z := rfl
@[simp] theorem State.getR_setMem (s : State) (m : Memory) (z : Reg) : (s.setMem m).getR z = s.getR z := rfl
@[simp] theorem State.slot_setMem (s : State) (m : Memory) (k : Fin 16) : (s.setMem m).slot k = s.slot k := rfl
@[simp] theorem State.pressed_setMem (s : State) (m : Memory) (k : Key) : (s.setMem m).pressed k = s.pressed k := rfl

/-! `State.setGfx`. -/

@[simp] theorem State.setGfx_v (s : State) (g : Gfx) : (s.setGfx g).v = s.v := rfl
@[simp] theorem State.setGfx_r (s : State) (g : Gfx) : (s.setGfx g).r = s.r := rfl
@[simp] theorem State.setGfx_i (s : State) (g : Gfx) : (s.setGfx g).i = s.i := rfl
@[simp] theorem State.setGfx_pc (s : State) (g : Gfx) : (s.setGfx g).pc = s.pc := rfl
@[simp] theorem State.setGfx_sp (s : State) (g : Gfx) : (s.setGfx g).sp = s.sp := rfl
@[simp] theorem State.setGfx_stack (s : State) (g : Gfx) : (s.setGfx g).stack = s.stack := rfl
@[simp] theorem State.setGfx_mem (s : State) (g : Gfx) : (s.setGfx g).mem = s.mem := rfl
@[simp] theorem State.setGfx_gfx (s : State) (g : Gfx) : (s.setGfx g).gfx = g := rfl
@[simp] theorem State.setGfx_hgr (s : State) (g : Gfx) : (s.setGfx g).hgr = s.hgr := rfl
@[simp] theorem State.setGfx_dtArmed (s : State) (g : Gfx) : (s.setGfx g).dtArmed = s.dtArmed := rfl
@[simp] theorem State.setGfx_dtStart (s : State) (g : Gfx) : (s.setGfx g).dtStart = s.dtStart := rfl
@[simp] theorem State.setGfx_stArmed (s : State) (g : Gfx) : (s.setGfx g).stArmed = s.stArmed := rfl
@[simp] theorem State.setGfx_stStart (s : State) (g : Gfx) : (s.setGfx g).stStart = s.stStart := rfl
@[simp] theorem State.setGfx_key (s : State) (g : Gfx) : (s.setGfx g).key = s.key := rfl
@[simp] theorem State.setGfx_lastKey (s : State) (g : Gfx) : (s.setGfx g).lastKey = s.lastKey := rfl
@[simp] theorem State.setGfx_drawFlag (s : State) (g : Gfx) : (s.setGfx g).drawFlag = s.drawFlag := rfl
@[simp] theorem State.setGfx_fault (s : State) (g : Gfx) : (s.setGfx g).fault = s.fault := rfl
@[simp] theorem State.setGfx_clock (s : State) (g : Gfx) : (s.setGfx g).clock = s.clock := rfl
@[simp] theorem State.setGfx_draws (s : State) (g : Gfx) : (s.setGfx g).draws = s.draws := rfl
@[simp] theorem State.setGfx_log (s : State) (g : Gfx) : (s.setGfx g).log = s.log := rfl
@[simp] theorem State.getV_setGfx (s : State) (g : Gfx) (z : Reg) : (s.setGfx g).getV z = s.getV z := rfl
@[simp] theorem State.getR_setGfx (s : State) (g : Gfx) (z : Reg) : (s.setGfx g).getR z = s.getR z := rfl
@[simp] theorem State.slot_setGfx (s : State) (g : Gfx) (k : Fin 16) : (s.setGfx g).slot k = s.slot k := rfl
@[simp] theorem State.pressed_setGfx (s : State) (g : Gfx) (k : Key) : (s.setGfx g).pressed k = s.pressed k := rfl

/-! `State.setHgr`. -/

@[simp] theorem State.setHgr_v (s : State) (b : Bool) : (s.setHgr b).v = s.v := rfl
@[simp] theorem State.setHgr_r (s : State) (b : Bool) : (s.setHgr b).r = s.r := rfl
@[simp] theorem State.setHgr_i (s : State) (b : Bool) : (s.setHgr b).i = s.i := rfl
@[simp] theorem State.setHgr_pc (s : State) (b : Bool) : (s.setHgr b).pc = s.pc := rfl
@[simp] theorem State.setHgr_sp (s : State) (b : Bool) : (s.setHgr b).sp = s.sp := rfl
@[simp] theorem State.setHgr_stack (s : State) (b : Bool) : (s.setHgr b).stack = s.stack := rfl
@[simp] theorem State.setHgr_mem (s : State) (b : Bool) : (s.setHgr b).mem = s.mem := rfl
@[simp] theorem State.setHgr_gfx (s : State) (b : Bool) : (s.setHgr b).gfx = s.gfx := rfl
@[simp] theorem State.setHgr_hgr (s : State) (b : Bool) : (s.setHgr b).hgr = b := rfl
@[simp] theorem State.setHgr_dtArmed (s : State) (b : Bool) : (s.setHgr b).dtArmed = s.dtArmed := rfl
@[simp] theorem State.setHgr_dtStart (s : State) (b : Bool) : (s.setHgr b).dtStart = s.dtStart := rfl
@[simp] theorem State.setHgr_stArmed (s : State) (b : Bool) : (s.setHgr b).stArmed = s.stArmed := rfl
@[simp] theorem State.setHgr_stStart (s : State) (b : Bool) : (s.setHgr b).stStart = s.stStart := rfl
@[simp] theorem State.setHgr_key (s : State) (b : Bool) : (s.setHgr b).key = s.key := rfl
@[simp] theorem State.setHgr_lastKey (s : State) (b : Bool) : (s.setHgr b).lastKey = s.lastKey := rfl
@[simp] theorem State.setHgr_drawFlag (s : State) (b : Bool) : (s.setHgr b).drawFlag = s.drawFlag := rfl
@[simp] theorem State.setHgr_fault (s : State) (b : Bool) : (s.setHgr b).fault = s.fault := rfl
@[simp] theorem State.setHgr_clock (s : State) (b : Bool) : (s.setHgr b).clock = s.clock := rfl
@[simp] theorem State.setHgr_draws (s : State) (b : Bool) : (s.setHgr b).draws = s.draws := rfl
@[simp] theorem State.setHgr_log (s : State) (b : Bool) : (s.setHgr b).log = s.log := rfl
@[simp] theorem State.getV_setHgr (s : State) (b : Bool) (z : Reg) : (s.setHgr b).getV z = s.getV z := rfl
@[simp] theorem State.getR_setHgr (s : State) (b : Bool) (z : Reg) : (s.setHgr b).getR z = s.getR z := rfl
@[simp] theorem State.slot_setHgr (s : State) (b : Bool) (k : Fin 16) : (s.setHgr b).slot k = s.slot k := rfl
@[simp] theorem State.pressed_setHgr (s : State) (b : Bool) (k : Key) : (s.setHgr b).pressed k = s.pressed k := rfl

/-! `State.markDrawn`. -/

@[simp] theorem State.markDrawn_v (s : State) : (s.markDrawn).v = s.v := rfl
@[simp] theorem State.markDrawn_r (s : State) : (s.markDrawn).r = s.r := rfl
@[simp] theorem State.markDrawn_i (s : State) : (s.markDrawn).i = s.i := rfl
@[simp] theorem State.markDrawn_pc (s : State) : (s.markDrawn).pc = s.pc := rfl
@[simp] theorem State.markDrawn_sp (s : State) : (s.markDrawn).sp = s.sp := rfl
@[simp] theorem State.markDrawn_stack (s : State) : (s.markDrawn).stack = s.stack := rfl
@[simp] theorem State.markDrawn_mem (s : State) : (s.markDrawn).mem = s.mem := rfl
@[simp] theorem State.markDrawn_gfx (s : State) : (s.markDrawn).gfx = s.gfx := rfl
@[simp] theorem State.markDrawn_hgr (s : State) : (s.markDrawn).hgr = s.hgr := rfl
@[simp] theorem State.markDrawn_dtArmed (s : State) : (s.markDrawn).dtArmed = s.dtArmed := rfl
@[simp] theorem State.markDrawn_dtStart (s : State) : (s.markDrawn).dtStart = s.dtStart := rfl
@[simp] theorem State.markDrawn_stArmed (s : State) : (s.markDrawn).stArmed = s.stArmed := rfl
@[simp] theorem State.markDrawn_stStart (s : State) : (s.markDrawn).stStart = s.stStart := rfl
@[simp] theorem State.markDrawn_key (s : State) : (s.markDrawn).key = s.key := rfl
@[simp] theorem State.markDrawn_lastKey (s : State) : (s.markDrawn).lastKey = s.lastKey := rfl
@[simp] theorem State.markDrawn_drawFlag (s : State) : (s.markDrawn).drawFlag = true := rfl
@[simp] theorem State.markDrawn_fault (s : State) : (s.markDrawn).fault = s.fault := rfl
@[simp] theorem State.markDrawn_clock (s : State) : (s.markDrawn).clock = s.clock := rfl
@[simp] theorem State.markDrawn_draws (s : State) : (s.markDrawn).draws = s.draws := rfl
@[simp] theorem State.markDrawn_log (s : State) : (s.markDrawn).log = s.log := rfl
@[simp] theorem State.getV_markDrawn (s : State) (z : Reg) : (s.markDrawn).getV z = s.getV z := rfl
@[simp] theorem State.getR_markDrawn (s : State) (z : Reg) : (s.markDrawn).getR z = s.getR z := rfl
@[simp] theorem State.slot_markDrawn (s : State) (k : Fin 16) : (s.markDrawn).slot k = s.slot k := rfl
@[simp] theorem State.pressed_markDrawn (s : State) (k : Key) : (s.markDrawn).pressed k = s.pressed k := rfl

/-! `State.armDelay`. -/

@[simp] theorem State.armDelay_v (s : State) (b : Byte) (now : Nat) : (s.armDelay b now).v = s.v := rfl
@[simp] theorem State.armDelay_r (s : State) (b : Byte) (now : Nat) : (s.armDelay b now).r = s.r := rfl
@[simp] theorem State.armDelay_i (s : State) (b : Byte) (now : Nat) : (s.armDelay b now).i = s.i := rfl
@[simp] theorem State.armDelay_pc (s : State) (b : Byte) (now : Nat) : (s.armDelay b now).pc = s.pc := rfl
@[simp] theorem State.armDelay_sp (s : State) (b : Byte) (now : Nat) : (s.armDelay b now).sp = s.sp := rfl
@[simp] theorem State.armDelay_stack (s : State) (b : Byte) (now : Nat) : (s.armDelay b now).stack = s.stack := rfl
@[simp] theorem State.armDelay_mem (s : State) (b : Byte) (now : Nat) : (s.armDelay b now).mem = s.mem := rfl
@[simp] theorem State.armDelay_gfx (s : State) (b : Byte) (now : Nat) : (s.armDelay b now).gfx = s.gfx := rfl
@[simp] theorem State.armDelay_hgr (s : State) (b : Byte) (now : Nat) : (s.armDelay b now).hgr = s.hgr := rfl
@[simp] theorem State.armDelay_dtArmed (s : State) (b : Byte) (now : Nat) : (s.armDelay b now).dtArmed = b := rfl
@[simp] theorem State.armDelay_dtStart (s : State) (b : Byte) (now : Nat) : (s.armDelay b now).dtStart = some now := rfl
@[simp] theorem State.armDelay_stArmed (s : State) (b : Byte) (now : Nat) : (s.armDelay b now).stArmed = s.stArmed := rfl
@[simp] theorem State.armDelay_stStart (s : State) (b : Byte) (now : Nat) : (s.armDelay b now).stStart = s.stStart := rfl
@[simp] theorem State.armDelay_key (s : State) (b : Byte) (now : Nat) : (s.armDelay b now).key = s.key := rfl
@[simp] theorem State.armDelay_lastKey (s : State) (b : Byte) (now : Nat) : (s.armDelay b now).lastKey = s.lastKey := rfl
@[simp] theorem State.armDelay_drawFlag (s : State) (b : Byte) (now : Nat) : (s.armDelay b now).drawFlag = s.drawFlag := rfl
@[simp] theorem State.armDelay_fault (s : State) (b : Byte) (now : Nat) : (s.armDelay b now).fault = s.fault := rfl
@[simp] theorem State.armDelay_clock (s : State) (b : Byte) (now : Nat) : (s.armDelay b now).clock = s.clock := rfl
@[simp] theorem State.armDelay_draws (s : State) (b : Byte) (now : Nat) : (s.armDelay b now).draws = s.draws := rfl
@[simp] theorem State.armDelay_log (s : State) (b : Byte) (now : Nat) : (s.armDelay b now).log = s.log := rfl
@[simp] theorem State.getV_armDelay (s : State) (b : Byte) (now : Nat) (z : Reg) : (s.armDelay b now).getV z = s.getV z := rfl
@[simp] theorem State.getR_armDelay (s : State) (b : Byte) (now : Nat) (z : Reg) : (s.armDelay b now).getR z = s.getR z := rfl
@[simp] theorem State.slot_armDelay (s : State) (b : Byte) (now : Nat) (k : Fin 16) : (s.armDelay b now).slot k = s.slot k := rfl
@[simp] theorem State.pressed_armDelay (s : State) (b : Byte) (now : Nat) (k : Key) : (s.armDelay b now).pressed k = s.pressed k := rfl

/-! `State.armSound`. -/

@[simp] theorem State.armSound_v (s : State) (b : Byte) (now : Nat) : (s.armSound b now).v = s.v := rfl
@[simp] theorem State.armSound_r (s : State) (b : Byte) (now : Nat) : (s.armSound b now).r = s.r := rfl
@[simp] theorem State.armSound_i (s : State) (b : Byte) (now : Nat) : (s.armSound b now).i = s.i := rfl
@[simp] theorem State.armSound_pc (s : State) (b : Byte) (now : Nat) : (s.armSound b now).pc = s.pc := rfl
@[simp] theorem State.armSound_sp (s : State) (b : Byte) (now : Nat) : (s.armSound b now).sp = s.sp := rfl
@[simp] theorem State.armSound_stack (s : State) (b : Byte) (now : Nat) : (s.armSound b now).stack = s.stack := rfl
@[simp] theorem State.armSound_mem (s : State) (b : Byte) (now : Nat) : (s.armSound b now).mem = s.mem := rfl
@[simp] theorem State.armSound_gfx (s : State) (b : Byte) (now : Nat) : (s.armSound b now).gfx = s.gfx := rfl
@[simp] theorem State.armSound_hgr (s : State) (b : Byte) (now : Nat) : (s.armSound b now).hgr = s.hgr := rfl
@[simp] theorem State.armSound_dtArmed (s : State) (b : Byte) (now : Nat) : (s.armSound b now).dtArmed = s.dtArmed := rfl
@[simp] theorem State.armSound_dtStart (s : State) (b : Byte) (now : Nat) : (s.armSound b now).dtStart = s.dtStart := rfl
@[simp] theorem State.armSound_stArmed (s : State) (b : Byte) (now : Nat) : (s.armSound b now).stArmed = b := rfl
@[simp] theorem State.armSound_stStart (s : State) (b : Byte) (now : Nat) : (s.armSound b now).stStart = some now := rfl
@[simp] theorem State.armSound_key (s : State) (b : Byte) (now : Nat) : (s.armSound b now).key = s.key := rfl
@[simp] theorem State.armSound_lastKey (s : State) (b : Byte) (now : Nat) : (s.armSound b now).lastKey = s.lastKey := rfl
@[simp] theorem State.armSound_drawFlag (s : State) (b : Byte) (now : Nat) : (s.armSound b now).drawFlag = s.drawFlag := rfl
@[simp] theorem State.armSound_fault (s : State) (b : Byte) (now : Nat) : (s.armSound b now).fault = s.fault := rfl
@[simp] theorem State.armSound_clock (s : State) (b : Byte) (now : Nat) : (s.armSound b now).clock = s.clock := rfl
@[simp] theorem State.armSound_draws (s : State) (b : Byte) (now : Nat) : (s.armSound b now).draws = s.draws := rfl
@[simp] theorem State.armSound_log (s : State) (b : Byte) (now : Nat) : (s.armSound b now).log = s.log := rfl
@[simp] theorem State.getV_armSound (s : State) (b : Byte) (now : Nat) (z : Reg) : (s.armSound b now).getV z = s.getV z := rfl
@[simp] theorem State.getR_armSound (s : State) (b : Byte) (now : Nat) (z : Reg) : (s.armSound b now).getR z = s.getR z := rfl
@[simp] theorem State.slot_armSound (s : State) (b : Byte) (now : Nat) (k : Fin 16) : (s.armSound b now).slot k = s.slot k := rfl
@[simp] theorem State.pressed_armSound (s : State) (b : Byte) (now : Nat) (k : Key) : (s.armSound b now).pressed k = s.pressed k := rfl

/-! `State.emit`. -/

@[simp] theorem State.emit_v (s : State) (c : LogCode) (w : Word) : (s.emit c w).v = s.v := rfl
@[simp] theorem State.emit_r (s : State) (c : LogCode) (w : Word) : (s.emit c w).r = s.r := rfl
@[simp] theorem State.emit_i (s : State) (c : LogCode) (w : Word) : (s.emit c w).i = s.i := rfl
@[simp] theorem State.emit_pc (s : State) (c : LogCode) (w : Word) : (s.emit c w).pc = s.pc := rfl
@[simp] theorem State.emit_sp (s : State) (c : LogCode) (w : Word) : (s.emit c w).sp = s.sp := rfl
@[simp] theorem State.emit_stack (s : State) (c : LogCode) (w : Word) : (s.emit c w).stack = s.stack := rfl
@[simp] theorem State.emit_mem (s : State) (c : LogCode) (w : Word) : (s.emit c w).mem = s.mem := rfl
@[simp] theorem State.emit_gfx (s : State) (c : LogCode) (w : Word) : (s.emit c w).gfx = s.gfx := rfl
@[simp] theorem State.emit_hgr (s : State) (c : LogCode) (w : Word) : (s.emit c w).hgr = s.hgr := rfl
@[simp] theorem State.emit_dtArmed (s : State) (c : LogCode) (w : Word) : (s.emit c w).dtArmed = s.dtArmed := rfl
@[simp] theorem State.emit_dtStart (s : State) (c : LogCode) (w : Word) : (s.emit c w).dtStart = s.dtStart := rfl
@[simp] theorem State.emit_stArmed (s : State) (c : LogCode) (w : Word) : (s.emit c w).stArmed = s.stArmed := rfl
@[simp] theorem State.emit_stStart (s : State) (c : LogCode) (w : Word) : (s.emit c w).stStart = s.stStart := rfl
@[simp] theorem State.emit_key (s : State) (c : LogCode) (w : Word) : (s.emit c w).key = s.key := rfl
@[simp] theorem State.emit_lastKey (s : State) (c : LogCode) (w : Word) : (s.emit c w).lastKey = s.lastKey := rfl
@[simp] theorem State.emit_drawFlag (s : State) (c : LogCode) (w : Word) : (s.emit c w).drawFlag = s.drawFlag := rfl
@[simp] theorem State.emit_fault (s : State) (c : LogCode) (w : Word) : (s.emit c w).fault = s.fault := rfl
@[simp] theorem State.emit_clock (s : State) (c : LogCode) (w : Word) : (s.emit c w).clock = s.clock := rfl
@[simp] theorem State.emit_draws (s : State) (c : LogCode) (w : Word) : (s.emit c w).draws = s.draws := rfl
@[simp] theorem State.emit_log (s : State) (c : LogCode) (w : Word) : (s.emit c w).log = s.log ++ [⟨c, w⟩] := rfl
@[simp] theorem State.getV_emit (s : State) (c : LogCode) (w : Word) (z : Reg) : (s.emit c w).getV z = s.getV z := rfl
@[simp] theorem State.getR_emit (s : State) (c : LogCode) (w : Word) (z : Reg) : (s.emit c w).getR z = s.getR z := rfl
@[simp] theorem State.slot_emit (s : State) (c : LogCode) (w : Word) (k : Fin 16) : (s.emit c w).slot k = s.slot k := rfl
@[simp] theorem State.pressed_emit (s : State) (c : LogCode) (w : Word) (k : Key) : (s.emit c w).pressed k = s.pressed k := rfl

/-! `State.drewRnd`. -/

@[simp] theorem State.drewRnd_v (s : State) : (s.drewRnd).v = s.v := rfl
@[simp] theorem State.drewRnd_r (s : State) : (s.drewRnd).r = s.r := rfl
@[simp] theorem State.drewRnd_i (s : State) : (s.drewRnd).i = s.i := rfl
@[simp] theorem State.drewRnd_pc (s : State) : (s.drewRnd).pc = s.pc := rfl
@[simp] theorem State.drewRnd_sp (s : State) : (s.drewRnd).sp = s.sp := rfl
@[simp] theorem State.drewRnd_stack (s : State) : (s.drewRnd).stack = s.stack := rfl
@[simp] theorem State.drewRnd_mem (s : State) : (s.drewRnd).mem = s.mem := rfl
@[simp] theorem State.drewRnd_gfx (s : State) : (s.drewRnd).gfx = s.gfx := rfl
@[simp] theorem State.drewRnd_hgr (s : State) : (s.drewRnd).hgr = s.hgr := rfl
@[simp] theorem State.drewRnd_dtArmed (s : State) : (s.drewRnd).dtArmed = s.dtArmed := rfl
@[simp] theorem State.drewRnd_dtStart (s : State) : (s.drewRnd).dtStart = s.dtStart := rfl
@[simp] theorem State.drewRnd_stArmed (s : State) : (s.drewRnd).stArmed = s.stArmed := rfl
@[simp] theorem State.drewRnd_stStart (s : State) : (s.drewRnd).stStart = s.stStart := rfl
@[simp] theorem State.drewRnd_key (s : State) : (s.drewRnd).key = s.key := rfl
@[simp] theorem State.drewRnd_lastKey (s : State) : (s.drewRnd).lastKey = s.lastKey := rfl
@[simp] theorem State.drewRnd_drawFlag (s : State) : (s.drewRnd).drawFlag = s.drawFlag := rfl
@[simp] theorem State.drewRnd_fault (s : State) : (s.drewRnd).fault = s.fault := rfl
@[simp] theorem State.drewRnd_clock (s : State) : (s.drewRnd).clock = s.clock := rfl
@[simp] theorem State.drewRnd_draws (s : State) : (s.drewRnd).draws = s.draws + 1 := rfl
@[simp] theorem State.drewRnd_log (s : State) : (s.drewRnd).log = s.log := rfl
@[simp] theorem State.getV_drewRnd (s : State) (z : Reg) : (s.drewRnd).getV z = s.getV z := rfl
@[simp] theorem State.getR_drewRnd (s : State) (z : Reg) : (s.drewRnd).getR z = s.getR z := rfl
@[simp] theorem State.slot_drewRnd (s : State) (k : Fin 16) : (s.drewRnd).slot k = s.slot k := rfl
@[simp] theorem State.pressed_drewRnd (s : State) (k : Key) : (s.drewRnd).pressed k = s.pressed k := rfl

/-! `State.sampledAt`. -/

@[simp] theorem State.sampledAt_v (s : State) (now : Nat) : (s.sampledAt now).v = s.v := rfl
@[simp] theorem State.sampledAt_r (s : State) (now : Nat) : (s.sampledAt now).r = s.r := rfl
@[simp] theorem State.sampledAt_i (s : State) (now : Nat) : (s.sampledAt now).i = s.i := rfl
@[simp] theorem State.sampledAt_pc (s : State) (now : Nat) : (s.sampledAt now).pc = s.pc := rfl
@[simp] theorem State.sampledAt_sp (s : State) (now : Nat) : (s.sampledAt now).sp = s.sp := rfl
@[simp] theorem State.sampledAt_stack (s : State) (now : Nat) : (s.sampledAt now).stack = s.stack := rfl
@[simp] theorem State.sampledAt_mem (s : State) (now : Nat) : (s.sampledAt now).mem = s.mem := rfl
@[simp] theorem State.sampledAt_gfx (s : State) (now : Nat) : (s.sampledAt now).gfx = s.gfx := rfl
@[simp] theorem State.sampledAt_hgr (s : State) (now : Nat) : (s.sampledAt now).hgr = s.hgr := rfl
@[simp] theorem State.sampledAt_dtArmed (s : State) (now : Nat) : (s.sampledAt now).dtArmed = s.dtArmed := rfl
@[simp] theorem State.sampledAt_dtStart (s : State) (now : Nat) : (s.sampledAt now).dtStart = s.dtStart := rfl
@[simp] theorem State.sampledAt_stArmed (s : State) (now : Nat) : (s.sampledAt now).stArmed = s.stArmed := rfl
@[simp] theorem State.sampledAt_stStart (s : State) (now : Nat) : (s.sampledAt now).stStart = s.stStart := rfl
@[simp] theorem State.sampledAt_key (s : State) (now : Nat) : (s.sampledAt now).key = s.key := rfl
@[simp] theorem State.sampledAt_lastKey (s : State) (now : Nat) : (s.sampledAt now).lastKey = s.lastKey := rfl
@[simp] theorem State.sampledAt_drawFlag (s : State) (now : Nat) : (s.sampledAt now).drawFlag = s.drawFlag := rfl
@[simp] theorem State.sampledAt_fault (s : State) (now : Nat) : (s.sampledAt now).fault = s.fault := rfl
@[simp] theorem State.sampledAt_clock (s : State) (now : Nat) : (s.sampledAt now).clock = now := rfl
@[simp] theorem State.sampledAt_draws (s : State) (now : Nat) : (s.sampledAt now).draws = s.draws + 1 := rfl
@[simp] theorem State.sampledAt_log (s : State) (now : Nat) : (s.sampledAt now).log = s.log := rfl
@[simp] theorem State.getV_sampledAt (s : State) (now : Nat) (z : Reg) : (s.sampledAt now).getV z = s.getV z := rfl
@[simp] theorem State.getR_sampledAt (s : State) (now : Nat) (z : Reg) : (s.sampledAt now).getR z = s.getR z := rfl
@[simp] theorem State.slot_sampledAt (s : State) (now : Nat) (k : Fin 16) : (s.sampledAt now).slot k = s.slot k := rfl
@[simp] theorem State.pressed_sampledAt (s : State) (now : Nat) (k : Key) : (s.sampledAt now).pressed k = s.pressed k := rfl

/-! `State.raise`. -/

@[simp] theorem State.raise_v (s : State) (c : FaultCause) (op : Word) (n : Nat) : (s.raise c op n).v = s.v := rfl
@[simp] theorem State.raise_r (s : State) (c : FaultCause) (op : Word) (n : Nat) : (s.raise c op n).r = s.r := rfl
@[simp] theorem State.raise_i (s : State) (c : FaultCause) (op : Word) (n : Nat) : (s.raise c op n).i = s.i := rfl
@[simp] theorem State.raise_pc (s : State) (c : FaultCause) (op : Word) (n : Nat) : (s.raise c op n).pc = s.pc := rfl
@[simp] theorem State.raise_sp (s : State) (c : FaultCause) (op : Word) (n : Nat) : (s.raise c op n).sp = s.sp := rfl
@[simp] theorem State.raise_stack (s : State) (c : FaultCause) (op : Word) (n : Nat) : (s.raise c op n).stack = s.stack := rfl
@[simp] theorem State.raise_mem (s : State) (c : FaultCause) (op : Word) (n : Nat) : (s.raise c op n).mem = s.mem := rfl
@[simp] theorem State.raise_gfx (s : State) (c : FaultCause) (op : Word) (n : Nat) : (s.raise c op n).gfx = s.gfx := rfl
@[simp] theorem State.raise_hgr (s : State) (c : FaultCause) (op : Word) (n : Nat) : (s.raise c op n).hgr = s.hgr := rfl
@[simp] theorem State.raise_dtArmed (s : State) (c : FaultCause) (op : Word) (n : Nat) : (s.raise c op n).dtArmed = s.dtArmed := rfl
@[simp] theorem State.raise_dtStart (s : State) (c : FaultCause) (op : Word) (n : Nat) : (s.raise c op n).dtStart = s.dtStart := rfl
@[simp] theorem State.raise_stArmed (s : State) (c : FaultCause) (op : Word) (n : Nat) : (s.raise c op n).stArmed = s.stArmed := rfl
@[simp] theorem State.raise_stStart (s : State) (c : FaultCause) (op : Word) (n : Nat) : (s.raise c op n).stStart = s.stStart := rfl
@[simp] theorem State.raise_key (s : State) (c : FaultCause) (op : Word) (n : Nat) : (s.raise c op n).key = s.key := rfl
@[simp] theorem State.raise_lastKey (s : State) (c : FaultCause) (op : Word) (n : Nat) : (s.raise c op n).lastKey = s.lastKey := rfl
@[simp] theorem State.raise_drawFlag (s : State) (c : FaultCause) (op : Word) (n : Nat) : (s.raise c op n).drawFlag = s.drawFlag := rfl
@[simp] theorem State.raise_fault (s : State) (c : FaultCause) (op : Word) (n : Nat) : (s.raise c op n).fault = some ⟨c, s.pc, op, BitVec.ofNat 16 n⟩ := rfl
@[simp] theorem State.raise_clock (s : State) (c : FaultCause) (op : Word) (n : Nat) : (s.raise c op n).clock = s.clock := rfl
@[simp] theorem State.raise_draws (s : State) (c : FaultCause) (op : Word) (n : Nat) : (s.raise c op n).draws = s.draws := rfl
@[simp] theorem State.raise_log (s : State) (c : FaultCause) (op : Word) (n : Nat) : (s.raise c op n).log = s.log := rfl
@[simp] theorem State.getV_raise (s : State) (c : FaultCause) (op : Word) (n : Nat) (z : Reg) : (s.raise c op n).getV z = s.getV z := rfl
@[simp] theorem State.getR_raise (s : State) (c : FaultCause) (op : Word) (n : Nat) (z : Reg) : (s.raise c op n).getR z = s.getR z := rfl
@[simp] theorem State.slot_raise (s : State) (c : FaultCause) (op : Word) (n : Nat) (k : Fin 16) : (s.raise c op n).slot k = s.slot k := rfl
@[simp] theorem State.pressed_raise (s : State) (c : FaultCause) (op : Word) (n : Nat) (k : Key) : (s.raise c op n).pressed k = s.pressed k := rfl

/-! `State.finish`. -/

@[simp] theorem State.finish_v (s : State) (x : Reg) (b : Byte) : (s.finish x b).v = s.v.set x.val b := rfl
@[simp] theorem State.finish_r (s : State) (x : Reg) (b : Byte) : (s.finish x b).r = s.r := rfl
@[simp] theorem State.finish_i (s : State) (x : Reg) (b : Byte) : (s.finish x b).i = s.i := rfl
@[simp] theorem State.finish_pc (s : State) (x : Reg) (b : Byte) : (s.finish x b).pc = s.pc + 2 := rfl
@[simp] theorem State.finish_sp (s : State) (x : Reg) (b : Byte) : (s.finish x b).sp = s.sp := rfl
@[simp] theorem State.finish_stack (s : State) (x : Reg) (b : Byte) : (s.finish x b).stack = s.stack := rfl
@[simp] theorem State.finish_mem (s : State) (x : Reg) (b : Byte) : (s.finish x b).mem = s.mem := rfl
@[simp] theorem State.finish_gfx (s : State) (x : Reg) (b : Byte) : (s.finish x b).gfx = s.gfx := rfl
@[simp] theorem State.finish_hgr (s : State) (x : Reg) (b : Byte) : (s.finish x b).hgr = s.hgr := rfl
@[simp] theorem State.finish_dtArmed (s : State) (x : Reg) (b : Byte) : (s.finish x b).dtArmed = s.dtArmed := rfl
@[simp] theorem State.finish_dtStart (s : State) (x : Reg) (b : Byte) : (s.finish x b).dtStart = s.dtStart := rfl
@[simp] theorem State.finish_stArmed (s : State) (x : Reg) (b : Byte) : (s.finish x b).stArmed = s.stArmed := rfl
@[simp] theorem State.finish_stStart (s : State) (x : Reg) (b : Byte) : (s.finish x b).stStart = s.stStart := rfl
@[simp] theorem State.finish_key (s : State) (x : Reg) (b : Byte) : (s.finish x b).key = s.key := rfl
@[simp] theorem State.finish_lastKey (s : State) (x : Reg) (b : Byte) : (s.finish x b).lastKey = s.lastKey := rfl
@[simp] theorem State.finish_drawFlag (s : State) (x : Reg) (b : Byte) : (s.finish x b).drawFlag = s.drawFlag := rfl
@[simp] theorem State.finish_fault (s : State) (x : Reg) (b : Byte) : (s.finish x b).fault = s.fault := rfl
@[simp] theorem State.finish_clock (s : State) (x : Reg) (b : Byte) : (s.finish x b).clock = s.clock := rfl
@[simp] theorem State.finish_draws (s : State) (x : Reg) (b : Byte) : (s.finish x b).draws = s.draws := rfl
@[simp] theorem State.finish_log (s : State) (x : Reg) (b : Byte) : (s.finish x b).log = s.log := rfl
@[simp] theorem State.getR_finish (s : State) (x : Reg) (b : Byte) (z : Reg) : (s.finish x b).getR z = s.getR z := rfl
@[simp] theorem State.slot_finish (s : State) (x : Reg) (b : Byte) (k : Fin 16) : (s.finish x b).slot k = s.slot k := rfl
@[simp] theorem State.pressed_finish (s : State) (x : Reg) (b : Byte) (k : Key) : (s.finish x b).pressed k = s.pressed k := rfl

/-! `State.finishFlag`. -/

@[simp] theorem State.finishFlag_v (s : State) (x : Reg) (b f : Byte) : (s.finishFlag x b f).v = (s.v.set x.val b).set regF.val f := rfl
@[simp] theorem State.finishFlag_r (s : State) (x : Reg) (b f : Byte) : (s.finishFlag x b f).r = s.r := rfl
@[simp] theorem State.finishFlag_i (s : State) (x : Reg) (b f : Byte) : (s.finishFlag x b f).i = s.i := rfl
@[simp] theorem State.finishFlag_pc (s : State) (x : Reg) (b f : Byte) : (s.finishFlag x b f).pc = s.pc + 2 := rfl
@[simp] theorem State.finishFlag_sp (s : State) (x : Reg) (b f : Byte) : (s.finishFlag x b f).sp = s.sp := rfl
@[simp] theorem State.finishFlag_stack (s : State) (x : Reg) (b f : Byte) : (s.finishFlag x b f).stack = s.stack := rfl
@[simp] theorem State.finishFlag_mem (s : State) (x : Reg) (b f : Byte) : (s.finishFlag x b f).mem = s.mem := rfl
@[simp] theorem State.finishFlag_gfx (s : State) (x : Reg) (b f : Byte) : (s.finishFlag x b f).gfx = s.gfx := rfl
@[simp] theorem State.finishFlag_hgr (s : State) (x : Reg) (b f : Byte) : (s.finishFlag x b f).hgr = s.hgr := rfl
@[simp] theorem State.finishFlag_dtArmed (s : State) (x : Reg) (b f : Byte) : (s.finishFlag x b f).dtArmed = s.dtArmed := rfl
@[simp] theorem State.finishFlag_dtStart (s : State) (x : Reg) (b f : Byte) : (s.finishFlag x b f).dtStart = s.dtStart := rfl
@[simp] theorem State.finishFlag_stArmed (s : State) (x : Reg) (b f : Byte) : (s.finishFlag x b f).stArmed = s.stArmed := rfl
@[simp] theorem State.finishFlag_stStart (s : State) (x : Reg) (b f : Byte) : (s.finishFlag x b f).stStart = s.stStart := rfl
@[simp] theorem State.finishFlag_key (s : State) (x : Reg) (b f : Byte) : (s.finishFlag x b f).key = s.key := rfl
@[simp] theorem State.finishFlag_lastKey (s : State) (x : Reg) (b f : Byte) : (s.finishFlag x b f).lastKey = s.lastKey := rfl
@[simp] theorem State.finishFlag_drawFlag (s : State) (x : Reg) (b f : Byte) : (s.finishFlag x b f).drawFlag = s.drawFlag := rfl
@[simp] theorem State.finishFlag_fault (s : State) (x : Reg) (b f : Byte) : (s.finishFlag x b f).fault = s.fault := rfl
@[simp] theorem State.finishFlag_clock (s : State) (x : Reg) (b f : Byte) : (s.finishFlag x b f).clock = s.clock := rfl
@[simp] theorem State.finishFlag_draws (s : State) (x : Reg) (b f : Byte) : (s.finishFlag x b f).draws = s.draws := rfl
@[simp] theorem State.finishFlag_log (s : State) (x : Reg) (b f : Byte) : (s.finishFlag x b f).log = s.log := rfl
@[simp] theorem State.getR_finishFlag (s : State) (x : Reg) (b f : Byte) (z : Reg) : (s.finishFlag x b f).getR z = s.getR z := rfl
@[simp] theorem State.slot_finishFlag (s : State) (x : Reg) (b f : Byte) (k : Fin 16) : (s.finishFlag x b f).slot k = s.slot k := rfl
@[simp] theorem State.pressed_finishFlag (s : State) (x : Reg) (b f : Byte) (k : Key) : (s.finishFlag x b f).pressed k = s.pressed k := rfl

/-! `State.refreshInput`. -/

@[simp] theorem State.refreshInput_v (s : State) (ks : List Key) (k : Option Key) : (s.refreshInput ks k).v = s.v := by simp only [State.refreshInput]
@[simp] theorem State.refreshInput_r (s : State) (ks : List Key) (k : Option Key) : (s.refreshInput ks k).r = s.r := by simp only [State.refreshInput]
@[simp] theorem State.refreshInput_i (s : State) (ks : List Key) (k : Option Key) : (s.refreshInput ks k).i = s.i := by simp only [State.refreshInput]
@[simp] theorem State.refreshInput_pc (s : State) (ks : List Key) (k : Option Key) : (s.refreshInput ks k).pc = s.pc := by simp only [State.refreshInput]
@[simp] theorem State.refreshInput_sp (s : State) (ks : List Key) (k : Option Key) : (s.refreshInput ks k).sp = s.sp := by simp only [State.refreshInput]
@[simp] theorem State.refreshInput_stack (s : State) (ks : List Key) (k : Option Key) : (s.refreshInput ks k).stack = s.stack := by simp only [State.refreshInput]
@[simp] theorem State.refreshInput_mem (s : State) (ks : List Key) (k : Option Key) : (s.refreshInput ks k).mem = s.mem := by simp only [State.refreshInput]
@[simp] theorem State.refreshInput_gfx (s : State) (ks : List Key) (k : Option Key) : (s.refreshInput ks k).gfx = s.gfx := by simp only [State.refreshInput]
@[simp] theorem State.refreshInput_hgr (s : State) (ks : List Key) (k : Option Key) : (s.refreshInput ks k).hgr = s.hgr := by simp only [State.refreshInput]
@[simp] theorem State.refreshInput_dtArmed (s : State) (ks : List Key) (k : Option Key) : (s.refreshInput ks k).dtArmed = s.dtArmed := by simp only [State.refreshInput]
@[simp] theorem State.refreshInput_dtStart (s : State) (ks : List Key) (k : Option Key) : (s.refreshInput ks k).dtStart = s.dtStart := by simp only [State.refreshInput]
@[simp] theorem State.refreshInput_stArmed (s : State) (ks : List Key) (k : Option Key) : (s.refreshInput ks k).stArmed = s.stArmed := by simp only [State.refreshInput]
@[simp] theorem State.refreshInput_stStart (s : State) (ks : List Key) (k : Option Key) : (s.refreshInput ks k).stStart = s.stStart := by simp only [State.refreshInput]
@[simp] theorem State.refreshInput_lastKey (s : State) (ks : List Key) (k : Option Key) : (s.refreshInput ks k).lastKey = k := by simp only [State.refreshInput]
@[simp] theorem State.refreshInput_drawFlag (s : State) (ks : List Key) (k : Option Key) : (s.refreshInput ks k).drawFlag = s.drawFlag := by simp only [State.refreshInput]
@[simp] theorem State.refreshInput_fault (s : State) (ks : List Key) (k : Option Key) : (s.refreshInput ks k).fault = s.fault := by simp only [State.refreshInput]
@[simp] theorem State.refreshInput_clock (s : State) (ks : List Key) (k : Option Key) : (s.refreshInput ks k).clock = s.clock := by simp only [State.refreshInput]
@[simp] theorem State.refreshInput_draws (s : State) (ks : List Key) (k : Option Key) : (s.refreshInput ks k).draws = s.draws := by simp only [State.refreshInput]
@[simp] theorem State.refreshInput_log (s : State) (ks : List Key) (k : Option Key) : (s.refreshInput ks k).log = s.log := by simp only [State.refreshInput]
@[simp] theorem State.getV_refreshInput (s : State) (ks : List Key) (k : Option Key) (z : Reg) : (s.refreshInput ks k).getV z = s.getV z := by simp only [State.getV, State.refreshInput]
@[simp] theorem State.getR_refreshInput (s : State) (ks : List Key) (k : Option Key) (z : Reg) : (s.refreshInput ks k).getR z = s.getR z := by simp only [State.getR, State.refreshInput]
@[simp] theorem State.slot_refreshInput (s : State) (ks : List Key) (k : Option Key) (j : Fin 16) : (s.refreshInput ks k).slot j = s.slot j := by simp only [State.slot, State.refreshInput]

/-! `State.ackDraw`. -/

@[simp] theorem State.ackDraw_v (s : State) : (s.ackDraw).v = s.v := rfl
@[simp] theorem State.ackDraw_r (s : State) : (s.ackDraw).r = s.r := rfl
@[simp] theorem State.ackDraw_i (s : State) : (s.ackDraw).i = s.i := rfl
@[simp] theorem State.ackDraw_pc (s : State) : (s.ackDraw).pc = s.pc := rfl
@[simp] theorem State.ackDraw_sp (s : State) : (s.ackDraw).sp = s.sp := rfl
@[simp] theorem State.ackDraw_stack (s : State) : (s.ackDraw).stack = s.stack := rfl
@[simp] theorem State.ackDraw_mem (s : State) : (s.ackDraw).mem = s.mem := rfl
@[simp] theorem State.ackDraw_gfx (s : State) : (s.ackDraw).gfx = s.gfx := rfl
@[simp] theorem State.ackDraw_hgr (s : State) : (s.ackDraw).hgr = s.hgr := rfl
@[simp] theorem State.ackDraw_dtArmed (s : State) : (s.ackDraw).dtArmed = s.dtArmed := rfl
@[simp] theorem State.ackDraw_dtStart (s : State) : (s.ackDraw).dtStart = s.dtStart := rfl
@[simp] theorem State.ackDraw_stArmed (s : State) : (s.ackDraw).stArmed = s.stArmed := rfl
@[simp] theorem State.ackDraw_stStart (s : State) : (s.ackDraw).stStart = s.stStart := rfl
@[simp] theorem State.ackDraw_key (s : State) : (s.ackDraw).key = s.key := rfl
@[simp] theorem State.ackDraw_lastKey (s : State) : (s.ackDraw).lastKey = s.lastKey := rfl
@[simp] theorem State.ackDraw_drawFlag (s : State) : (s.ackDraw).drawFlag = false := rfl
@[simp] theorem State.ackDraw_fault (s : State) : (s.ackDraw).fault = s.fault := rfl
@[simp] theorem State.ackDraw_clock (s : State) : (s.ackDraw).clock = s.clock := rfl
@[simp] theorem State.ackDraw_draws (s : State) : (s.ackDraw).draws = s.draws := rfl
@[simp] theorem State.ackDraw_log (s : State) : (s.ackDraw).log = s.log := rfl
@[simp] theorem State.getV_ackDraw (s : State) (z : Reg) : (s.ackDraw).getV z = s.getV z := rfl
@[simp] theorem State.getR_ackDraw (s : State) (z : Reg) : (s.ackDraw).getR z = s.getR z := rfl
@[simp] theorem State.slot_ackDraw (s : State) (k : Fin 16) : (s.ackDraw).slot k = s.slot k := rfl
@[simp] theorem State.pressed_ackDraw (s : State) (k : Key) : (s.ackDraw).pressed k = s.pressed k := rfl

/-! The accessors under the updates that change them. -/

@[simp] theorem State.getV_setV (s : State) (x : Reg) (b : Byte) (z : Reg) :
    (s.setV x b).getV z = if z = x then b else s.getV z := by
  simp [State.getV, State.setV, Vector.getElem_set, Fin.ext_iff, eq_comm]

@[simp] theorem State.getV_finish (s : State) (x : Reg) (b : Byte) (z : Reg) :
    (s.finish x b).getV z = if z = x then b else s.getV z := by
  simp [State.finish]

@[simp] theorem State.getV_finishFlag (s : State) (x : Reg) (b f : Byte) (z : Reg) :
    (s.finishFlag x b f).getV z = if z = regF then f else if z = x then b else s.getV z := by
  simp [State.finishFlag]

@[simp] theorem State.getV_loadV (s : State) (x : Reg) (f : Reg → Byte) (z : Reg) :
    (s.loadV x f).getV z = if z ≤ x then f z else s.getV z := by
  simp [State.getV, State.loadV]

@[simp] theorem State.getR_saveR (s : State) (x z : Reg) :
    (s.saveR x).getR z = if z ≤ x then s.getV z else s.getR z := by
  simp [State.getR, State.saveR]

@[simp] theorem State.slot_push (s : State) (w : Word) (k : Fin 16) :
    (s.push w).slot k = if k = s.sp then w else s.slot k := by
  simp [State.slot, State.push, Vector.getElem_set, Fin.ext_iff, eq_comm]

@[simp] theorem State.pressed_refreshInput (s : State) (ks : List Key) (first : Option Key) (k : Key) :
    (s.refreshInput ks first).pressed k = ks.contains k := by
  simp [State.pressed, State.refreshInput]

end Sys2Proof.Machine
end

