-- ==== Sys2Proof/Laws/Ops.lean ====
section
/-! SUPPORT. For each operation and each meaning with more than one way, one lemma that says what it does on each way, in
plain numbers; a proof cites it instead of unfolding the meaning. Then the step, line by line. -/

namespace Sys2Proof.Machine

/-! Configuration constants as numbers. -/

theorem spMax_eq : Config.spMax = 15 := rfl

theorem memSize_eq : Config.memSize = 4096 := rfl

theorem lowestOffending_eq (base : Nat) : lowestOffending base = max base 4096 := rfl

/-! Control. -/

theorem execCall_below {s : State} (nnn : Addr12) (h : s.sp.val < 15) :
    execCall nnn s = .next ((s.push s.pc).setPc (addrOf nnn)) := by
  unfold execCall
  rw [if_neg (by rw [spMax_eq]; omega)]

theorem execCall_full {s : State} (nnn : Addr12) (h : s.sp.val = 15) :
    execCall nnn s = .next (s.raise .stackOverflow (encode (.call nnn)) 15) := by
  unfold execCall
  rw [if_pos (by rw [spMax_eq]; omega), h]

theorem execRet_nonempty {s : State} (h : s.sp ≠ 0) :
    execRet s = .next (s.pop.setPc (s.slot (s.sp - 1) + 2)) := by
  unfold execRet
  rw [if_neg h]

theorem execRet_empty {s : State} (h : s.sp = 0) : execRet s = .next (s.raise .stackUnderflow (encode .ret) 0) := by
  unfold execRet
  rw [if_pos h]

/-! Memory. -/

theorem execLdB_fits {s : State} (x : Reg) (h : s.i.toNat + 3 ≤ 4096) :
    execLdB x s = .next (s.setMem (Memory.writeBlock s.mem s.i.toNat (bcdDigits (s.getV x)))).advance := by
  unfold execLdB
  rw [if_pos (blockInBounds_iff.2 (.inr h))]

theorem execLdB_outside {s : State} (x : Reg) (h : ¬s.i.toNat + 3 ≤ 4096) :
    execLdB x s = .next (s.memFault (encode (.ldB x))) := by
  unfold execLdB
  rw [if_neg (by rw [blockInBounds_iff]; omega)]

theorem execLdMemVx_fits {s : State} (x : Reg) (h : s.i.toNat + x.val + 1 ≤ 4096) :
    execLdMemVx x s
      = .next ((s.setMem (Memory.writeBlock s.mem s.i.toNat (s.block x))).bumpI x).advance := by
  unfold execLdMemVx
  rw [if_pos (blockInBounds_iff.2 (.inr (by omega)))]

theorem execLdMemVx_outside {s : State} (x : Reg) (h : ¬s.i.toNat + x.val + 1 ≤ 4096) :
    execLdMemVx x s = .next (s.memFault (encode (.ldMemVx x))) := by
  unfold execLdMemVx
  rw [if_neg (by rw [blockInBounds_iff]; omega)]

theorem execLdVxMem_fits {s : State} (x : Reg) (h : s.i.toNat + x.val + 1 ≤ 4096) :
    execLdVxMem x s
      = .next ((s.loadV x fun k => Memory.read s.mem (s.i.toNat + k.val)).bumpI x).advance := by
  unfold execLdVxMem
  rw [if_pos (blockInBounds_iff.2 (.inr (by omega)))]

theorem execLdVxMem_outside {s : State} (x : Reg) (h : ¬s.i.toNat + x.val + 1 ≤ 4096) :
    execLdVxMem x s = .next (s.memFault (encode (.ldVxMem x))) := by
  unfold execLdVxMem
  rw [if_neg (by rw [blockInBounds_iff]; omega)]

/-! Drawing. -/

theorem execDrw_outsideMemory {s : State} (x y : Reg) (n : Nibble)
    (h : blockInBounds s.i.toNat (s.spriteLength n) = false) :
    execDrw x y n s = .next (s.memFault (encode (.drw x y n))) := by
  unfold execDrw
  rw [h]
  rfl

theorem execDrw_outsideGrid {s : State} (x y : Reg) (n : Nibble)
    (h : blockInBounds s.i.toNat (s.spriteLength n) = true) (hp : (s.sprite x y n).all Pixel.inGrid = false) :
    execDrw x y n s = .next (s.raise .fbBounds (encode (.drw x y n)) (s.originInfo x y)) := by
  unfold execDrw
  rw [h, hp]
  rfl

theorem execDrw_draws {s : State} (x y : Reg) (n : Nibble)
    (h : blockInBounds s.i.toNat (s.spriteLength n) = true) (hp : (s.sprite x y n).all Pixel.inGrid = true) :
    execDrw x y n s = .next (((s.setGfx (Gfx.flipAll s.gfx (s.sprite x y n))).setV regF
      (flagByte (Gfx.anyLit s.gfx (s.sprite x y n)))).markDrawn).advance := by
  unfold execDrw
  rw [h, hp]
  rfl

/-! Keys. -/

theorem State.keyOf_some {s : State} {x : Reg} {k : Key} (h : (s.getV x).toNat = k.val) : s.keyOf x = some k := by
  unfold State.keyOf
  rw [dif_pos (by omega)]
  exact congrArg some (Fin.ext h)

theorem State.keyOf_none {s : State} {x : Reg} (h : 16 ≤ (s.getV x).toNat) : s.keyOf x = none := by
  unfold State.keyOf
  rw [dif_neg (by omega)]

/-! The step. -/

theorem State.runState_running {s : State} :
    s.runState = .running ↔ s.fault = none ∧ s.pc ≠ Config.pcExit := by
  unfold State.runState
  cases hf : s.fault <;> by_cases hp : s.pc = Config.pcExit <;> simp [hp]

theorem State.runState_faulted {s : State} : s.runState = .faulted ↔ s.fault ≠ none := by
  unfold State.runState
  cases hf : s.fault <;> by_cases hp : s.pc = Config.pcExit <;> simp [hp]

theorem State.runState_halted {s : State} :
    s.runState = .halted ↔ s.fault = none ∧ s.pc = Config.pcExit := by
  unfold State.runState
  cases hf : s.fault <;> by_cases hp : s.pc = Config.pcExit <;> simp [hp]

theorem State.fetch_some {s : State} (h : s.pc.toNat ≤ 4094) :
    s.fetch = some (Memory.readWord s.mem s.pc.toNat) := by
  unfold State.fetch
  rw [if_pos (by rw [memSize_eq]; omega)]

theorem State.fetch_none {s : State} (h : 4094 < s.pc.toNat) : s.fetch = none := by
  unfold State.fetch
  rw [if_neg (by rw [memSize_eq]; omega)]

theorem step_not_running {s : State} (h : s.runState ≠ .running) : step s = .next s := by
  unfold step
  cases hr : s.runState with
  | faulted => rfl
  | halted => rfl
  | running => exact absurd hr h

theorem step_unfetchable {s : State} (h : s.runState = .running) (hp : 4094 < s.pc.toNat) :
    step s = .next s.fetchFault := by
  simp only [step, h, State.fetch_none hp]

theorem step_unknown {s : State} {e : DecodeError} (h : s.runState = .running) (hp : s.pc.toNat ≤ 4094)
    (hd : decodeWord (Memory.readWord s.mem s.pc.toNat) = .error e) :
    step s = .next (s.illegalOpcode (Memory.readWord s.mem s.pc.toNat)) := by
  simp only [step, h, State.fetch_some hp, hd]

theorem step_decoded {s : State} {i : Instr} (h : s.runState = .running) (hp : s.pc.toNat ≤ 4094)
    (hd : decodeWord (Memory.readWord s.mem s.pc.toNat) = .ok i) : step s = exec i s := by
  simp only [step, h, State.fetch_some hp, hd]

/-- Everything a step can be: nothing, one of the two faults of the engine, or the decoded instruction. -/
theorem step_cases (s : State) :
    (s.runState ≠ .running ∧ step s = .next s) ∨
    (s.runState = .running ∧ 4094 < s.pc.toNat ∧ step s = .next s.fetchFault) ∨
    (s.runState = .running ∧ s.pc.toNat ≤ 4094 ∧
      (∃ e, decodeWord (Memory.readWord s.mem s.pc.toNat) = .error e) ∧
      step s = .next (s.illegalOpcode (Memory.readWord s.mem s.pc.toNat))) ∨
    (s.runState = .running ∧ s.pc.toNat ≤ 4094 ∧
      ∃ i, decodeWord (Memory.readWord s.mem s.pc.toNat) = .ok i ∧ step s = exec i s) := by
  by_cases hr : s.runState = .running
  · by_cases hp : s.pc.toNat ≤ 4094
    · cases hd : decodeWord (Memory.readWord s.mem s.pc.toNat) with
      | error e => exact .inr (.inr (.inl ⟨hr, hp, ⟨e, rfl⟩, step_unknown hr hp hd⟩))
      | ok i => exact .inr (.inr (.inr ⟨hr, hp, i, rfl, step_decoded hr hp hd⟩))
    · exact .inr (.inl ⟨hr, by omega, step_unfetchable hr (by omega)⟩)
  · exact .inl ⟨hr, step_not_running hr⟩

/-! Runs of the core. -/

theorem coreState_run_succ {t u : core.State} (k : Nat) (h : core.step t = .next u) :
    Host.Core.run core (k + 1) t = Host.Core.run core k u := by
  rw [Host.Core.run, h]

/-- A state that a step leaves alone is where every run stays. -/
theorem core_run_fixed {t : State} (h : step t = .next t) (k : Nat) : Host.Core.run core k t = .next t := by
  induction k with
  | zero => rfl
  | succ k ih => exact (coreState_run_succ (t := t) k h).trans ih

end Sys2Proof.Machine
end

