-- ==== Sys2Proof/Laws/PerInstr.lean ====
section
/-! SUPPORT. Per-instruction laws about syntax. Family `OpcodeRow`: the encoded word of a well-formed instruction has the
fixed bits of the instruction's row of the opcode map (30_encoding.md R95). -/

namespace Sys2Proof.Laws.OpcodeRow

/-- The word of a well-formed instruction matches the instruction's row. -/
def Statement (i : Instr) : Prop :=
  i.wellFormed = true → ∃ row ∈ opcodeMap, row.num = rowOf i ∧ rowMatches (encode i) row = true

theorem rowMatches_of_and {w m v : Word} {k : Nat} (h : w &&& m = v) : rowMatches w ⟨k, m, v, false⟩ = true := by
  simp [rowMatches, h]

theorem rowMatches_sys {nnn : Addr12} (h : (Instr.sys nnn).wellFormed = true) :
    rowMatches (encode (.sys nnn)) ⟨9, 0xF000#16, 0x0000#16, true⟩ = true := by
  have h1 := wordNNN_and 0x0#4 0xF#4 nnn 0#12
  have h2 := wordNNN_and 0x0#4 0x0#4 nnn 0xF00#12
  have h3 : nnn.extractLsb' 8 4 ≠ 0#4 := by simpa [Instr.wellFormed, sysInRange] using h
  have h4 : nnn &&& 0xF00#12 ≠ 0#12 := by
    intro h0
    apply h3
    have := congrArg (fun b : Addr12 => b.extractLsb' 8 4) h0
    simp only [BitVec.extractLsb'_and] at this
    rw [show (0xF00#12 : Addr12).extractLsb' 8 4 = BitVec.allOnes 4 from rfl, BitVec.and_allOnes] at this
    exact this
  have h5 : (0#4 ++ (nnn &&& 0xF00#12) : Word) ≠ 0#16 := by
    intro h0
    apply h4
    have := congrArg (fun b : Word => b.extractLsb' 0 12) h0
    exact (BitVec.extractLsb'_append_eq_right (a := 0#4) (b := nnn &&& 0xF00#12)).symm.trans this
  simp only [rowMatches, encode]
  simp at h1 h2
  simp [h1, h2, h5]

theorem scd (n : Reg) : Statement (.scd n) := fun _ =>
  ⟨⟨1, 0xFFF0#16, 0x00C0#16, false⟩, by decide, rfl, rowMatches_of_and (by
    have h := BitVec.and_append (x₁ := 0x00C#12) (x₂ := 0xFFF#12) (y₁ := nibbleOfReg n) (y₂ := 0#4)
    simpa [encode] using h)⟩

theorem cls : Statement (.cls) := fun _ =>
  ⟨⟨2, 0xFFFF#16, 0x00E0#16, false⟩, by decide, rfl, by decide⟩

theorem ret : Statement (.ret) := fun _ =>
  ⟨⟨3, 0xFFFF#16, 0x00EE#16, false⟩, by decide, rfl, by decide⟩

theorem scr : Statement (.scr) := fun _ =>
  ⟨⟨4, 0xFFFF#16, 0x00FB#16, false⟩, by decide, rfl, by decide⟩

theorem scl : Statement (.scl) := fun _ =>
  ⟨⟨5, 0xFFFF#16, 0x00FC#16, false⟩, by decide, rfl, by decide⟩

theorem exit : Statement (.exit) := fun _ =>
  ⟨⟨6, 0xFFFF#16, 0x00FD#16, false⟩, by decide, rfl, by decide⟩

theorem low : Statement (.low) := fun _ =>
  ⟨⟨7, 0xFFFF#16, 0x00FE#16, false⟩, by decide, rfl, by decide⟩

theorem high : Statement (.high) := fun _ =>
  ⟨⟨8, 0xFFFF#16, 0x00FF#16, false⟩, by decide, rfl, by decide⟩

theorem sys (nnn : Addr12) : Statement (.sys nnn) := fun h =>
  ⟨⟨9, 0xF000#16, 0x0000#16, true⟩, by decide, rfl, rowMatches_sys h⟩

theorem jp (nnn : Addr12) : Statement (.jp nnn) := fun _ =>
  ⟨⟨10, 0xF000#16, 0x1000#16, false⟩, by decide, rfl, rowMatches_of_and (by
    have h := wordNNN_and 0x1#4 0xF#4 nnn 0#12
    simpa [encode] using h)⟩

theorem call (nnn : Addr12) : Statement (.call nnn) := fun _ =>
  ⟨⟨11, 0xF000#16, 0x2000#16, false⟩, by decide, rfl, rowMatches_of_and (by
    have h := wordNNN_and 0x2#4 0xF#4 nnn 0#12
    simpa [encode] using h)⟩

theorem seImm (x : Reg) (kk : Byte) : Statement (.seImm x kk) := fun _ =>
  ⟨⟨12, 0xF000#16, 0x3000#16, false⟩, by decide, rfl, rowMatches_of_and (by
    have h := wordXKK_and 0x3#4 0xF#4 x kk 0#8 0#4
    simpa [encode] using h)⟩

theorem sneImm (x : Reg) (kk : Byte) : Statement (.sneImm x kk) := fun _ =>
  ⟨⟨13, 0xF000#16, 0x4000#16, false⟩, by decide, rfl, rowMatches_of_and (by
    have h := wordXKK_and 0x4#4 0xF#4 x kk 0#8 0#4
    simpa [encode] using h)⟩

theorem seReg (x : Reg) (y : Reg) : Statement (.seReg x y) := fun _ =>
  ⟨⟨14, 0xF00F#16, 0x5000#16, false⟩, by decide, rfl, rowMatches_of_and (by
    have h := wordXYN_and 0x5#4 0xF#4 x y 0#4 0#4 0x0#4 0xF#4
    simpa [encode] using h)⟩

theorem ldImm (x : Reg) (kk : Byte) : Statement (.ldImm x kk) := fun _ =>
  ⟨⟨15, 0xF000#16, 0x6000#16, false⟩, by decide, rfl, rowMatches_of_and (by
    have h := wordXKK_and 0x6#4 0xF#4 x kk 0#8 0#4
    simpa [encode] using h)⟩

theorem addImm (x : Reg) (kk : Byte) : Statement (.addImm x kk) := fun _ =>
  ⟨⟨16, 0xF000#16, 0x7000#16, false⟩, by decide, rfl, rowMatches_of_and (by
    have h := wordXKK_and 0x7#4 0xF#4 x kk 0#8 0#4
    simpa [encode] using h)⟩

theorem ldReg (x : Reg) (y : Reg) : Statement (.ldReg x y) := fun _ =>
  ⟨⟨17, 0xF00F#16, 0x8000#16, false⟩, by decide, rfl, rowMatches_of_and (by
    have h := wordXYN_and 0x8#4 0xF#4 x y 0#4 0#4 0x0#4 0xF#4
    simpa [encode] using h)⟩

theorem orReg (x : Reg) (y : Reg) : Statement (.orReg x y) := fun _ =>
  ⟨⟨18, 0xF00F#16, 0x8001#16, false⟩, by decide, rfl, rowMatches_of_and (by
    have h := wordXYN_and 0x8#4 0xF#4 x y 0#4 0#4 0x1#4 0xF#4
    simpa [encode] using h)⟩

theorem andReg (x : Reg) (y : Reg) : Statement (.andReg x y) := fun _ =>
  ⟨⟨19, 0xF00F#16, 0x8002#16, false⟩, by decide, rfl, rowMatches_of_and (by
    have h := wordXYN_and 0x8#4 0xF#4 x y 0#4 0#4 0x2#4 0xF#4
    simpa [encode] using h)⟩

theorem xorReg (x : Reg) (y : Reg) : Statement (.xorReg x y) := fun _ =>
  ⟨⟨20, 0xF00F#16, 0x8003#16, false⟩, by decide, rfl, rowMatches_of_and (by
    have h := wordXYN_and 0x8#4 0xF#4 x y 0#4 0#4 0x3#4 0xF#4
    simpa [encode] using h)⟩

theorem addReg (x : Reg) (y : Reg) : Statement (.addReg x y) := fun _ =>
  ⟨⟨21, 0xF00F#16, 0x8004#16, false⟩, by decide, rfl, rowMatches_of_and (by
    have h := wordXYN_and 0x8#4 0xF#4 x y 0#4 0#4 0x4#4 0xF#4
    simpa [encode] using h)⟩

theorem subReg (x : Reg) (y : Reg) : Statement (.subReg x y) := fun _ =>
  ⟨⟨22, 0xF00F#16, 0x8005#16, false⟩, by decide, rfl, rowMatches_of_and (by
    have h := wordXYN_and 0x8#4 0xF#4 x y 0#4 0#4 0x5#4 0xF#4
    simpa [encode] using h)⟩

theorem shrReg (x : Reg) (y : Reg) : Statement (.shrReg x y) := fun _ =>
  ⟨⟨23, 0xF00F#16, 0x8006#16, false⟩, by decide, rfl, rowMatches_of_and (by
    have h := wordXYN_and 0x8#4 0xF#4 x y 0#4 0#4 0x6#4 0xF#4
    simpa [encode] using h)⟩

theorem subnReg (x : Reg) (y : Reg) : Statement (.subnReg x y) := fun _ =>
  ⟨⟨24, 0xF00F#16, 0x8007#16, false⟩, by decide, rfl, rowMatches_of_and (by
    have h := wordXYN_and 0x8#4 0xF#4 x y 0#4 0#4 0x7#4 0xF#4
    simpa [encode] using h)⟩

theorem shlReg (x : Reg) (y : Reg) : Statement (.shlReg x y) := fun _ =>
  ⟨⟨25, 0xF00F#16, 0x800E#16, false⟩, by decide, rfl, rowMatches_of_and (by
    have h := wordXYN_and 0x8#4 0xF#4 x y 0#4 0#4 0xE#4 0xF#4
    simpa [encode] using h)⟩

theorem sneReg (x : Reg) (y : Reg) : Statement (.sneReg x y) := fun _ =>
  ⟨⟨26, 0xF00F#16, 0x9000#16, false⟩, by decide, rfl, rowMatches_of_and (by
    have h := wordXYN_and 0x9#4 0xF#4 x y 0#4 0#4 0x0#4 0xF#4
    simpa [encode] using h)⟩

theorem ldI (nnn : Addr12) : Statement (.ldI nnn) := fun _ =>
  ⟨⟨27, 0xF000#16, 0xA000#16, false⟩, by decide, rfl, rowMatches_of_and (by
    have h := wordNNN_and 0xA#4 0xF#4 nnn 0#12
    simpa [encode] using h)⟩

theorem jpV0 (nnn : Addr12) : Statement (.jpV0 nnn) := fun _ =>
  ⟨⟨28, 0xF000#16, 0xB000#16, false⟩, by decide, rfl, rowMatches_of_and (by
    have h := wordNNN_and 0xB#4 0xF#4 nnn 0#12
    simpa [encode] using h)⟩

theorem rnd (x : Reg) (kk : Byte) : Statement (.rnd x kk) := fun _ =>
  ⟨⟨29, 0xF000#16, 0xC000#16, false⟩, by decide, rfl, rowMatches_of_and (by
    have h := wordXKK_and 0xC#4 0xF#4 x kk 0#8 0#4
    simpa [encode] using h)⟩

theorem drw (x : Reg) (y : Reg) (n : Nibble) : Statement (.drw x y n) := fun _ =>
  ⟨⟨30, 0xF000#16, 0xD000#16, false⟩, by decide, rfl, rowMatches_of_and (by
    have h := wordXYN_and 0xD#4 0xF#4 x y 0#4 0#4 n 0#4
    simpa [encode] using h)⟩

theorem skp (x : Reg) : Statement (.skp x) := fun _ =>
  ⟨⟨31, 0xF0FF#16, 0xE09E#16, false⟩, by decide, rfl, rowMatches_of_and (by
    have h := wordXKK_and 0xE#4 0xF#4 x 0x9E#8 0xFF#8 0#4
    simpa [encode] using h)⟩

theorem sknp (x : Reg) : Statement (.sknp x) := fun _ =>
  ⟨⟨32, 0xF0FF#16, 0xE0A1#16, false⟩, by decide, rfl, rowMatches_of_and (by
    have h := wordXKK_and 0xE#4 0xF#4 x 0xA1#8 0xFF#8 0#4
    simpa [encode] using h)⟩

theorem ldVxDt (x : Reg) : Statement (.ldVxDt x) := fun _ =>
  ⟨⟨33, 0xF0FF#16, 0xF007#16, false⟩, by decide, rfl, rowMatches_of_and (by
    have h := wordXKK_and 0xF#4 0xF#4 x 0x07#8 0xFF#8 0#4
    simpa [encode] using h)⟩

theorem ldVxK (x : Reg) : Statement (.ldVxK x) := fun _ =>
  ⟨⟨34, 0xF0FF#16, 0xF00A#16, false⟩, by decide, rfl, rowMatches_of_and (by
    have h := wordXKK_and 0xF#4 0xF#4 x 0x0A#8 0xFF#8 0#4
    simpa [encode] using h)⟩

theorem ldDtVx (x : Reg) : Statement (.ldDtVx x) := fun _ =>
  ⟨⟨35, 0xF0FF#16, 0xF015#16, false⟩, by decide, rfl, rowMatches_of_and (by
    have h := wordXKK_and 0xF#4 0xF#4 x 0x15#8 0xFF#8 0#4
    simpa [encode] using h)⟩

theorem ldStVx (x : Reg) : Statement (.ldStVx x) := fun _ =>
  ⟨⟨36, 0xF0FF#16, 0xF018#16, false⟩, by decide, rfl, rowMatches_of_and (by
    have h := wordXKK_and 0xF#4 0xF#4 x 0x18#8 0xFF#8 0#4
    simpa [encode] using h)⟩

theorem addI (x : Reg) : Statement (.addI x) := fun _ =>
  ⟨⟨37, 0xF0FF#16, 0xF01E#16, false⟩, by decide, rfl, rowMatches_of_and (by
    have h := wordXKK_and 0xF#4 0xF#4 x 0x1E#8 0xFF#8 0#4
    simpa [encode] using h)⟩

theorem ldF (x : Reg) : Statement (.ldF x) := fun _ =>
  ⟨⟨38, 0xF0FF#16, 0xF029#16, false⟩, by decide, rfl, rowMatches_of_and (by
    have h := wordXKK_and 0xF#4 0xF#4 x 0x29#8 0xFF#8 0#4
    simpa [encode] using h)⟩

theorem ldHf (x : Reg) : Statement (.ldHf x) := fun _ =>
  ⟨⟨39, 0xF0FF#16, 0xF030#16, false⟩, by decide, rfl, rowMatches_of_and (by
    have h := wordXKK_and 0xF#4 0xF#4 x 0x30#8 0xFF#8 0#4
    simpa [encode] using h)⟩

theorem ldB (x : Reg) : Statement (.ldB x) := fun _ =>
  ⟨⟨40, 0xF0FF#16, 0xF033#16, false⟩, by decide, rfl, rowMatches_of_and (by
    have h := wordXKK_and 0xF#4 0xF#4 x 0x33#8 0xFF#8 0#4
    simpa [encode] using h)⟩

theorem ldMemVx (x : Reg) : Statement (.ldMemVx x) := fun _ =>
  ⟨⟨41, 0xF0FF#16, 0xF055#16, false⟩, by decide, rfl, rowMatches_of_and (by
    have h := wordXKK_and 0xF#4 0xF#4 x 0x55#8 0xFF#8 0#4
    simpa [encode] using h)⟩

theorem ldVxMem (x : Reg) : Statement (.ldVxMem x) := fun _ =>
  ⟨⟨42, 0xF0FF#16, 0xF065#16, false⟩, by decide, rfl, rowMatches_of_and (by
    have h := wordXKK_and 0xF#4 0xF#4 x 0x65#8 0xFF#8 0#4
    simpa [encode] using h)⟩

theorem ldRVx (x : Reg) : Statement (.ldRVx x) := fun _ =>
  ⟨⟨43, 0xF0FF#16, 0xF075#16, false⟩, by decide, rfl, rowMatches_of_and (by
    have h := wordXKK_and 0xF#4 0xF#4 x 0x75#8 0xFF#8 0#4
    simpa [encode] using h)⟩

theorem ldVxR (x : Reg) : Statement (.ldVxR x) := fun _ =>
  ⟨⟨44, 0xF0FF#16, 0xF085#16, false⟩, by decide, rfl, rowMatches_of_and (by
    have h := wordXKK_and 0xF#4 0xF#4 x 0x85#8 0xFF#8 0#4
    simpa [encode] using h)⟩

end Sys2Proof.Laws.OpcodeRow
end

