-- ==== Sys2Proof/Laws/Safety.lean ====
section
/-! SUPPORT. The small laws of the terms of Safety: each part of the invariant depends on its own fields only, the
operation that takes a fault as `withFault`, the memory cause as the bounds check, and what `load` does. -/

namespace Sys2Proof.Machine

/-! The invariant. To show it after an update, show each field it reads unchanged. -/

theorem State.StackOk.of_eq {s t : State} (h : s.StackOk) (e : t.stack = s.stack) : t.StackOk := by
  simpa only [State.StackOk, State.slot, e] using h

theorem State.LatchOk.of_eq {s t : State} (h : s.LatchOk) (e₁ : t.key = s.key) (e₂ : t.lastKey = s.lastKey) :
    t.LatchOk := by
  simpa only [State.LatchOk, State.pressed, e₁, e₂] using h

theorem State.PcOk.of_eq {s t : State} (h : s.PcOk) (e : t.pc = s.pc) : t.PcOk := by
  simpa only [State.PcOk, e] using h

theorem State.ClockOk.of_eq {s t : State} (h : s.ClockOk) (e₁ : t.dtStart = s.dtStart) (e₂ : t.stStart = s.stStart)
    (hc : s.clock ≤ t.clock) : t.ClockOk := by
  refine ⟨fun u hu => ?_, fun u hu => ?_⟩
  · exact (h.1 u (e₁ ▸ hu)).trans hc
  · exact (h.2 u (e₂ ▸ hu)).trans hc

/-- A legal `refresh_input` leaves the latch consistent, whatever it was (10_state.md R34). -/
theorem State.latchOk_refreshInput (s : State) {keys : List Key} {first : Option Key}
    (h : refreshLegal keys first = true) : (s.refreshInput keys first).LatchOk := by
  simp only [State.LatchOk, State.pressed_refreshInput, State.refreshInput_lastKey]
  cases first with
  | none =>
    rw [refreshLegal, List.isEmpty_iff] at h
    simp [h]
  | some k =>
    rw [refreshLegal] at h
    refine ⟨⟨fun h₀ => absurd h₀ (by simp), fun h₀ => ?_⟩, fun j hj => ?_⟩
    · exact absurd (h.symm.trans (h₀ k)) (by decide)
    · exact (Option.some.inj hj) ▸ h

/-! Faults. -/

theorem State.raise_eq_withFault (s : State) (c : FaultCause) (op : Word) (n : Nat) :
    s.raise c op n = s.withFault c op (BitVec.ofNat 16 n) := rfl

theorem memCause_inside {base len : Nat} (h : blockInBounds base len = true) : memCause base len = none := by
  rw [blockInBounds_iff] at h
  exact if_neg (by omega)

theorem memCause_outside {base len : Nat} (h : blockInBounds base len = false) :
    memCause base len = some (.memBounds, max base 4096) := by
  rw [Bool.eq_false_iff, ne_eq, blockInBounds_iff] at h
  exact if_pos (by omega)

/-! `load` (70_reset_and_hazards.md R262, R263). -/

theorem maxImage_eq : maxImage = 3584 := rfl

theorem imageFits_iff (image : List Byte) : imageFits image = true ↔ image.length ≤ 3584 := by
  rw [imageFits, decide_eq_true_eq, maxImage_eq]

theorem State.setMem_setMem (s : State) (m m' : Memory) : (s.setMem m).setMem m' = s.setMem m' := rfl

theorem State.load_fits (s : State) {image : List Byte} (h : imageFits image = true) :
    s.load image = s.setMem (Memory.writeBlock (Memory.writeBlock (Memory.writeBlock s.mem Config.fontLoBase
      Config.fontLoData) Config.fontHiBase Config.fontHiData) Config.progBase.toNat image) := by
  rw [State.load, if_pos h, State.installFonts, State.setMem_mem, State.setMem_setMem]

theorem State.load_tooLong (s : State) {image : List Byte} (h : imageFits image = false) :
    s.load image = s.emit .loadFailure (BitVec.ofNat 16 (min image.length 0xFFFF)) := by
  rw [State.load, h]
  exact rfl

theorem State.wf_load {s : State} (image : List Byte) (h : Memory.wf s.mem = true) :
    Memory.wf (s.load image).mem = true := by
  cases hf : imageFits image with
  | false => rwa [State.load_tooLong s hf, State.emit_mem]
  | true =>
    rw [imageFits_iff] at hf
    rw [State.load_fits s ((imageFits_iff image).2 hf), State.setMem_mem]
    have hp : Config.progBase.toNat = 512 := rfl
    exact Memory.wf_writeBlock (Memory.wf_writeBlock (Memory.wf_writeBlock h (by decide)) (by decide)) (by omega)

end Sys2Proof.Machine
end

