-- ==== Sys2Proof/Tests/Slice0.lean ====
section
/-! SUPPORT. Tests: well-formedness; the decoding of every constructor from a word written out bit by bit from
30_encoding.md R95; single steps with the results of spec/95_test_vectors.md part 2 (the vector's number is in the
comment); and, for every statement with hypotheses, a witness that meets them. -/

namespace Sys2Proof.Machine.Tests

open Sys2Proof Sys2Proof.Machine

/-- The machine after reset with a word at `PROG_BASE`. -/
def fresh (w : Word) : State := State.reset.withFetchWord 16 w.toNat

/-- The state with bytes stored from an address. -/
def poke (s : State) (a : Nat) (bs : List Byte) : State := s.setMem (Memory.writeBlock s.mem a bs)

/-- The state with these pixels flipped. -/
def lit (s : State) (ps : List Pixel) : State := s.setGfx (Gfx.flipAll s.gfx ps)

/-- The answer is a next state that passes. -/
def peek (o : Result) (f : State → Bool) : Bool :=
  match o with
  | .next t => f t
  | .fault _ => false
  | .refused _ => false

theorem peek_next {o : Result} {f : State → Bool} (h : peek o f = true) : ∃ t, o = .next t ∧ f t = true := by
  cases o with
  | next t => exact ⟨t, rfl, h⟩
  | fault _ => cases h
  | refused _ => cases h

/-- The record of a fault at `PROG_BASE`. -/
def faultAt (c : FaultCause) (op info : Word) : Option FaultRecord := some ⟨c, 0x200#16, op, info⟩

/-! Well-formedness: the one check is the nibble `n1` of a native call (R94, R97). -/

theorem test_wf_sys_low_refused : (Instr.sys 0x0FF#12).wellFormed = false := by decide

theorem test_wf_sys_lowest : (Instr.sys 0x100#12).wellFormed = true := by decide

/-! Decoding: every constructor, its word bit by bit. -/

theorem test_decode_system :
    decodeWord 0b0000000011000010#16 = .ok (.scd 2) ∧ decodeWord 0b0000000011100000#16 = .ok .cls ∧
    decodeWord 0b0000000011101110#16 = .ok .ret ∧ decodeWord 0b0000000011111011#16 = .ok .scr ∧
    decodeWord 0b0000000011111100#16 = .ok .scl ∧ decodeWord 0b0000000011111101#16 = .ok .exit ∧
    decodeWord 0b0000000011111110#16 = .ok .low ∧ decodeWord 0b0000000011111111#16 = .ok .high := by decide

theorem test_decode_control :
    decodeWord 0b0000000100100011#16 = .ok (.sys 0x123#12) ∧ decodeWord 0b0001111111111111#16 = .ok (.jp 0xFFF#12) ∧
    decodeWord 0b0010101010111100#16 = .ok (.call 0xABC#12) ∧ decodeWord 0b0011000110000010#16 = .ok (.seImm 1 0x82#8) ∧
    decodeWord 0b0100000111111111#16 = .ok (.sneImm 1 0xFF#8) ∧ decodeWord 0b0101000100100000#16 = .ok (.seReg 1 2) ∧
    decodeWord 0b1001000100100000#16 = .ok (.sneReg 1 2) ∧ decodeWord 0b1011001100000000#16 = .ok (.jpV0 0x300#12) := by
  decide

theorem test_decode_arith :
    decodeWord 0b0110111100010010#16 = .ok (.ldImm 15 0x12#8) ∧ decodeWord 0b0111000000000011#16 = .ok (.addImm 0 3) ∧
    decodeWord 0b1000000100100000#16 = .ok (.ldReg 1 2) ∧ decodeWord 0b1000000100100001#16 = .ok (.orReg 1 2) ∧
    decodeWord 0b1000000100100010#16 = .ok (.andReg 1 2) ∧ decodeWord 0b1000000100100011#16 = .ok (.xorReg 1 2) ∧
    decodeWord 0b1000000100100100#16 = .ok (.addReg 1 2) ∧ decodeWord 0b1000000100100101#16 = .ok (.subReg 1 2) ∧
    decodeWord 0b1000000100100110#16 = .ok (.shrReg 1 2) ∧ decodeWord 0b1000000100100111#16 = .ok (.subnReg 1 2) ∧
    decodeWord 0b1000000100101110#16 = .ok (.shlReg 1 2) ∧ decodeWord 0b1100000100001111#16 = .ok (.rnd 1 0x0F#8) := by
  decide

theorem test_decode_index :
    decodeWord 0b1010001000110100#16 = .ok (.ldI 0x234#12) ∧ decodeWord 0b1111001000011110#16 = .ok (.addI 2) ∧
    decodeWord 0b1111001100101001#16 = .ok (.ldF 3) ∧ decodeWord 0b1111001100110000#16 = .ok (.ldHf 3) ∧
    decodeWord 0b1111000000110011#16 = .ok (.ldB 0) ∧ decodeWord 0b1111001001010101#16 = .ok (.ldMemVx 2) ∧
    decodeWord 0b1111001001100101#16 = .ok (.ldVxMem 2) ∧ decodeWord 0b1111000101110101#16 = .ok (.ldRVx 1) ∧
    decodeWord 0b1111000110000101#16 = .ok (.ldVxR 1) := by decide

theorem test_decode_devices :
    decodeWord 0b1101000100100101#16 = .ok (.drw 1 2 5#4) ∧ decodeWord 0b1110000110011110#16 = .ok (.skp 1) ∧
    decodeWord 0b1110000110100001#16 = .ok (.sknp 1) ∧ decodeWord 0b1111000100000111#16 = .ok (.ldVxDt 1) ∧
    decodeWord 0b1111000100001010#16 = .ok (.ldVxK 1) ∧ decodeWord 0b1111000000010101#16 = .ok (.ldDtVx 0) ∧
    decodeWord 0b1111001000011000#16 = .ok (.ldStVx 2) := by decide

/-- S7: the first byte is the high byte. -/
theorem test_decode_byte_order : decode [0xA2#8, 0x34#8] = .ok (.ldI 0x234#12, []) := by decide

theorem test_decode_table_word : decodeTableWord 16 0xA234 = some (.ldI 0x234#12) := by decide

/-- C7, C11, C22 to C25: unknown words. -/
theorem test_decode_unknown :
    decodeWord 0x5121#16 = .error (.unknownOpcode 0x5121#16) ∧ decodeWord 0x9121#16 = .error (.unknownOpcode 0x9121#16) ∧
    decodeWord 0x00E1#16 = .error (.unknownOpcode 0x00E1#16) ∧ decodeWord 0x8128#16 = .error (.unknownOpcode 0x8128#16) ∧
    decodeWord 0xE19F#16 = .error (.unknownOpcode 0xE19F#16) ∧
    decodeWord 0xF1FF#16 = .error (.unknownOpcode 0xF1FF#16) := by decide

/-! Arithmetic: vectors of section 2.1. -/

/-- A1. -/
theorem test_ldImm : peek (step (fresh 0x6F12#16)) (fun t => t.getV 15 == 0x12#8 && t.pc == 0x202#16) = true := by decide

/-- A3. -/
theorem test_addImm_overflow : peek (step ((fresh 0x7002#16).setV 0 0xFF#8))
    (fun t => t.getV 0 == 0x01#8 && t.getV 15 == 0#8) = true := by decide

/-- A4. -/
theorem test_addImm_flag_wins : peek (step ((fresh 0x7F05#16).setV 15 7#8)) (fun t => t.getV 15 == 0#8) = true := by decide

/-- A7. -/
theorem test_ldReg : peek (step ((fresh 0x8120#16).setV 2 0x7E#8)) (fun t => t.getV 1 == 0x7E#8) = true := by decide

/-- A8. -/
theorem test_orReg : peek (step ((((fresh 0x8121#16).setV 1 0xF0#8).setV 2 0x0F#8).setV 15 1#8))
    (fun t => t.getV 1 == 0xFF#8 && t.getV 15 == 1#8) = true := by decide

/-- A9. -/
theorem test_andReg : peek (step (((fresh 0x8122#16).setV 1 0xF3#8).setV 2 0x3C#8))
    (fun t => t.getV 1 == 0x30#8) = true := by decide

/-- A10. -/
theorem test_xorReg : peek (step (((fresh 0x8123#16).setV 1 0xFF#8).setV 2 0x0F#8))
    (fun t => t.getV 1 == 0xF0#8) = true := by decide

/-- A14: sum 255 is no carry. -/
theorem test_addReg_no_carry : peek (step ((((fresh 0x8124#16).setV 1 0x80#8).setV 2 0x7F#8).setV 15 1#8))
    (fun t => t.getV 1 == 0xFF#8 && t.getV 15 == 0#8) = true := by decide

/-- A16: the old VF is the addend. -/
theorem test_addReg_flag_addend : peek (step (((fresh 0x81F4#16).setV 1 0xFF#8).setV 15 1#8))
    (fun t => t.getV 1 == 0#8 && t.getV 15 == 1#8) = true := by decide

/-- A18: borrow. -/
theorem test_subReg_borrow : peek (step (((fresh 0x8125#16).setV 1 0x10#8).setV 2 0x20#8))
    (fun t => t.getV 1 == 0xF0#8 && t.getV 15 == 0#8) = true := by decide

/-- A20: equal is no borrow. -/
theorem test_subReg_equal : peek (step (((fresh 0x8125#16).setV 1 0x33#8).setV 2 0x33#8))
    (fun t => t.getV 1 == 0#8 && t.getV 15 == 1#8) = true := by decide

/-- A23: the source is `V2`. -/
theorem test_shrReg : peek (step (((fresh 0x8126#16).setV 1 0xFF#8).setV 2 0x05#8))
    (fun t => t.getV 1 == 2#8 && t.getV 15 == 1#8) = true := by decide

/-- A26: the flag wins. -/
theorem test_shrReg_flag_wins : peek (step (((fresh 0x8F26#16).setV 2 4#8).setV 15 9#8))
    (fun t => t.getV 15 == 0#8) = true := by decide

/-- A27. -/
theorem test_subnReg : peek (step (((fresh 0x8127#16).setV 1 0x10#8).setV 2 0x20#8))
    (fun t => t.getV 1 == 0x10#8 && t.getV 15 == 1#8) = true := by decide

/-- A28. -/
theorem test_subnReg_borrow : peek (step (((fresh 0x8127#16).setV 1 0x20#8).setV 2 0x10#8))
    (fun t => t.getV 1 == 0xF0#8 && t.getV 15 == 0#8) = true := by decide

/-- A31. -/
theorem test_shlReg : peek (step ((fresh 0x812E#16).setV 2 0x80#8))
    (fun t => t.getV 1 == 0#8 && t.getV 15 == 1#8) = true := by decide

/-- A33: the meaning of `Cxkk` at the input byte 0xA7. -/
theorem test_rnd_at_input : ((fresh 0xC10F#16).randomize 1 0x0F#8 0xA7#8).getV 1 = 0x07#8 := by decide

/-! Control transfer: vectors of section 2.2. -/

/-- C1. -/
theorem test_seImm : peek (step (fresh 0x3100#16)) (fun t => t.pc == 0x204#16) = true := by decide

/-- C3. -/
theorem test_sneImm : peek (step ((fresh 0x41FF#16).setV 1 0xFF#8)) (fun t => t.pc == 0x202#16) = true := by decide

/-- C6. -/
theorem test_seReg : peek (step (((fresh 0x5120#16).setV 1 7#8).setV 2 8#8)) (fun t => t.pc == 0x202#16) = true := by decide

/-- C9. -/
theorem test_sneReg_differ : peek (step (((fresh 0x9120#16).setV 1 1#8).setV 2 2#8))
    (fun t => t.pc == 0x204#16) = true := by decide

/-- C10. -/
theorem test_sneReg_equal : peek (step (((fresh 0x9120#16).setV 1 2#8).setV 2 2#8))
    (fun t => t.pc == 0x202#16) = true := by decide

/-- C12. -/
theorem test_jp : peek (step (fresh 0x1FFF#16)) (fun t => t.pc == 0xFFF#16) = true := by decide

/-- C13: the call's own address goes into the slot. -/
theorem test_call_last_slot : peek (step { fresh 0x2ABC#16 with sp := 14 })
    (fun t => t.slot 14 == 0x200#16 && t.sp == 15 && t.pc == 0xABC#16) = true := by decide

/-- C14. -/
theorem test_call_overflow : peek (step { fresh 0x2ABC#16 with sp := 15 })
    (fun t => t.fault == faultAt .stackOverflow 0x2ABC#16 15#16 && t.pc == 0x200#16 && t.sp == 15) = true := by decide

/-- C15: the slot keeps its value. -/
theorem test_ret : peek (step { fresh 0x00EE#16 with sp := 2, stack := (Vector.replicate 16 0).set 1 0x333#16 })
    (fun t => t.sp == 1 && t.pc == 0x335#16 && t.slot 1 == 0x333#16) = true := by decide

/-- C16. -/
theorem test_ret_underflow : peek (step (fresh 0x00EE#16))
    (fun t => t.fault == faultAt .stackUnderflow 0x00EE#16 0#16) = true := by decide

/-- C17: no wrap at 12 bits. -/
theorem test_jpV0 : peek (step ((fresh 0xBFFF#16).setV 0 0xFF#8)) (fun t => t.pc == 0x10FE#16) = true := by decide

/-- C19. -/
theorem test_exit : peek (step (fresh 0x00FD#16)) (fun t => t.pc == 0xFFFF#16 && t.runState == .halted) = true := by decide

/-- C20. -/
theorem test_sys : peek (step (fresh 0x0123#16)) (fun t => t.fault == faultAt .nativeCall 0x0123#16 0x0123#16 &&
    t.log == [⟨.nativeCall, 0x0123#16⟩]) = true := by decide

/-- C7: an unknown word sends one event and faults. -/
theorem test_unknown_faults : peek (step (fresh 0x5121#16)) (fun t =>
    t.fault == faultAt .illegalOpcode 0x5121#16 0x5121#16 && t.log == [⟨.unknownOpcode, 0x5121#16⟩]) = true := by decide

/-- C27: the last word of memory executes. -/
theorem test_fetch_last_word : peek (step (poke (State.reset.setPc 0xFFE#16) 0xFFE [0x31#8, 0x00#8]))
    (fun t => t.pc == 0x1002#16) = true := by decide

/-- C28: the second byte would lie at 4096. -/
theorem test_fetch_bounds : peek (step (State.reset.setPc 0xFFF#16))
    (fun t => t.fault == some ⟨.fetchBounds, 0xFFF#16, 0#16, 0xFFF#16⟩) = true := by decide

/-! Index register and memory: vectors of section 2.3. -/

/-- M2. -/
theorem test_ldI : peek (step ((fresh 0xAFFF#16).setI 0xFFFF#16)) (fun t => t.i == 0x0FFF#16) = true := by decide

/-- M4: wraps at 16 bits, VF unchanged. -/
theorem test_addI : peek (step ((((fresh 0xF21E#16).setI 0xFFFF#16).setV 2 1#8).setV 15 7#8))
    (fun t => t.i == 0#16 && t.getV 15 == 7#8) = true := by decide

/-- M8: no masking. -/
theorem test_ldF : peek (step ((fresh 0xF329#16).setV 3 0xFF#8)) (fun t => t.i == 0x54B#16) = true := by decide

/-- M11. -/
theorem test_ldHf : peek (step ((fresh 0xF330#16).setV 3 255#8)) (fun t => t.i == 0xA96#16) = true := by decide

/-- M13: the digits at the end of memory. -/
theorem test_ldB : peek (step (((fresh 0xF033#16).setV 0 255#8).setI 4093#16)) (fun t => Memory.read t.mem 4093 == 2#8 &&
    Memory.read t.mem 4094 == 5#8 && Memory.read t.mem 4095 == 5#8 && t.i == 4093#16) = true := by decide

/-- M14: all or nothing. -/
theorem test_ldB_bounds : peek (step (((fresh 0xF033#16).setV 0 255#8).setI 4094#16)) (fun t =>
    t.fault == faultAt .memBounds 0xF033#16 4096#16 && Memory.read t.mem 4094 == 0#8) = true := by decide

/-- M17. -/
theorem test_ldMemVx : peek (step (((((fresh 0xF255#16).setV 0 1#8).setV 1 2#8).setV 2 3#8).setI 0x400#16)) (fun t =>
    Memory.read t.mem 0x400 == 1#8 && Memory.read t.mem 0x401 == 2#8 && Memory.read t.mem 0x402 == 3#8 &&
    t.i == 0x403#16) = true := by decide

/-- M19. -/
theorem test_ldMemVx_bounds : peek (step (((fresh 0xF155#16).setV 0 0xAB#8).setI 0xFFF#16)) (fun t =>
    t.fault == faultAt .memBounds 0xF155#16 4096#16 && Memory.read t.mem 0xFFF == 0#8) = true := by decide

/-- M21. -/
theorem test_ldVxMem : peek (step (poke ((fresh 0xF265#16).setI 0x300#16) 0x300 [2#8, 5#8, 4#8])) (fun t =>
    t.getV 0 == 2#8 && t.getV 1 == 5#8 && t.getV 2 == 4#8 && t.i == 0x303#16) = true := by decide

/-- M22. -/
theorem test_ldVxMem_bounds : peek (step ((fresh 0xF165#16).setI 0x1000#16))
    (fun t => t.fault == faultAt .memBounds 0xF165#16 4096#16) = true := by decide

/-- M25: `I` wraps and is no address here. -/
theorem test_ldRVx : peek (step (((fresh 0xFF75#16).setI 0xFFF8#16).setV 15 0x77#8))
    (fun t => t.getR 15 == 0x77#8 && t.i == 0x0008#16 && t.fault == none) = true := by decide

/-- M24: `V2` unchanged. -/
theorem test_ldVxR : peek (step { (fresh 0xF185#16).setI 0x302#16 with r := (Vector.replicate 16 0).set 1 8#8 |>.set 2 7#8 })
    (fun t => t.getV 1 == 8#8 && t.getV 2 == 0#8 && t.i == 0x304#16) = true := by decide

/-! Timers: vectors of section 2.4, the meanings at a given instant. -/

/-- T2, T3, T6, T7, T9, T11. -/
theorem test_timerValue : timerValue 10#8 (some 1000) 1016 = 10#8 ∧ timerValue 10#8 (some 1000) 1017 = 9#8 ∧
    timerValue 10#8 (some 1000) 1166 = 1#8 ∧ timerValue 10#8 (some 1000) 1167 = 0#8 ∧ timerValue 0#8 none 77 = 0#8 ∧
    timerValue 255#8 (some 0) 4250 = 0#8 := by decide

/-- T15. -/
theorem test_ldDtVx : (((fresh 0xF015#16).setV 0 10#8).armDelayAt 0 1000).dtArmed = 10#8 ∧
    (((fresh 0xF015#16).setV 0 10#8).armDelayAt 0 1000).dtStart = some 1000 := by decide

/-- T16. -/
theorem test_ldStVx : (((fresh 0xF218#16).setV 2 30#8).armSoundAt 2 500).stArmed = 30#8 ∧
    (((fresh 0xF218#16).setV 2 30#8).armSoundAt 2 500).stStart = some 500 := by decide

/-- T17: the timer fields stay. -/
theorem test_ldVxDt : (((fresh 0xF107#16).armDelay 10#8 1000).readDelayAt 1 1017).getV 1 = 9#8 ∧
    (((fresh 0xF107#16).armDelay 10#8 1000).readDelayAt 1 1017).dtStart = some 1000 := by decide

/-! Graphics: vectors of section 2.5. -/

/-- G1 and G2: on, then off with a collision. -/
theorem test_drw_twice :
    peek (step (poke ((((fresh 0xD011#16).setV 0 1#8).setV 1 2#8).setI 0x20E#16) 0x20E [0xC0#8])) (fun t =>
      Gfx.pix t.gfx 1 2 && Gfx.pix t.gfx 2 2 && !Gfx.pix t.gfx 3 2 && t.getV 15 == 0#8 &&
      peek (step (t.setPc 0x200#16)) fun u => !Gfx.pix u.gfx 1 2 && !Gfx.pix u.gfx 2 2 && u.getV 15 == 1#8) = true := by
  decide

/-- G16: the origin in `finfo`, row high, column low. -/
theorem test_drw_high_outside :
    peek (step (poke (((((fresh 0xD010#16).setHgr true).setV 0 50#8).setV 1 17#8).setI 0x300#16) 0x300
      (List.replicate 30 0xFF#8))) (fun t => t.fault == faultAt .fbBounds 0xD010#16 0x1132#16) = true := by decide

/-- G17: VF stays. -/
theorem test_cls : peek (step (lit ((fresh 0x00E0#16).setV 15 1#8) [(3, 3)]))
    (fun t => !Gfx.pix t.gfx 3 3 && t.drawFlag && t.getV 15 == 1#8) = true := by decide

/-- G21: pixels and the flag stay. -/
theorem test_low : peek (step (lit ((fresh 0x00FE#16).setHgr true) [(3, 3)]))
    (fun t => !t.hgr && Gfx.pix t.gfx 3 3 && !t.drawFlag) = true := by decide

/-- G22. -/
theorem test_high : peek (step (fresh 0x00FF#16)) (fun t => t.hgr && !t.drawFlag) = true := by decide

/-- G23: row 0 kept and copied. -/
theorem test_scd : peek (step (lit ((fresh 0x00C2#16).setV 2 1#8) [(3, 0)]))
    (fun t => Gfx.pix t.gfx 3 0 && Gfx.pix t.gfx 3 1 && !Gfx.pix t.gfx 3 2 && t.drawFlag) = true := by decide

/-- G26: a count of 32 moves nothing. -/
theorem test_scd_whole : peek (step (lit ((fresh 0x00C2#16).setV 2 32#8) [(3, 0)]))
    (fun t => Gfx.pix t.gfx 3 0 && !Gfx.pix t.gfx 3 1 && t.drawFlag) = true := by decide

/-- G29, G30. -/
theorem test_stubs : peek (step (fresh 0x00FB#16)) (fun t => t.pc == 0x202#16 && !t.drawFlag) = true ∧
    peek (step (fresh 0x00FC#16)) (fun t => t.pc == 0x202#16 && !t.drawFlag) = true := by decide

/-! Input: vectors of section 2.6. -/

/-- K1, K5. -/
theorem test_skp : peek (step (((fresh 0xE19E#16).setV 1 7#8).refreshInput [7] (some 7))) (fun t => t.pc == 0x204#16) = true ∧
    peek (step ((fresh 0xE19E#16).setV 1 16#8)) (fun t => t.fault == faultAt .keyIndex 0xE19E#16 16#16) = true := by decide

/-- K3, K6. -/
theorem test_sknp : peek (step (((fresh 0xE1A1#16).setV 1 7#8).refreshInput [7] (some 7))) (fun t => t.pc == 0x202#16) = true ∧
    peek (step ((fresh 0xE1A1#16).setV 1 0xFF#8)) (fun t => t.fault == faultAt .keyIndex 0xE1A1#16 255#16) = true := by decide

/-- K7: an idle wait changes nothing. -/
theorem test_ldVxK_idle : peek (step (fresh 0xF10A#16)) (fun t => t.pc == 0x200#16 && t.fault == none && t.draws == 0) = true := by
  decide

/-- K8: the latch stays. -/
theorem test_ldVxK : peek (step ((fresh 0xF10A#16).refreshInput [2, 7] (some 7)))
    (fun t => t.getV 1 == 7#8 && t.pc == 0x202#16 && t.lastKey == some 7 && t.pressed 2) = true := by decide

/-! Host operations: vectors of sections 2.6 and 2.7. -/

/-- K10: a refresh overwrites the latch. -/
theorem test_refresh_overwrites :
    ((State.reset.refreshInput [2, 7] (some 7)).refreshInput [] none).pressed 7 = false ∧
    ((State.reset.refreshInput [2, 7] (some 7)).refreshInput [] none).lastKey = none := by decide

/-- L2: the first and the last byte of each font. -/
theorem test_load_fonts : Config.fontLoData.head? = some 0xF0#8 ∧ Config.fontLoData.getLast? = some 0x80#8 ∧
    Config.fontLoBase + Config.fontLoData.length = 0x0A0 ∧ Config.fontHiBase + Config.fontHiData.length = 0x104 := by decide

/-- L3, L4: the longest image. -/
theorem test_load_limit : maxImage = 3584 ∧ imageFits (List.replicate 2 0x60#8) = true := by decide

/-- L5: an image of odd length. -/
theorem test_load_odd : Memory.read (State.reset.load [0x60#8]).mem 0x200 = 0x60#8 ∧
    Memory.read (State.reset.load [0x60#8]).mem 0x201 = 0#8 := by
  have h : imageFits [0x60#8] = true := by decide
  rw [State.load_fits _ h, State.setMem_mem, Memory.read_writeBlock (Memory.wf_writeBlock (Memory.wf_writeBlock rfl
    (by decide)) (by decide)) (by decide), Memory.read_writeBlock (Memory.wf_writeBlock (Memory.wf_writeBlock rfl
    (by decide)) (by decide)) (by decide)]
  refine ⟨rfl, ?_⟩
  rw [if_neg (by decide), Memory.read_writeBlock (Memory.wf_writeBlock rfl (by decide)) (by decide),
    if_neg (by decide), Memory.read_writeBlock rfl (by decide), if_neg (by decide)]
  rfl

/-! Witnesses: for every statement with hypotheses, a state and operands that meet them; one for each clause. -/

/-- A state far from reset that meets every clause of the invariant: in a subroutine, a timer armed, a key held, memory
written. -/
def busy : State :=
  { (poke State.reset 0x300 [1#8, 2#8]).refreshInput [4] (some 4) with
    pc := 0x300#16, sp := 1, stack := (Vector.replicate 16 0).set 0 0x204#16, clock := 9, dtArmed := 7#8, dtStart := some 5 }

theorem busy_inv : busy.Inv where
  mem := by decide
  clock := ⟨fun t (h : some 5 = some t) => by cases h; decide, fun t (h : none = some t) => by cases h⟩
  latch := ⟨by decide, by decide⟩
  stack := by unfold State.StackOk; decide
  pc := by unfold State.PcOk; decide

/-- A session on a faulted machine, and one on a halted machine. -/
def faulted : Session := { Session.initial with state := State.reset.withFault .illegalOpcode 0#16 0#16 }

def halted : Session := { Session.initial with state := State.reset.setPc 0xFFFF#16 }

theorem witness_EveryInstructionRoundTrips :
    (Instr.sys 0x100#12).wellFormed = true ∧ (Instr.drw 15 15 15#4).wellFormed = true := by decide

theorem witness_DecodedWordsEncodeBack : decodeWord 0x8FF4#16 = .ok (.addReg 15 15) := by decide

theorem witness_UnknownWordsAreExactlyTheListed : isUnknownWord 0x0000#16 ∧ State.reset.runState = .running ∧
    State.reset.pc.toNat ≤ 4094 ∧ Memory.read State.reset.mem State.reset.pc.toNat ++
      Memory.read State.reset.mem (State.reset.pc.toNat + 1) = 0x0000#16 := by
  unfold isUnknownWord; decide

/-- The last address an instruction can be fetched from. -/
def lastWord : State := poke (State.reset.setPc 0xFFE#16) 0xFFE [0x31#8, 0x00#8]

theorem witness_StepRunsTheDecodedInstruction : lastWord.runState = .running ∧ lastWord.pc.toNat = 4094 ∧
    decode [Memory.read lastWord.mem lastWord.pc.toNat, Memory.read lastWord.mem (lastWord.pc.toNat + 1)] =
      .ok (.seImm 1 0, []) := by decide

theorem witness_StepHasTheSpecifiedLines :
    faulted.state.fault ≠ none ∧ (halted.state.fault = none ∧ halted.state.pc = Config.pcExit) ∧
    (let s := State.reset.setPc 0xFFF#16; s.fault = none ∧ s.pc ≠ Config.pcExit ∧ 4094 < s.pc.toNat) ∧
    (lastWord.fault = none ∧ lastWord.pc ≠ Config.pcExit ∧ lastWord.pc.toNat ≤ 4094 ∧
      decodeWord 0x3100#16 = .ok (.seImm 1 0)) ∧
    (State.reset.pc ≠ Config.pcExit ∧ decodeWord 0x0000#16 = .error (.unknownOpcode 0)) := by decide

/-- One RUNNING state for each cause, in the order of the codes; a step of it faults. -/
def faulting : List State :=
  [fresh 0x5121#16, fresh 0x0123#16, State.reset.setPc 0xFFF#16, (fresh 0xF033#16).setI 4094#16,
    poke (((fresh 0xD011#16).setV 0 57#8).setI 0x300#16) 0x300 [0xFF#8], { fresh 0x2ABC#16 with sp := 15 },
    fresh 0x00EE#16, (fresh 0xE19E#16).setV 1 16#8]

/-- The hypotheses of `FaultEntryWritesOnlyTheRecord` and of `EveryFaultHasItsCauseAndInfo`, for each cause. -/
theorem witness_faults : ∀ s ∈ faulting, s.fault = none ∧ s.runState = .running ∧
    ∃ t, step s = .next t ∧ t.fault ≠ none := by
  have h : ∀ s ∈ faulting, s.fault = none ∧ s.runState = .running ∧
    peek (step s) (fun t => decide (t.fault ≠ none)) = true := by decide
  exact fun s hs => ⟨(h s hs).1, (h s hs).2.1, (peek_next (h s hs).2.2).imp fun t ht => ⟨ht.1, of_decide_eq_true ht.2⟩⟩

/-- The causes are all eight, and a step can also leave none. -/
theorem witness_causes :
    (faulting.map fun s => peek (step s) fun t => t.fault.isSome) = List.replicate 8 true ∧
    (faulting.map fun s => (s.expectedRecord.map (·.cause.code)).getD 0) = [1, 2, 3, 4, 5, 6, 7, 8] ∧
    peek (step (fresh 0x6F12#16)) (fun t => t.fault == none) = true := by decide

theorem witness_OnlyResetLeavesFaulted : faulted.state.fault ≠ none ∧ HostOp.reset ∉ [HostOp.step, HostOp.ackDraw] ∧
    (∃ τ, faulted.applyAll [.step, .ackDraw] = .next τ) ∧ faulted.state.runState ≠ .running ∧
    halted.state.runState ≠ .running ∧ (4 : Key) ∈ [(4 : Key)] ∧ faulted.state.clock ≤ 0 :=
  ⟨by decide, by decide, ⟨_, rfl⟩, by decide, by decide, by decide, by decide⟩

theorem witness_OnlyResetLeavesHalted : halted.state.runState = .halted ∧ HostOp.reset ∉ [HostOp.step, HostOp.readStatus 5] ∧
    ∃ τ, halted.applyAll [.step, .readStatus 5] = .next τ :=
  ⟨by decide, by decide, _, rfl⟩

theorem witness_OnlyExitHalts : (fresh 0x00FD#16).StackOk ∧ (fresh 0x00FD#16).runState = .running ∧
    ∃ t, step (fresh 0x00FD#16) = .next t ∧ t.runState = .halted := by
  refine ⟨by unfold State.StackOk; decide, by decide, ?_⟩
  exact (peek_next (f := fun t => decide (t.runState = .halted)) (by decide)).imp fun t h => ⟨h.1, of_decide_eq_true h.2⟩

theorem witness_StepKeepsTheInvariant : busy.Inv ∧ busy.runState = .running ∧ ∃ t, step busy = .next t :=
  ⟨busy_inv, by decide, (peek_next (f := fun _ => true) (by decide)).imp fun _ h => h.1⟩

theorem witness_ReachableStatesMeetTheInvariant : ∃ σ, Reachable σ ∧ σ.state.lastKey = some 7 ∧ σ.phase = .fresh :=
  ⟨_, .apply .ackDraw (.apply (.refreshInput [2, 7] (some 7)) .initial rfl) rfl, rfl, rfl⟩

theorem witness_LastStackSlotIsNeverWritten : (∃ t, step { fresh 0x2ABC#16 with sp := 14 } = .next t) ∧
    HostOp.step ≠ .reset ∧ ∃ τ, Session.initial.apply .step = .next τ :=
  ⟨(peek_next (f := fun _ => true) (by decide)).imp fun _ h => h.1, by decide, _, rfl⟩

/-- Each clause of `EachStateHasItsOwnWriters`: an instruction that changes that piece of state. -/
theorem witness_EachStateHasItsOwnWriters :
    peek (exec (.ldRVx 0) (State.reset.setV 0 1#8)) (fun t => t.getR 0 != State.reset.getR 0) = true ∧
    peek (exec (.ldI 5#12) State.reset) (fun t => t.i != 0#16) = true ∧
    peek (exec (.ldB 0) ((State.reset.setV 0 255#8).setI 0x300#16)) (fun t => t.mem != []) = true ∧
    peek (exec .cls (lit State.reset [(3, 3)])) (fun t => !Gfx.pix t.gfx 3 3 && t.drawFlag) = true ∧
    Gfx.pix (lit State.reset [(3, 3)]).gfx 3 3 = true ∧
    peek (exec .high State.reset) (fun t => t.hgr) = true ∧
    peek (exec (.ldDtVx 0) (State.reset.setV 0 1#8)) (fun t => t.dtArmed != 0#8) = true ∧
    peek (exec (.ldStVx 0) (State.reset.setV 0 1#8)) (fun t => t.stArmed != 0#8) = true ∧
    peek (exec .ret { State.reset with sp := 1 }) (fun t => t.sp != 1) = true ∧
    peek (exec (.call 5#12) State.reset) (fun t => t.slot 0 != State.reset.slot 0) = true ∧
    peek (exec (.ldImm 0 5#8) State.reset) (fun t => t.getV 0 != State.reset.getV 0) = true ∧
    peek (exec .ret State.reset) (fun t => t.fault != none) = true := by decide

/-- Three registers that differ, one of them VF: the clauses `x ≠ 15`, `z ≠ x`, `z ≠ 15` of the arithmetic statements. -/
theorem witness_registers : (0 : Reg) ≠ 15 ∧ (1 : Reg) ≠ 0 ∧ (1 : Reg) ≠ 15 := by decide

theorem witness_RegisterSkipsCompare : (1 : BitVec 4) ≠ 0 ∧ (15 : BitVec 4) ≠ 0 := by decide

theorem witness_CallPushesItsOwnAddress : ({ State.reset with sp := 14 } : State).sp.val < 15 ∧
    ({ State.reset with sp := 15 } : State).sp.val = 15 ∧ (13 : Fin 16) ≠ 14 := by decide

theorem witness_ReturnResumesAfterTheCall : ({ State.reset with sp := 1 } : State).sp.val = (0 : Fin 16).val + 1 ∧
    ({ State.reset with sp := 15 } : State).sp.val = (14 : Fin 16).val + 1 ∧ State.reset.sp = 0 := by decide

theorem witness_CallThenReturnComesBack : ({ State.reset with sp := 14 } : State).sp.val < 15 := by decide

theorem witness_ExitHaltsTheMachine : State.reset.fault = none := by decide

/-- Both sides of the boundary of the row `SYS nnn`. -/
theorem witness_NativeCallFaults : decodeWord 0x0100#16 = .ok (.sys 0x100#12) ∧ (256 ≤ (0x100#12 : Addr12).toNat) ∧
    decodeWord 0x00FF#16 = .ok .high ∧ ¬256 ≤ (0x0FF#12 : Addr12).toNat := by decide

theorem witness_BcdStoresThreeDigits : Memory.wf State.reset.mem = true ∧ (State.reset.setI 4093#16).i.toNat + 2 < 4096 ∧
    4096 ≤ (State.reset.setI 4094#16).i.toNat + 2 := by decide

/-- `BlockStoreWritesTheRegisters` and `BlockLoadReadsTheRegisters`: the last block that fits and the first that does not,
one register and all sixteen. -/
theorem witness_blocks : Memory.wf State.reset.mem = true ∧
    (State.reset.setI 4080#16).i.toNat + (15 : Reg).val < 4096 ∧ 4096 ≤ (State.reset.setI 4081#16).i.toNat + (15 : Reg).val ∧
    (State.reset.setI 4095#16).i.toNat + (0 : Reg).val < 4096 ∧ 4096 ≤ (State.reset.setI 4096#16).i.toNat + (0 : Reg).val ∧
    (2 : Reg) ≤ 2 ∧ (2 : Reg) < 3 := by decide

theorem witness_PersistentRegistersAreSavedAndLoaded : (2 : Reg) ≤ 2 ∧ (2 : Reg) < 3 := by decide

/-- Program P8's step 4: the store writes the next instruction. -/
theorem witness_StoreIsSeenByTheNextFetch :
    let s := (State.reset.setV 1 0xFD#8).setI 0x202#16
    Memory.wf s.mem = true ∧ s.runState = .running ∧ s.i.toNat + (1 : Reg).val < 4096 ∧ (1 : Reg).val = (0 : Reg).val + 1 ∧
    (1 : Reg) ≤ 1 ∧ (s.pc + 2).toNat = s.i.toNat + (0 : Reg).val ∧ decodeWord (s.getV 0 ++ s.getV 1) = .ok .exit := by decide

/-- T7 and T6: the first instant at 0 and the last before it. -/
theorem witness_TimerValueHasTheFormula : 1000 ≤ 1167 ∧ (10#8).toNat ≤ (1167 - 1000) * 60 / 1000 ∧ 1000 ≤ 1166 ∧
    (1166 - 1000) * 60 / 1000 < (10#8).toNat := by decide

theorem witness_TimersOnlyCountDown : (∃ t, step State.reset = .next t) ∧ 1016 ≤ 1017 := ⟨⟨_, rfl⟩, by decide⟩

/-- A low-resolution draw of one row: `V0` is the column, `V1` the row, the byte at 0x300 the row's bits. -/
def lowDraw (c r b : Byte) : State := poke (((State.reset.setV 0 c).setV 1 r).setI 0x300#16) 0x300 [b]

/-- The clauses of `LowResolutionDraw`: both kinds of low-resolution draw; memory outside and just inside (G9, G8); no row
although `I` lies outside; a set bit outside the grid (G3) or below it; all inside (G4); the pixel under a set bit lit and
not lit. -/
theorem witness_LowResolutionDraw :
    ¬((State.reset.setHgr false).hgr = true ∧ (0#4 : Nibble) = 0) ∧ ¬((State.reset.setHgr true).hgr = true ∧ (1#4 : Nibble) = 0) ∧
    (1 ≤ (2#4 : Nibble).toNat ∧ 4096 ≤ (State.reset.setI 0xFFF#16).i.toNat + (2#4 : Nibble).toNat - 1) ∧
    (State.reset.setI 0xFFF#16).i.toNat + (1#4 : Nibble).toNat - 1 < 4096 ∧ (0#4 : Nibble).toNat = 0 ∧
    (let s := lowDraw 57 0 0xFF#8
     s.i.toNat + (1#4 : Nibble).toNat - 1 < 4096 ∧ ∃ row, row < (1#4 : Nibble).toNat ∧ ∃ col, col < 8 ∧
      (Memory.read s.mem (s.i.toNat + row)).getLsbD (7 - col) = true ∧
      (64 ≤ (s.getV 0).toNat + col ∨ 32 ≤ (s.getV 1).toNat + row)) ∧
    (let s := lowDraw 0 32 0x80#8
     ∃ row, row < (1#4 : Nibble).toNat ∧ ∃ col, col < 8 ∧ (Memory.read s.mem (s.i.toNat + row)).getLsbD (7 - col) = true ∧
      (64 ≤ (s.getV 0).toNat + col ∨ 32 ≤ (s.getV 1).toNat + row)) ∧
    (let s := lowDraw 57 0 0xFE#8
     (∀ row, row < (1#4 : Nibble).toNat → ∀ col, col < 8 → (Memory.read s.mem (s.i.toNat + row)).getLsbD (7 - col) = true →
      (s.getV 0).toNat + col < 64 ∧ (s.getV 1).toNat + row < 32) ∧
      Gfx.pix (lit s [(57, 0)]).gfx 57 0 = true ∧ Gfx.pix s.gfx 57 0 = false) := by decide

/-- A high-resolution draw at `(V0, V1)` of 30 bytes 0xFF. -/
def highDraw (c r : Byte) : State :=
  poke ((((State.reset.setHgr true).setV 0 c).setV 1 r).setI 0x300#16) 0x300 (List.replicate 30 0xFF#8)

/-- The clauses of `HighResolutionDraw`: memory outside and just inside (G19, G18); a corner outside and just inside the grid
(G16, G15). -/
theorem witness_HighResolutionDraw : (highDraw 50 17).hgr = true ∧
    4096 ≤ ((State.reset.setHgr true).setI 4067#16).i.toNat + 29 ∧ ((State.reset.setHgr true).setI 4066#16).i.toNat + 29 < 4096 ∧
    (let s := highDraw 50 17
     (Memory.read s.mem (s.i.toNat + 2 * 0) ++ Memory.read s.mem (s.i.toNat + 2 * 0 + 1) : Word).getLsbD (15 - 14) = true ∧
      64 ≤ (s.getV 0).toNat + 14) ∧
    (let s := highDraw 49 17
     (∀ col, col < 15 → (s.getV 0).toNat + col < 64) ∧ (∀ row, row < 15 → (s.getV 1).toNat + row < 32) ∧
      (Memory.read s.mem (s.i.toNat + 2 * 14) ++ Memory.read s.mem (s.i.toNat + 2 * 14 + 1) : Word).getLsbD (15 - 14) = true) := by
  decide

/-- G1, the first of two draws. -/
theorem witness_DrawingTwiceRestoresTheScreen : ∃ s t : State, exec (.drw 0 1 1#4) s = .next t ∧ t.fault = none ∧
    t.getV 0 = s.getV 0 ∧ t.getV 1 = s.getV 1 := by
  refine ⟨poke (((State.reset.setV 0 1#8).setV 1 2#8).setI 0x20E#16) 0x20E [0xC0#8], ?_⟩
  exact (peek_next (f := fun t => decide (t.fault = none ∧ t.getV 0 = 1#8 ∧ t.getV 1 = 2#8)) (by decide)).imp
    fun t h => ⟨h.1, of_decide_eq_true h.2⟩

theorem witness_ScrollDownMovesTheRows : ((State.reset.setV 2 31#8).getV 2).toNat ≤ 31 ∧
    30 < ((State.reset.setV 2 31#8).getV 2).toNat := by decide

theorem witness_KeySkipsReadTheLatch : ((State.reset.setV 1 15#8).getV 1).toNat = (15 : Key).val ∧
    16 ≤ ((State.reset.setV 1 16#8).getV 1).toNat := by decide

theorem witness_KeyWaitPollsTheLatch : (State.reset.refreshInput [2, 7] (some 7)).lastKey = some 7 ∧
    State.reset.lastKey = none := by decide

theorem witness_RefreshOverwritesTheLatch : (7 : Key) ∈ [(2 : Key), 7] ∧ ([] : List Key) = [] := by decide

/-- Each breach, and each operation inside the contract. -/
theorem witness_OnlyContractBreachesAreRefused : [(3 : Key)] ≠ [] ∧ (7 : Key) ∉ [(3 : Key)] ∧ 8 < busy.clock ∧
    ({ Session.initial with phase := .started } : Session).phase ≠ .fresh ∧
    ({ Session.initial with phase := .loadFailed } : Session).phase = .loadFailed ∧ Session.initial.phase = .fresh ∧
    Session.initial.phase ≠ .loadFailed := by decide

theorem witness_ResetLeavesTheSpecifiedValues : ∃ s t : State, t ≠ State.reset ∧ t = s.hostReset :=
  ⟨busy, busy.hostReset, by decide, rfl⟩

theorem witness_LoadInstallsFontsThenTheImage : Memory.wf State.reset.mem = true ∧
    (List.replicate 3584 0#8).length ≤ 4096 - Config.progBase.toNat ∧
    4096 - Config.progBase.toNat < (List.replicate 3585 0#8).length :=
  ⟨rfl, by rw [List.length_replicate]; decide, by rw [List.length_replicate]; decide⟩

theorem witness_PortsReportTheState : ∃ τ, Session.initial.apply (.readStatus 0) = .next τ := ⟨_, rfl⟩

/-- The last sampled instant itself, and a later one. -/
theorem witness_StatusReadIsASample : Session.initial.state.clock ≤ 0 ∧ busy.clock ≤ 9 ∧ busy.clock ≤ 10 := by decide

end Sys2Proof.Machine.Tests
end

section
/-! PROOFS. What an instruction can change: one table of writers (10_state.md R39), held to `exec` by one theorem. Every
statement about what an instruction leaves alone is a use of it. -/

namespace Sys2Proof.Machine

/-! What is the same in two states, field by field. -/

/-- The fields of the piece are equal in both states: `Part.same` without its reading of memory and framebuffer by
single bytes and pixels. -/
@[simp] def Part.kept : Part → State → State → Prop
  | .v, s, t => t.v = s.v
  | .r, s, t => t.r = s.r
  | .index, s, t => t.i = s.i
  | .pc, s, t => t.pc = s.pc
  | .sp, s, t => t.sp = s.sp
  | .stack, s, t => t.stack = s.stack
  | .mem, s, t => t.mem = s.mem
  | .gfx, s, t => t.gfx = s.gfx
  | .hgr, s, t => t.hgr = s.hgr
  | .delay, s, t => t.dtArmed = s.dtArmed ∧ t.dtStart = s.dtStart
  | .sound, s, t => t.stArmed = s.stArmed ∧ t.stStart = s.stStart
  | .keys, s, t => t.key = s.key ∧ t.lastKey = s.lastKey
  | .drawFlag, s, t => t.drawFlag = s.drawFlag
  | .fault, s, t => t.fault = s.fault
  | .env, s, t => t.clock = s.clock ∧ t.draws = s.draws
  | .log, s, t => t.log = s.log

/-- Every field outside the listed pieces is equal in both states. -/
def ChangesOnly (written : List Part) (s t : State) : Prop := ∀ p : Part, p ∉ written → p.kept s t

theorem Part.kept_refl (p : Part) (s : State) : p.kept s s := by cases p <;> simp

theorem ChangesOnly.refl (written : List Part) (s : State) : ChangesOnly written s s := fun p _ => p.kept_refl s

theorem ChangesOnly.mono {written more : List Part} {s t : State} (h : ChangesOnly written s t)
    (hsub : written ⊆ more) : ChangesOnly more s t := fun p hp => h p fun hw => hp (hsub hw)

theorem Part.same_of_kept {p : Part} {s t : State} (h : p.kept s t) : p.same s t := by
  cases p <;> simp_all [Part.same, State.getV, State.getR, State.slot, State.pressed]

theorem ChangesOnly.frame {written : List Part} {s t : State} (h : ChangesOnly written s t) : Frame written s t :=
  fun p hp => Part.same_of_kept (h p hp)

theorem forall_part {P : Part → Prop} :
    (∀ p, P p) ↔ (P .v ∧ P .r ∧ P .index ∧ P .pc ∧ P .sp ∧ P .stack ∧ P .mem ∧ P .gfx ∧ P .hgr ∧ P .delay ∧ P .sound ∧
      P .keys ∧ P .drawFlag ∧ P .fault ∧ P .env ∧ P .log) := by
  refine ⟨fun h => by simp [h], fun h p => ?_⟩
  cases p <;> simp [h]

/-! Faults. -/

/-- The second state is the first with a fault taken. -/
def RaisedFrom (s t : State) : Prop := ∃ c op n, t = s.raise c op n

theorem raise_changesOnly (s : State) (c : FaultCause) (op : Word) (n : Nat) :
    ChangesOnly [.fault] s (s.raise c op n) := by
  simp [ChangesOnly, forall_part]

theorem raise_emit_changesOnly (s : State) (l : LogCode) (w : Word) (c : FaultCause) (op : Word) (n : Nat) :
    ChangesOnly [.fault, .log] s ((s.emit l w).raise c op n) := by
  simp [ChangesOnly, forall_part]

/-! The meanings with more than one way, each inverted once. -/

theorem state_of_next {s t : State} (h : (.next s : Result) = .next t) : t = s := (Host.Outcome.next.inj h).symm

theorem execCall_cases {nnn : Addr12} {s t : State} (h : exec (.call nnn) s = .next t) :
    (s.sp.val < 15 ∧ t = (s.push s.pc).setPc (addrOf nnn)) ∨ RaisedFrom s t := by
  by_cases hsp : s.sp.val < 15
  · exact .inl ⟨hsp, state_of_next ((execCall_below nnn hsp).symm.trans h)⟩
  · exact .inr ⟨_, _, _, state_of_next ((execCall_full nnn (by omega)).symm.trans h)⟩

theorem execRet_cases {s t : State} (h : exec .ret s = .next t) :
    (s.sp ≠ 0 ∧ t = s.pop.setPc (s.slot (s.sp - 1) + 2)) ∨ RaisedFrom s t := by
  by_cases hsp : s.sp = 0
  · exact .inr ⟨_, _, _, state_of_next ((execRet_empty hsp).symm.trans h)⟩
  · exact .inl ⟨hsp, state_of_next ((execRet_nonempty hsp).symm.trans h)⟩

theorem execLdB_cases {x : Reg} {s t : State} (h : exec (.ldB x) s = .next t) :
    (s.i.toNat + 3 ≤ 4096 ∧ t = (s.setMem (Memory.writeBlock s.mem s.i.toNat (bcdDigits (s.getV x)))).advance) ∨
      RaisedFrom s t := by
  by_cases hi : s.i.toNat + 3 ≤ 4096
  · exact .inl ⟨hi, state_of_next ((execLdB_fits x hi).symm.trans h)⟩
  · exact .inr ⟨_, _, _, state_of_next ((execLdB_outside x hi).symm.trans h)⟩

theorem execLdMemVx_cases {x : Reg} {s t : State} (h : exec (.ldMemVx x) s = .next t) :
    (s.i.toNat + x.val + 1 ≤ 4096 ∧
      t = ((s.setMem (Memory.writeBlock s.mem s.i.toNat (s.block x))).bumpI x).advance) ∨
      RaisedFrom s t := by
  by_cases hi : s.i.toNat + x.val + 1 ≤ 4096
  · exact .inl ⟨hi, state_of_next ((execLdMemVx_fits x hi).symm.trans h)⟩
  · exact .inr ⟨_, _, _, state_of_next ((execLdMemVx_outside x hi).symm.trans h)⟩

theorem execLdVxMem_cases {x : Reg} {s t : State} (h : exec (.ldVxMem x) s = .next t) :
    (s.i.toNat + x.val + 1 ≤ 4096 ∧
      t = ((s.loadV x fun k => Memory.read s.mem (s.i.toNat + k.val)).bumpI x).advance) ∨
      RaisedFrom s t := by
  by_cases hi : s.i.toNat + x.val + 1 ≤ 4096
  · exact .inl ⟨hi, state_of_next ((execLdVxMem_fits x hi).symm.trans h)⟩
  · exact .inr ⟨_, _, _, state_of_next ((execLdVxMem_outside x hi).symm.trans h)⟩

theorem execDrw_cases {x y : Reg} {n : Nibble} {s t : State} (h : exec (.drw x y n) s = .next t) :
    t = (((s.setGfx (Gfx.flipAll s.gfx (s.sprite x y n))).setV regF
      (flagByte (Gfx.anyLit s.gfx (s.sprite x y n)))).markDrawn).advance ∨ RaisedFrom s t := by
  cases hm : blockInBounds s.i.toNat (s.spriteLength n) with
  | false => exact .inr ⟨_, _, _, state_of_next ((execDrw_outsideMemory x y n hm).symm.trans h)⟩
  | true =>
    cases hg : (s.sprite x y n).all Pixel.inGrid with
    | false => exact .inr ⟨_, _, _, state_of_next ((execDrw_outsideGrid x y n hm hg).symm.trans h)⟩
    | true => exact .inl (state_of_next ((execDrw_draws x y n hm hg).symm.trans h))

theorem execSkp_cases {x : Reg} {s t : State} (h : exec (.skp x) s = .next t) :
    (∃ c, t = s.skipIf c) ∨ RaisedFrom s t := by
  change execSkp x s = .next t at h
  cases hk : s.keyOf x <;> rw [execSkp, hk] at h
  · exact .inr ⟨_, _, _, state_of_next h⟩
  · exact .inl ⟨_, state_of_next h⟩

theorem execSknp_cases {x : Reg} {s t : State} (h : exec (.sknp x) s = .next t) :
    (∃ c, t = s.skipIf c) ∨ RaisedFrom s t := by
  change execSknp x s = .next t at h
  cases hk : s.keyOf x <;> rw [execSknp, hk] at h
  · exact .inr ⟨_, _, _, state_of_next h⟩
  · exact .inl ⟨_, state_of_next h⟩

theorem execLdVxK_cases {x : Reg} {s t : State} (h : exec (.ldVxK x) s = .next t) :
    (∃ b, t = s.finish x b) ∨ t = s := by
  change execLdVxK x s = .next t at h
  cases hk : s.lastKey <;> rw [execLdVxK, hk] at h
  · exact .inr (state_of_next h)
  · exact .inl ⟨_, state_of_next h⟩

/-! The table of writers. -/

/-- The pieces an instruction may write, on any of its ways (the tables of 10_state.md R39 and 60_exceptions.md R230 read
by instruction). -/
@[simp] def writtenBy : Instr → List Part
  | .scr | .scl | .exit | .jp _ | .jpV0 _ | .seImm _ _ | .sneImm _ _ | .seReg _ _ | .sneReg _ _ => [.pc]
  | .ldImm _ _ | .addImm _ _ | .ldReg _ _ | .orReg _ _ | .andReg _ _ | .xorReg _ _ | .addReg _ _ | .subReg _ _
  | .shrReg _ _ | .subnReg _ _ | .shlReg _ _ | .ldVxK _ => [.v, .pc]
  | .rnd _ _ | .ldVxDt _ => [.v, .pc, .env]
  | .ldDtVx _ => [.delay, .pc, .env]
  | .ldStVx _ => [.sound, .pc, .env]
  | .ldI _ | .addI _ | .ldF _ | .ldHf _ => [.index, .pc]
  | .ldRVx _ => [.r, .index, .pc]
  | .ldVxR _ => [.v, .index, .pc]
  | .low | .high => [.hgr, .pc]
  | .cls | .scd _ => [.gfx, .drawFlag, .pc]
  | .sys _ => [.fault, .log]
  | .skp _ | .sknp _ => [.pc, .fault]
  | .ret => [.sp, .pc, .fault]
  | .call _ => [.stack, .sp, .pc, .fault]
  | .ldB _ => [.mem, .pc, .fault]
  | .ldMemVx _ => [.mem, .index, .pc, .fault]
  | .ldVxMem _ => [.v, .index, .pc, .fault]
  | .drw _ _ _ => [.gfx, .v, .drawFlag, .pc, .fault]

/-- A fault that the table allows the instruction keeps to the table. -/
theorem RaisedFrom.changesOnly {i : Instr} {s t : State} (h : RaisedFrom s t) (hi : Part.fault ∈ writtenBy i) :
    ChangesOnly (writtenBy i) s t := by
  obtain ⟨c, op, n, rfl⟩ := h
  exact (raise_changesOnly s c op n).mono (by simpa using hi)

/-- Every instruction keeps to the table, in every state. -/
theorem exec_changesOnly {i : Instr} {s t : State} (h : exec i s = .next t) : ChangesOnly (writtenBy i) s t := by
  cases i with
  | scd | cls | scr | scl | exit | low | high | jp | seImm | sneImm | seReg | sneReg | ldImm | addImm | ldReg | orReg
  | andReg | xorReg | addReg | subReg | shrReg | subnReg | shlReg | ldI | jpV0 | addI | ldF | ldHf | ldRVx | ldVxR =>
    obtain rfl := state_of_next h
    simp [ChangesOnly, forall_part]
  | rnd | ldVxDt | ldDtVx | ldStVx =>
    obtain rfl := state_of_next h
    simp [ChangesOnly, forall_part, State.randomize, State.readDelayAt, State.armDelayAt,
      State.armSoundAt]
  | sys nnn =>
    obtain rfl := state_of_next h
    exact raise_emit_changesOnly s _ _ _ _ _
  | call nnn =>
    rcases execCall_cases h with ⟨-, rfl⟩ | hf
    · simp [ChangesOnly, forall_part]
    · exact hf.changesOnly (by simp)
  | ret =>
    rcases execRet_cases h with ⟨-, rfl⟩ | hf
    · simp [ChangesOnly, forall_part]
    · exact hf.changesOnly (by simp)
  | ldB x =>
    rcases execLdB_cases h with ⟨-, rfl⟩ | hf
    · simp [ChangesOnly, forall_part]
    · exact hf.changesOnly (by simp)
  | ldMemVx x =>
    rcases execLdMemVx_cases h with ⟨-, rfl⟩ | hf
    · simp [ChangesOnly, forall_part]
    · exact hf.changesOnly (by simp)
  | ldVxMem x =>
    rcases execLdVxMem_cases h with ⟨-, rfl⟩ | hf
    · simp [ChangesOnly, forall_part]
    · exact hf.changesOnly (by simp)
  | drw x y n =>
    rcases execDrw_cases h with rfl | hf
    · simp [ChangesOnly, forall_part]
    · exact hf.changesOnly (by simp)
  | skp x =>
    rcases execSkp_cases h with ⟨c, rfl⟩ | hf
    · simp [ChangesOnly, forall_part]
    · exact hf.changesOnly (by simp)
  | sknp x =>
    rcases execSknp_cases h with ⟨c, rfl⟩ | hf
    · simp [ChangesOnly, forall_part]
    · exact hf.changesOnly (by simp)
  | ldVxK x =>
    rcases execLdVxK_cases h with ⟨b, rfl⟩ | rfl
    · simp [ChangesOnly, forall_part]
    · exact ChangesOnly.refl _ _

end Sys2Proof.Machine
end

section
/-! PROOFS. The table of writers read by piece of state (10_state.md R39), and the statement about it. -/

namespace Sys2Proof.Machine

theorem writes_r {i : Instr} (h : Part.r ∈ writtenBy i) : ∃ x, i = .ldRVx x := by
  cases i <;> simp at h ⊢

theorem writes_index {i : Instr} (h : Part.index ∈ writtenBy i) : (∃ n, i = .ldI n) ∨
    ∃ x, i ∈ [.addI x, .ldF x, .ldHf x, .ldMemVx x, .ldVxMem x, .ldRVx x, .ldVxR x] := by
  cases i <;> simp at h ⊢

theorem writes_mem {i : Instr} (h : Part.mem ∈ writtenBy i) : ∃ x, i = .ldB x ∨ i = .ldMemVx x := by
  cases i <;> simp at h ⊢

theorem writes_gfx {i : Instr} (h : Part.gfx ∈ writtenBy i) :
    i = .cls ∨ (∃ n, i = .scd n) ∨ ∃ x y n, i = .drw x y n := by
  cases i <;> simp at h ⊢

theorem writes_hgr {i : Instr} (h : Part.hgr ∈ writtenBy i) : i = .low ∨ i = .high := by
  cases i <;> simp at h ⊢

theorem writes_delay {i : Instr} (h : Part.delay ∈ writtenBy i) : ∃ x, i = .ldDtVx x := by
  cases i <;> simp at h ⊢

theorem writes_sound {i : Instr} (h : Part.sound ∈ writtenBy i) : ∃ x, i = .ldStVx x := by
  cases i <;> simp at h ⊢

theorem writes_sp {i : Instr} (h : Part.sp ∈ writtenBy i) : i = .ret ∨ ∃ n, i = .call n := by
  cases i <;> simp at h ⊢

theorem writes_stack {i : Instr} (h : Part.stack ∈ writtenBy i) : ∃ n, i = .call n := by
  cases i <;> simp at h ⊢

theorem writes_drawFlag {i : Instr} (h : Part.drawFlag ∈ writtenBy i) :
    i = .cls ∨ (∃ n, i = .scd n) ∨ ∃ x y n, i = .drw x y n := by
  cases i <;> simp at h ⊢

/-- No instruction writes the key latch: `refresh_input` alone does (46_input.md R220). -/
theorem keys_not_written (i : Instr) : Part.keys ∉ writtenBy i := by
  cases i <;> simp

theorem writes_env {i : Instr} (h : Part.env ∈ writtenBy i) :
    (∃ x kk, i = .rnd x kk) ∨ ∃ x, i = .ldVxDt x ∨ i = .ldDtVx x ∨ i = .ldStVx x := by
  cases i <;> simp at h ⊢

theorem writes_v {i : Instr} (h : Part.v ∈ writtenBy i) :
    ∃ x y kk n, i ∈ [.ldImm x kk, .addImm x kk, .ldReg x y, .orReg x y, .andReg x y, .xorReg x y, .addReg x y,
      .subReg x y, .shrReg x y, .subnReg x y, .shlReg x y, .rnd x kk, .ldVxDt x, .ldVxK x, .ldVxMem x, .ldVxR x,
      .drw x y n] := by
  cases i <;> simp at h ⊢

theorem writes_fault {i : Instr} (h : Part.fault ∈ writtenBy i) :
    ∃ x y n nnn, i ∈ [.sys nnn, .call nnn, .ret, .ldB x, .ldMemVx x, .ldVxMem x, .drw x y n, .skp x, .sknp x] := by
  cases i <;> simp at h ⊢

/-- A piece that differs after the instruction is one the table lists for it. -/
theorem written_of_not_kept {i : Instr} {s t : State} {p : Part} (h : exec i s = .next t) (hp : ¬p.kept s t) :
    p ∈ writtenBy i := by
  by_contra hn
  exact hp (exec_changesOnly h p hn)

/-- `draw_flag` is only ever set by an instruction (45_graphics.md R211). -/
theorem exec_sets_drawFlag {i : Instr} {s t : State} (h : exec i s = .next t) (hd : t.drawFlag ≠ s.drawFlag) :
    t.drawFlag = true := by
  rcases writes_drawFlag (written_of_not_kept h (p := .drawFlag) hd) with rfl | ⟨n, rfl⟩ | ⟨x, y, n, rfl⟩
  · rw [state_of_next h]; rfl
  · rw [state_of_next h]; rfl
  · rcases execDrw_cases h with rfl | ⟨c, op, k, rfl⟩
    · rfl
    · exact absurd rfl hd

/-- Settles O18: what differs is in the instruction's row of the table of writers, and the table read by piece is the
spec's list. -/
theorem eachStateHasItsOwnWriters : Obligations.EachStateHasItsOwnWriters := by
  intro i s t h
  have row (p : Part) (hp : ¬p.kept s t) : p ∈ writtenBy i := written_of_not_kept h hp
  obtain ⟨hkey, hlast⟩ := exec_changesOnly h .keys (keys_not_written i)
  exact ⟨fun e => writes_r (row .r e), fun e => writes_index (row .index e), fun e => writes_mem (row .mem e),
    fun e => writes_gfx (row .gfx e), fun e => writes_hgr (row .hgr e),
    fun e => writes_delay (row .delay (not_and_or.2 e)), fun e => writes_sound (row .sound (not_and_or.2 e)),
    fun e => writes_sp (row .sp e), fun e => writes_stack (row .stack e),
    fun e => ⟨exec_sets_drawFlag h e, writes_drawFlag (row .drawFlag e)⟩, hkey, hlast,
    fun e => writes_v (row .v e), fun e => writes_fault (row .fault e)⟩

end Sys2Proof.Machine
end

section
/-! PROOFS. Reset (10_state.md R38, 70_reset_and_hazards.md R260): the host's `reset` from any state, of which the state
at creation is one case. -/

namespace Sys2Proof.Machine

@[simp] theorem State.getV_hostReset (s : State) (x : Reg) : s.hostReset.getV x = 0 := by
  simp [State.getV, State.hostReset, State.reset]

@[simp] theorem State.getR_hostReset (s : State) (x : Reg) : s.hostReset.getR x = 0 := by
  simp [State.getR, State.hostReset, State.reset]

@[simp] theorem State.slot_hostReset (s : State) (k : Fin 16) : s.hostReset.slot k = 0 := by
  simp [State.slot, State.hostReset, State.reset]

@[simp] theorem State.pressed_hostReset (s : State) (k : Key) : s.hostReset.pressed k = false := by
  simp [State.pressed, State.hostReset, State.reset]

theorem State.runState_hostReset (s : State) : s.hostReset.runState = .running :=
  State.runState_running.2 ⟨rfl, show Config.progBase ≠ Config.pcExit by decide⟩

/-- The invariant holds after a reset from any state, whatever the clock then shows: no timer is armed. -/
theorem State.inv_hostReset (s : State) : s.hostReset.Inv where
  mem := rfl
  clock := ⟨nofun, nofun⟩
  latch := ⟨iff_of_true rfl s.pressed_hostReset, nofun⟩
  stack k := by simp
  pc := .inr (show Config.progBase.toNat ≤ 4350 by decide)

/-- Settles O15: the state at creation is a reset state. -/
theorem resetMeetsTheInvariant : Obligations.ResetMeetsTheInvariant :=
  State.reset.inv_hostReset

/-- Settles O56, field by field. -/
theorem resetLeavesTheSpecifiedValues : Obligations.ResetLeavesTheSpecifiedValues := by
  intro s t h
  obtain ⟨u, rfl⟩ : ∃ u : State, t = u.hostReset := h.elim (fun e => ⟨State.reset, e⟩) fun e => ⟨s, e⟩
  exact ⟨u.getV_hostReset, u.getR_hostReset, rfl, rfl, rfl, u.slot_hostReset, Memory.read_nil, Gfx.pix_blank, rfl, rfl,
    rfl, rfl, rfl, u.pressed_hostReset, rfl, rfl, rfl, u.runState_hostReset⟩

end Sys2Proof.Machine
end

section
/-! PROOFS. What an instruction does to each field the invariant reads, said once; the invariant under a step; and the
stack slot nothing reaches (10_state.md R26, R34; 42_control.md R156, R157; 44_timers.md R196; 92_eei_decisions.md D3). -/

namespace Sys2Proof.Machine

/-! Memory. -/

/-- The only store to memory is a block from `I` inside the bounds (43_index_memory.md R174, R175). -/
theorem exec_mem {i : Instr} {s t : State} (h : exec i s = .next t) :
    t.mem = s.mem ∨ ∃ xs : List Byte, s.i.toNat + xs.length ≤ 4096 ∧ t.mem = Memory.writeBlock s.mem s.i.toNat xs := by
  by_cases hw : Part.mem ∈ writtenBy i
  · obtain ⟨x, rfl | rfl⟩ := writes_mem hw
    · rcases execLdB_cases h with ⟨hi, rfl⟩ | ⟨c, op, n, rfl⟩
      · exact .inr ⟨bcdDigits (s.getV x), by simpa using hi, rfl⟩
      · exact .inl rfl
    · rcases execLdMemVx_cases h with ⟨hi, rfl⟩ | ⟨c, op, n, rfl⟩
      · exact .inr ⟨s.block x, by rw [State.block_length]; exact hi, rfl⟩
      · exact .inl rfl
  · exact .inl (exec_changesOnly h .mem hw)

theorem exec_keeps_wf {i : Instr} {s t : State} (h : exec i s = .next t) (hs : Memory.wf s.mem = true) :
    Memory.wf t.mem = true := by
  rcases exec_mem h with e | ⟨xs, hx, e⟩
  · rwa [e]
  · exact e ▸ Memory.wf_writeBlock hs hx

/-! Timers and the sampled clock. -/

/-- The sampled clock does not go back (44_timers.md R196). -/
theorem exec_clock_le {i : Instr} {s t : State} (h : exec i s = .next t) : s.clock ≤ t.clock := by
  by_cases hw : Part.env ∈ writtenBy i
  · rcases writes_env hw with ⟨x, kk, rfl⟩ | ⟨x, rfl | rfl | rfl⟩ <;> rw [state_of_next h]
    · exact le_rfl
    all_goals exact Nat.le_add_right _ _
  · exact (exec_changesOnly h .env hw).1.ge

/-- A timer's start is the old one or the instant just sampled (44_timers.md R192). -/
theorem exec_dtStart {i : Instr} {s t : State} (h : exec i s = .next t) :
    t.dtStart = s.dtStart ∨ t.dtStart = some t.clock := by
  by_cases hw : Part.delay ∈ writtenBy i
  · obtain ⟨x, rfl⟩ := writes_delay hw
    rw [state_of_next h]
    exact .inr rfl
  · exact .inl (exec_changesOnly h .delay hw).2

/-- The same for the sound timer (R193). -/
theorem exec_stStart {i : Instr} {s t : State} (h : exec i s = .next t) :
    t.stStart = s.stStart ∨ t.stStart = some t.clock := by
  by_cases hw : Part.sound ∈ writtenBy i
  · obtain ⟨x, rfl⟩ := writes_sound hw
    rw [state_of_next h]
    exact .inr rfl
  · exact .inl (exec_changesOnly h .sound hw).2

/-- A start that is the old one or now lies at or before the new clock. -/
theorem start_le_clock {old new : Option Nat} {c c' : Nat} (hold : ∀ u, old = some u → u ≤ c) (hc : c ≤ c')
    (hnew : new = old ∨ new = some c') (u : Nat) (hu : new = some u) : u ≤ c' := by
  rcases hnew with rfl | rfl
  · exact (hold u hu).trans hc
  · exact (Option.some.inj hu).ge

theorem exec_keeps_clockOk {i : Instr} {s t : State} (h : exec i s = .next t) (hs : s.ClockOk) : t.ClockOk :=
  ⟨start_le_clock hs.1 (exec_clock_le h) (exec_dtStart h), start_le_clock hs.2 (exec_clock_le h) (exec_stStart h)⟩

/-! The key latch. -/

theorem exec_keeps_latchOk {i : Instr} {s t : State} (h : exec i s = .next t) (hs : s.LatchOk) : t.LatchOk :=
  let ⟨hkey, hlast⟩ := exec_changesOnly h .keys (keys_not_written i)
  hs.of_eq hkey hlast

/-! The call stack. -/

/-- A slot changes only in a call, which needs a free slot above it and saves its own address (42_control.md R156). -/
theorem exec_slot {i : Instr} {s t : State} (h : exec i s = .next t) (k : Fin 16) :
    t.slot k = s.slot k ∨ (s.sp.val < 15 ∧ k = s.sp ∧ t.slot k = s.pc) := by
  by_cases hw : Part.stack ∈ writtenBy i
  · obtain ⟨nnn, rfl⟩ := writes_stack hw
    rcases execCall_cases h with ⟨hsp, rfl⟩ | ⟨c, op, n, rfl⟩
    · by_cases hk : k = s.sp
      · exact .inr ⟨hsp, hk, by simp [hk]⟩
      · exact .inl (by simp [hk])
    · exact .inl rfl
  · exact .inl ((exec_changesOnly h).frame .stack hw k)

theorem exec_keeps_stackOk {i : Instr} {s t : State} (h : exec i s = .next t) (hpc : s.pc.toNat ≤ 4094)
    (hs : s.StackOk) : t.StackOk := by
  intro k
  rcases exec_slot h k with e | ⟨-, -, e⟩
  · exact e ▸ hs k
  · exact e ▸ hpc

theorem exec_keeps_lastSlot {i : Instr} {s t : State} (h : exec i s = .next t) : t.slot 15 = s.slot 15 := by
  rcases exec_slot h 15 with e | ⟨hsp, hk, -⟩
  · exact e
  · exact absurd hsp (hk ▸ by decide)

/-! The program counter. -/

/-- Where `pc` can go from a state: it stays (a fault, or `Fx0A` with no key), goes on by one or two words, is set to an
address, to an address with the offset `V[0]`, after a saved call, or to the sentinel (42_control.md R150 to R159). -/
inductive PcMove (s : State) : Word → Prop where
  | stay : PcMove s s.pc
  | next : PcMove s (s.pc + 2)
  | skip : PcMove s (s.pc + 4)
  | jump (nnn : Addr12) : PcMove s (addrOf nnn)
  | jumpOffset (nnn : Addr12) : PcMove s (s.offsetTarget nnn)
  | ret (k : Fin 16) : PcMove s (s.slot k + 2)
  | exit : PcMove s Config.pcExit

theorem pcMove_next {s t : State} (h : t.pc = s.pc + 2) : PcMove s t.pc := h ▸ .next

theorem pcMove_skipIf (s : State) (c : Bool) : PcMove s (s.skipIf c).pc := by
  cases c
  · exact .next
  · exact .skip

theorem RaisedFrom.pcMove {s t : State} (h : RaisedFrom s t) : PcMove s t.pc := by
  obtain ⟨c, op, n, rfl⟩ := h
  exact .stay

theorem exec_pcMove {i : Instr} {s t : State} (h : exec i s = .next t) : PcMove s t.pc := by
  cases i with
  | scd | cls | scr | scl | low | high | ldImm | addImm | ldReg | orReg | andReg | xorReg | addReg | subReg | shrReg
  | subnReg | shlReg | ldI | rnd | ldVxDt | ldDtVx | ldStVx | addI | ldF | ldHf | ldRVx | ldVxR =>
    rw [state_of_next h]
    exact pcMove_next (by simp [State.randomize, State.readDelayAt, State.armDelayAt, State.armSoundAt])
  | seImm | sneImm | seReg | sneReg =>
    rw [state_of_next h]
    exact pcMove_skipIf ..
  | sys =>
    rw [state_of_next h]
    exact .stay
  | exit =>
    rw [state_of_next h]
    exact .exit
  | jp nnn =>
    rw [state_of_next h]
    exact .jump nnn
  | jpV0 nnn =>
    rw [state_of_next h]
    exact .jumpOffset nnn
  | call nnn => exact (execCall_cases h).elim (fun ⟨_, e⟩ => e ▸ .jump nnn) RaisedFrom.pcMove
  | ret => exact (execRet_cases h).elim (fun ⟨_, e⟩ => e ▸ .ret (s.sp - 1)) RaisedFrom.pcMove
  | ldB => exact (execLdB_cases h).elim (fun ⟨_, e⟩ => e ▸ pcMove_next (by simp)) RaisedFrom.pcMove
  | ldMemVx => exact (execLdMemVx_cases h).elim (fun ⟨_, e⟩ => e ▸ pcMove_next (by simp)) RaisedFrom.pcMove
  | ldVxMem => exact (execLdVxMem_cases h).elim (fun ⟨_, e⟩ => e ▸ pcMove_next (by simp)) RaisedFrom.pcMove
  | drw => exact (execDrw_cases h).elim (fun e => e ▸ pcMove_next (by simp)) RaisedFrom.pcMove
  | skp => exact (execSkp_cases h).elim (fun ⟨c, e⟩ => e ▸ pcMove_skipIf s c) RaisedFrom.pcMove
  | sknp => exact (execSknp_cases h).elim (fun ⟨c, e⟩ => e ▸ pcMove_skipIf s c) RaisedFrom.pcMove
  | ldVxK => exact (execLdVxK_cases h).elim (fun ⟨_, e⟩ => e ▸ pcMove_next (by simp)) fun e => e ▸ .stay

theorem addrOf_toNat (nnn : Addr12) : (addrOf nnn).toNat = nnn.toNat := by
  have := nnn.isLt
  simp only [addrOf, BitVec.truncate_eq_setWidth, BitVec.toNat_setWidth]
  omega

theorem State.wideV_toNat (s : State) (x : Reg) : (s.wideV x).toNat = (s.getV x).toNat := by
  have := (s.getV x).isLt
  simp only [State.wideV, BitVec.truncate_eq_setWidth, BitVec.toNat_setWidth]
  omega

/-- From a fetched instruction, with saved addresses of calls, `pc` reaches the sentinel only as the sentinel, and
at most 255 + 4095 otherwise (92_eei_decisions.md D3). -/
theorem PcMove.le {s : State} {w : Word} (h : PcMove s w) (hpc : s.pc.toNat ≤ 4094) (hs : s.StackOk) :
    w = Config.pcExit ∨ w.toNat ≤ 4350 := by
  cases h with
  | exit => exact .inl rfl
  | stay => exact .inr (by omega)
  | next | skip => exact .inr (by bv_omega)
  | jump nnn =>
    have := nnn.isLt
    exact .inr (by rw [addrOf_toNat]; omega)
  | jumpOffset nnn =>
    have := nnn.isLt
    have := (s.getV 0).isLt
    exact .inr (by rw [State.offsetTarget, BitVec.toNat_add, State.wideV_toNat, addrOf_toNat]; omega)
  | ret k =>
    have := hs k
    exact .inr (by bv_omega)

theorem exec_keeps_pcOk {i : Instr} {s t : State} (h : exec i s = .next t) (hpc : s.pc.toNat ≤ 4094) (hs : s.StackOk) :
    t.PcOk := (exec_pcMove h).le hpc hs

/-! The step. -/

/-- What a step can be: nothing or a fault of the engine, which write the record and the log at most, or a fetched
instruction. -/
theorem step_next_cases {s t : State} (h : step s = .next t) :
    ChangesOnly [.fault, .log] s t ∨ (s.pc.toNat ≤ 4094 ∧ ∃ i, exec i s = .next t) := by
  rcases step_cases s with ⟨-, e⟩ | ⟨-, -, e⟩ | ⟨-, -, -, e⟩ | ⟨-, hpc, i, -, e⟩
  · rw [state_of_next (e.symm.trans h)]
    exact .inl (ChangesOnly.refl _ s)
  · rw [state_of_next (e.symm.trans h)]
    exact .inl ((raise_changesOnly s _ _ _).mono (by simp))
  · rw [state_of_next (e.symm.trans h)]
    exact .inl (raise_emit_changesOnly s _ _ _ _ _)
  · exact .inr ⟨hpc, i, e.symm.trans h⟩

/-- The invariant reads neither the record nor the log. -/
theorem State.Inv.of_changesOnly {s t : State} (hs : s.Inv) (h : ChangesOnly [.fault, .log] s t) : t.Inv := by
  have kept (p : Part) (hp : p ∉ [Part.fault, .log] := by simp) : p.kept s t := h p hp
  obtain ⟨⟨hdt, hst⟩, ⟨hkey, hlast⟩, hclock⟩ :
      (t.dtStart = s.dtStart ∧ t.stStart = s.stStart) ∧ (t.key = s.key ∧ t.lastKey = s.lastKey) ∧ t.clock = s.clock :=
    ⟨⟨(kept .delay).2, (kept .sound).2⟩, kept .keys, (kept .env).1⟩
  exact ⟨(congrArg Memory.wf (kept .mem)).trans hs.mem, hs.clock.of_eq hdt hst hclock.ge, hs.latch.of_eq hkey hlast,
    hs.stack.of_eq (kept .stack), hs.pc.of_eq (kept .pc)⟩

/-- An instruction fetched inside memory keeps the invariant: each part by its own lemma. -/
theorem exec_keeps_inv {i : Instr} {s t : State} (h : exec i s = .next t) (hpc : s.pc.toNat ≤ 4094) (hs : s.Inv) :
    t.Inv where
  mem := exec_keeps_wf h hs.mem
  clock := exec_keeps_clockOk h hs.clock
  latch := exec_keeps_latchOk h hs.latch
  stack := exec_keeps_stackOk h hpc hs.stack
  pc := exec_keeps_pcOk h hpc hs.stack

/-- Settles O14: a fault of the engine touches nothing the invariant reads, and an instruction runs only from a `pc` of at
most 4094, which is what a call then saves. -/
theorem stepKeepsTheInvariant : Obligations.StepKeepsTheInvariant := by
  intro s t hs h
  rcases step_next_cases h with hc | ⟨hpc, i, he⟩
  · exact hs.of_changesOnly hc
  · exact exec_keeps_inv he hpc hs

/-! The host's operations (40_fetch_dispatch.md R116). -/

theorem apply_load_state {σ τ : Session} {image : List Byte} (h : σ.apply (.load image) = .next τ) :
    τ.state = σ.state.load image := by
  change σ.doLoad image = .next τ at h
  unfold Session.doLoad at h
  split at h <;> cases h
  rfl

theorem apply_refreshInput_state {σ τ : Session} {keys : List Key} {first : Option Key}
    (h : σ.apply (.refreshInput keys first) = .next τ) :
    refreshLegal keys first = true ∧ τ.state = σ.state.refreshInput keys first := by
  change σ.doRefresh keys first = .next τ at h
  unfold Session.doRefresh at h
  split at h <;> cases h
  exact ⟨‹_›, rfl⟩

theorem apply_step_state {σ τ : Session} (h : σ.apply .step = .next τ) : step σ.state = .next τ.state := by
  change σ.doStep = .next τ at h
  unfold Session.doStep at h
  split at h
  · cases h
  · split at h <;> cases h
    assumption

theorem apply_readDisplay_state {σ τ : Session} (h : σ.apply .readDisplay = .next τ) : τ.state = σ.state := by
  cases h
  rfl

theorem apply_ackDraw_state {σ τ : Session} (h : σ.apply .ackDraw = .next τ) : τ.state = σ.state.ackDraw := by
  cases h
  rfl

theorem apply_readStatus_state {σ τ : Session} {now : Nat} (h : σ.apply (.readStatus now) = .next τ) :
    σ.state.clock ≤ now ∧ τ.state = { σ.state with clock := now } := by
  change σ.doReadStatus now = .next τ at h
  unfold Session.doReadStatus at h
  split at h <;> cases h
  exact ⟨‹_›, rfl⟩

/-- `load` writes memory, or one event to the log (70_reset_and_hazards.md R263). -/
theorem State.load_changesOnly (s : State) (image : List Byte) : ChangesOnly [.mem, .log] s (s.load image) := by
  cases hf : imageFits image with
  | true => simp [State.load_fits s hf, ChangesOnly, forall_part]
  | false => simp [State.load_tooLong s hf, ChangesOnly, forall_part]

theorem step_keeps_lastSlot {s t : State} (h : step s = .next t) : t.slot 15 = s.slot 15 := by
  rcases step_next_cases h with hc | ⟨-, i, he⟩
  · exact hc.frame .stack (by simp) 15
  · exact exec_keeps_lastSlot he

/-- Settles O17: a call pushes below slot 15, and of the host's operations only `reset` and the step reach the stack. -/
theorem lastStackSlotIsNeverWritten : Obligations.LastStackSlotIsNeverWritten := by
  refine ⟨fun s t => step_keeps_lastSlot, fun op σ τ hop h => ?_⟩
  cases op with
  | reset => exact absurd rfl hop
  | load image =>
    rw [apply_load_state h]
    exact (σ.state.load_changesOnly image).frame .stack (by simp) 15
  | refreshInput keys first => rw [(apply_refreshInput_state h).2, State.slot_refreshInput]
  | step => exact step_keeps_lastSlot (apply_step_state h)
  | readDisplay => rw [apply_readDisplay_state h]
  | ackDraw => rw [apply_ackDraw_state h, State.slot_ackDraw]
  | readStatus now =>
    rw [(apply_readStatus_state h).2]
    rfl

end Sys2Proof.Machine
end

section
/-! PROOFS. A block store over the instruction stream (20_memory.md R71): what the next fetch reads, and the step after
the store. -/

namespace Sys2Proof.Machine

/-- Byte `k` of the block that `Fx55` stores is read back at `I + k` (20_memory.md R67). -/
theorem read_storedBlock {s : State} {x k : Reg} (hwf : Memory.wf s.mem = true) (hfit : s.i.toNat + x.val < 4096)
    (hk : k.val ≤ x.val) : Memory.read (Memory.writeBlock s.mem s.i.toNat (s.block x)) (s.i.toNat + k.val) = s.getV k := by
  have hlen : (s.block x).length = x.val + 1 := s.block_length x
  rw [Memory.read_writeBlock hwf (by omega), if_pos ⟨by omega, by omega⟩, Nat.add_sub_cancel_left, s.block_getD x k hk]

/-- Two neighbouring bytes of the block are read back as one word, the lower register in the high byte (R66). -/
theorem readWord_storedBlock {s : State} {x k j : Reg} (hwf : Memory.wf s.mem = true)
    (hfit : s.i.toNat + x.val < 4096) (hj : j.val = k.val + 1) (hjx : j.val ≤ x.val) :
    Memory.readWord (Memory.writeBlock s.mem s.i.toNat (s.block x)) (s.i.toNat + k.val) = s.getV k ++ s.getV j := by
  have hnext : s.i.toNat + k.val + 1 = s.i.toNat + j.val := by omega
  rw [Memory.readWord, hnext, read_storedBlock hwf hfit (by omega), read_storedBlock hwf hfit hjx]

/-- A `pc` from which a word can be fetched is not the sentinel of `00FD`. -/
theorem ne_pcExit_of_fetchable {w : Word} (h : w.toNat ≤ 4094) : w ≠ Config.pcExit := by
  rintro rfl
  exact absurd h (by decide)

/-- Settles O40: `Fx55` leaves the machine RUNNING with the block in memory, and the next `pc` lies inside the block, so
the fetch there reads back the two stored bytes. -/
theorem storeIsSeenByTheNextFetch : Obligations.StoreIsSeenByTheNextFetch := by
  intro x k j s i hwf hrun hfit hj hjx hpc hdec
  have hjx : j.val ≤ x.val := hjx
  have hle : (s.pc + 2).toNat ≤ 4094 := by omega
  have hword := readWord_storedBlock hwf hfit hj hjx
  refine ⟨_, execLdMemVx_fits x hfit, step_decoded ?_ hle ?_⟩
  · exact State.runState_running.2 ⟨(State.runState_running.1 hrun).1, ne_pcExit_of_fetchable hle⟩
  · simp only [State.advance_mem, State.advance_pc, State.bumpI_mem, State.bumpI_pc, State.setMem_mem, State.setMem_pc]
    rw [hpc, hword, hdec]

end Sys2Proof.Machine
end

section
/-! PROOFS. The decoder said once: which part of it reads a word, what a decoded word's fields are, and that decoding and
encoding undo each other (30_encoding.md R92 to R95). -/

namespace Sys2Proof

/-! The part of the decoder that reads a word, by its leading nibble. -/

theorem decodeWord_zero {w : Word} (h0 : fieldN0 w = 0x0#4) (h1 : fieldN1 w = 0#4) : decodeWord w = decodeZero w := by
  simp [decodeWord, h0, h1]

theorem decodeWord_sys {w : Word} (h0 : fieldN0 w = 0x0#4) (h1 : fieldN1 w ≠ 0#4) :
    decodeWord w = .ok (.sys (fieldNnn w)) := by
  simp [decodeWord, h0, h1]

theorem decodeWord_eight {w : Word} (h0 : fieldN0 w = 0x8#4) : decodeWord w = decodeEight w := by
  simp [decodeWord, h0]

theorem decodeWord_e {w : Word} (h0 : fieldN0 w = 0xE#4) : decodeWord w = decodeE w := by
  simp [decodeWord, h0]

theorem decodeWord_f {w : Word} (h0 : fieldN0 w = 0xF#4) : decodeWord w = decodeF w := by
  simp [decodeWord, h0]

/-! From an instruction to its word and back. -/

theorem decodeWord_encode {i : Instr} (h : i.wellFormed = true) : decodeWord (encode i) = .ok i := by
  cases i with
  | scd n => revert n; decide
  | cls | ret | scr | scl | exit | low | high => rfl
  | sys nnn =>
    have h1 : fieldN1 (encode (.sys nnn)) ≠ 0#4 := by simpa [encode, Instr.wellFormed, sysInRange] using h
    rw [decodeWord_sys (by simp [encode]) h1]
    simp [encode]
  | jp | call | ldI | jpV0 | seImm | sneImm | ldImm | addImm | rnd | seReg | sneReg | drw => simp [encode, decodeWord]
  | ldReg | orReg | andReg | xorReg | addReg | subReg | shrReg | subnReg | shlReg =>
    rw [decodeWord_eight (by simp [encode])]
    simp [encode, decodeEight]
  | skp | sknp =>
    rw [decodeWord_e (by simp [encode])]
    simp [encode, decodeE]
  | ldVxDt | ldVxK | ldDtVx | ldStVx | addI | ldF | ldHf | ldB | ldMemVx | ldVxMem | ldRVx | ldVxR =>
    rw [decodeWord_f (by simp [encode])]
    simp [encode, decodeF]

/-- Settles O1: the fields of the encoded word select the instruction's own arm of the decoder and are its operands. -/
theorem everyInstructionRoundTrips : Obligations.EveryInstructionRoundTrips := by
  intro i hi
  have hword := decodeWord_encode hi
  refine ⟨hword, fun rest => (decode_pair _ _ rest).trans ?_⟩
  rw [bytes_append, hword]
  rfl

/-! A word is the word of its own fields, one lemma per format. -/

theorem wordNNN_of_fields {w : Word} {n0 : Nibble} (h0 : fieldN0 w = n0) : wordNNN n0 (fieldNnn w) = w := by
  refine BitVec.eq_of_toNat_eq ?_
  rw [wordNNN_toNat, ← h0, fieldN0_toNat, fieldNnn_toNat]
  omega

theorem wordXKK_of_fields {w : Word} {n0 : Nibble} {kk : Byte} (h0 : fieldN0 w = n0) (hk : fieldKk w = kk) :
    wordXKK n0 (fieldX w) kk = w := by
  refine BitVec.eq_of_toNat_eq ?_
  rw [wordXKK_toNat, ← h0, ← hk, fieldN0_toNat, fieldX_val, fieldKk_toNat]
  omega

theorem wordXYN_of_fields {w : Word} {n0 n : Nibble} (h0 : fieldN0 w = n0) (h3 : fieldN3 w = n) :
    wordXYN n0 (fieldX w) (fieldY w) n = w := by
  refine BitVec.eq_of_toNat_eq ?_
  rw [wordXYN_toNat, ← h0, ← h3, fieldN0_toNat, fieldX_val, fieldY_val, fieldN3_toNat]
  omega

theorem fieldKk_toNat_eq (w : Word) : (fieldKk w).toNat = (fieldN2 w).toNat * 16 + (fieldN3 w).toNat := by
  rw [fieldKk_toNat, fieldN2_toNat, fieldN3_toNat]
  omega

theorem fieldN1_eq (w : Word) : fieldN1 w = (fieldNnn w).extractLsb' 8 4 :=
  (congrArg fieldN1 (wordNNN_of_fields rfl)).symm.trans (fieldN1_wordNNN _ _)

/-- A word `00kk` is its low byte. -/
theorem toNat_of_highByte_zero {w : Word} (h0 : fieldN0 w = 0x0#4) (h1 : fieldN1 w = 0#4) :
    w.toNat = (fieldKk w).toNat := by
  have h0 := congrArg BitVec.toNat h0
  have h1 := congrArg BitVec.toNat h1
  simp only [fieldN0_toNat, fieldN1_toNat, BitVec.toNat_ofNat] at h0 h1
  rw [fieldKk_toNat]
  omega

theorem encode_scd_toNat (n : Reg) : (encode (.scd n)).toNat = 0xC * 16 + n.val := by
  rw [encode, toNat_append_eq, nibbleOfReg_toNat]
  rfl

/-! From a word to its instruction and back, for each part of the decoder. -/

theorem decodeZero_ok {w : Word} {i : Instr} (h0 : fieldN0 w = 0x0#4) (h1 : fieldN1 w = 0#4)
    (h : decodeZero w = .ok i) : i.wellFormed = true ∧ encode i = w := by
  have hw := toNat_of_highByte_zero h0 h1
  unfold decodeZero at h
  split at h
  case h_8 => -- `00Cn`
    split at h <;> cases h
    next h2 =>
    refine ⟨rfl, BitVec.eq_of_toNat_eq ?_⟩
    rw [encode_scd_toNat, hw, fieldKk_toNat_eq, h2]
    rfl
  all_goals
    next hk =>
    cases h
    exact ⟨rfl, BitVec.eq_of_toNat_eq (hk.symm.trans hw.symm)⟩

theorem decodeEight_ok {w : Word} {i : Instr} (h0 : fieldN0 w = 0x8#4) (h : decodeEight w = .ok i) :
    i.wellFormed = true ∧ encode i = w := by
  unfold decodeEight at h
  split at h <;> cases h
  all_goals next h3 => exact ⟨rfl, wordXYN_of_fields h0 (BitVec.eq_of_toNat_eq h3)⟩

theorem decodeE_ok {w : Word} {i : Instr} (h0 : fieldN0 w = 0xE#4) (h : decodeE w = .ok i) :
    i.wellFormed = true ∧ encode i = w := by
  unfold decodeE at h
  split at h <;> cases h
  all_goals next hk => exact ⟨rfl, wordXKK_of_fields h0 (BitVec.eq_of_toNat_eq hk)⟩

theorem decodeF_ok {w : Word} {i : Instr} (h0 : fieldN0 w = 0xF#4) (h : decodeF w = .ok i) :
    i.wellFormed = true ∧ encode i = w := by
  unfold decodeF at h
  split at h <;> cases h
  all_goals next hk => exact ⟨rfl, wordXKK_of_fields h0 (BitVec.eq_of_toNat_eq hk)⟩

theorem decodeWord_ok {w : Word} {i : Instr} (h : decodeWord w = .ok i) : i.wellFormed = true ∧ encode i = w := by
  unfold decodeWord at h
  split at h
  case h_1 h0 => -- `0nnn`
    replace h0 : fieldN0 w = 0x0#4 := BitVec.eq_of_toNat_eq h0
    split at h
    next h1 => exact decodeZero_ok h0 h1 h
    next h1 =>
      cases h
      rw [fieldN1_eq] at h1
      exact ⟨by simpa [Instr.wellFormed, sysInRange] using h1, wordNNN_of_fields h0⟩
  case h_9 h0 => exact decodeEight_ok (BitVec.eq_of_toNat_eq h0) h
  case h_15 h0 => exact decodeE_ok (BitVec.eq_of_toNat_eq h0) h
  case h_16 => -- `Fxkk`, the one nibble left
    have h0 : (fieldN0 w).toNat = 0xF := by
      simp only [imp_false] at *
      omega
    exact decodeF_ok (BitVec.eq_of_toNat_eq h0) h
  case h_2 h0 | h_3 h0 | h_11 h0 | h_12 h0 => -- format `NNN`
    cases h
    exact ⟨rfl, wordNNN_of_fields (BitVec.eq_of_toNat_eq h0)⟩
  case h_4 h0 | h_5 h0 | h_7 h0 | h_8 h0 | h_13 h0 => -- format `XKK`
    cases h
    exact ⟨rfl, wordXKK_of_fields (BitVec.eq_of_toNat_eq h0) rfl⟩
  case h_6 h0 | h_10 h0 => -- `5xy0` and `9xy0`
    split at h <;> cases h
    next h3 => exact ⟨rfl, wordXYN_of_fields (BitVec.eq_of_toNat_eq h0) h3⟩
  case h_14 h0 => -- `Dxyn`
    cases h
    exact ⟨rfl, wordXYN_of_fields (BitVec.eq_of_toNat_eq h0) rfl⟩

/-- Settles O2: each arm of the decoder takes the fields that, with the arm's fixed nibbles, make up the whole word. -/
theorem decodedWordsEncodeBack : Obligations.DecodedWordsEncodeBack := fun _ _ => decodeWord_ok

end Sys2Proof
end

section
/-! PROOFS. The decoder and the opcode map (30_encoding.md R94, R95): a word that matches a row decodes to an instruction
of that row, so at most one row matches; the word of a well-formed instruction matches its row, so an unknown word matches
none. -/

namespace Sys2Proof

/-! What a word that matches a row has in common with it. -/

theorem and_of_rowMatches {w : Word} {row : OpRow} (h : rowMatches w row = true) : w &&& row.mask = row.value := by
  simp only [rowMatches, Bool.and_eq_true, beq_iff_eq] at h
  exact h.1

theorem and_ne_zero_of_rowMatches {w : Word} {row : OpRow} (h : rowMatches w row = true) (hn : row.needsN1 = true) :
    w &&& 0x0F00#16 ≠ 0#16 := by
  simp only [rowMatches, hn, Bool.and_eq_true, Bool.not_true, Bool.false_or, bne_iff_ne] at h
  exact h.2

/-- A field that the row's mask covers is the row's own. -/
theorem extractLsb'_of_rowMatches {w : Word} {row : OpRow} (start len : Nat) (h : rowMatches w row = true)
    (hm : row.mask.extractLsb' start len = BitVec.allOnes len) :
    w.extractLsb' start len = row.value.extractLsb' start len := by
  rw [← and_of_rowMatches h, BitVec.extractLsb'_and, hm, BitVec.and_allOnes]

theorem and_0F00 (w : Word) : w &&& 0x0F00#16 = (0#4 ++ fieldN1 w ++ 0#8 : Word) := by
  have h := wordXKK_and (fieldN0 w) 0#4 (fieldX w) (fieldKk w) 0#8 (BitVec.allOnes 4)
  rw [wordXKK_of_fields rfl rfl, BitVec.and_allOnes] at h
  simpa [fieldX] using h

theorem fieldN1_ne_zero_of_rowMatches {w : Word} {row : OpRow} (h : rowMatches w row = true)
    (hn : row.needsN1 = true) : fieldN1 w ≠ 0#4 := by
  intro h1
  have hne := and_ne_zero_of_rowMatches h hn
  rw [and_0F00, h1] at hne
  exact hne rfl

/-! The row of the instruction a word decodes to, and the fields of the word it depends on. -/

/-- The row of R95 the decoder reads from a word, none for an unknown word. -/
def decodedRow (w : Word) : Option Nat := (decodeWord w).toOption.map rowOf

theorem decodeZero_scd {w : Word} (h2 : fieldN2 w = 0xC#4) : decodeZero w = .ok (.scd (regOfNibble (fieldN3 w))) := by
  have hk := fieldKk_toNat_eq w
  simp only [h2, BitVec.toNat_ofNat] at hk
  unfold decodeZero
  split
  case h_8 => rw [if_pos h2]
  all_goals omega

/-- The row depends on the leading nibble, and beside it on the last nibble or the low byte where that nibble has more
than one row. -/
theorem decodedRow_congr {w v : Word} (h0 : fieldN0 w = fieldN0 v) (hz : (fieldN0 v).toNat = 0x0 → w = v)
    (h3 : (fieldN0 v).toNat ∈ [0x5, 0x8, 0x9] → fieldN3 w = fieldN3 v)
    (hk : 0xE ≤ (fieldN0 v).toNat → fieldKk w = fieldKk v) : decodedRow w = decodedRow v := by
  unfold decodedRow decodeWord
  rw [h0]
  split
  case h_1 hn => rw [hz hn]
  case h_6 hn | h_10 hn => -- `5xy0` and `9xy0`
    rw [h3 (by simp [hn])]
    split <;> rfl
  case h_9 hn => -- `8xyn`
    unfold decodeEight
    rw [h3 (by simp [hn])]
    split <;> rfl
  case h_15 hn => -- `Exkk`
    unfold decodeE
    rw [hk (by omega)]
    split <;> rfl
  case h_16 => -- `Fxkk`, the one nibble left
    have hn : 0xE ≤ (fieldN0 v).toNat := by
      simp only [imp_false] at *
      omega
    unfold decodeF
    rw [hk hn]
    split <;> rfl
  all_goals rfl

/-! The opcode map, row by row. -/

theorem decodedRow_value : ∀ row ∈ opcodeMap, row.needsN1 = false → decodedRow row.value = some row.num := by decide

theorem eq_of_needsN1 : ∀ row ∈ opcodeMap, row.needsN1 = true → row = ⟨9, 0xF000#16, 0x0000#16, true⟩ := by decide

/-- Each mask covers the fields the decoder looks at for the words of its row. -/
theorem opcodeMap_masks : ∀ row ∈ opcodeMap, fieldN0 row.mask = 0xF#4 ∧
    ((fieldN0 row.value).toNat = 0x0 →
      row.mask = 0xFFFF#16 ∨ row.needsN1 = true ∨ row = ⟨1, 0xFFF0#16, 0x00C0#16, false⟩) ∧
    ((fieldN0 row.value).toNat ∈ [0x5, 0x8, 0x9] → fieldN3 row.mask = 0xF#4) ∧
    (0xE ≤ (fieldN0 row.value).toNat → fieldKk row.mask = 0xFF#8) := by decide

theorem opcodeMap_nums_nodup : (opcodeMap.map (·.num)).Nodup := by decide

/-- A word that matches a row decodes to an instruction of that row: the rows `0nnn` and `00Cn` are read off the decoder;
at every other row the word decodes as the row's own value does. -/
theorem decodedRow_of_rowMatches {w : Word} {row : OpRow} (hrow : row ∈ opcodeMap) (h : rowMatches w row = true) :
    decodedRow w = some row.num := by
  obtain ⟨hm0, hmz, hm3, hmk⟩ := opcodeMap_masks row hrow
  have h0 : fieldN0 w = fieldN0 row.value := extractLsb'_of_rowMatches 12 4 h hm0
  by_cases hn : row.needsN1 = true
  · have h1 := fieldN1_ne_zero_of_rowMatches h hn
    obtain rfl := eq_of_needsN1 row hrow hn
    rw [decodedRow, decodeWord_sys h0 h1]
    rfl
  by_cases hscd : row = ⟨1, 0xFFF0#16, 0x00C0#16, false⟩
  · subst hscd
    have h1 : fieldN1 w = 0x0#4 := extractLsb'_of_rowMatches 8 4 h rfl
    have h2 : fieldN2 w = 0xC#4 := extractLsb'_of_rowMatches 4 4 h rfl
    rw [decodedRow, decodeWord_zero h0 h1, decodeZero_scd h2]
    rfl
  rw [← decodedRow_value row hrow (by simpa using hn)]
  refine decodedRow_congr h0 (fun hz => ?_) (fun hv => extractLsb'_of_rowMatches 0 4 h (hm3 hv))
    (fun hv => extractLsb'_of_rowMatches 0 8 h (hmk hv))
  have hmask : row.mask = BitVec.allOnes 16 := by simpa [hn, hscd] using hmz hz
  rw [← and_of_rowMatches h, hmask, BitVec.and_allOnes]

open Laws.OpcodeRow in
/-- The per-instruction laws of `OpcodeRow`, gathered. -/
theorem encode_rowMatches : ∀ i : Instr, Statement i
  | .scd n => scd n | .cls => cls | .ret => ret | .scr => scr | .scl => scl | .exit => exit | .low => low
  | .high => high | .sys n => sys n | .jp n => jp n | .call n => call n | .seImm x k => seImm x k
  | .sneImm x k => sneImm x k | .seReg x y => seReg x y | .ldImm x k => ldImm x k | .addImm x k => addImm x k
  | .ldReg x y => ldReg x y | .orReg x y => orReg x y | .andReg x y => andReg x y | .xorReg x y => xorReg x y
  | .addReg x y => addReg x y | .subReg x y => subReg x y | .shrReg x y => shrReg x y | .subnReg x y => subnReg x y
  | .shlReg x y => shlReg x y | .sneReg x y => sneReg x y | .ldI n => ldI n | .jpV0 n => jpV0 n | .rnd x k => rnd x k
  | .drw x y n => drw x y n | .skp x => skp x | .sknp x => sknp x | .ldVxDt x => ldVxDt x | .ldVxK x => ldVxK x
  | .ldDtVx x => ldDtVx x | .ldStVx x => ldStVx x | .addI x => addI x | .ldF x => ldF x | .ldHf x => ldHf x
  | .ldB x => ldB x | .ldMemVx x => ldMemVx x | .ldVxMem x => ldVxMem x | .ldRVx x => ldRVx x | .ldVxR x => ldVxR x

theorem selectRow_eq_decodedRow (w : Word) : selectRow w = decodedRow w := by
  unfold selectRow
  cases hf : opcodeMap.find? (rowMatches w) with
  | some row => exact (decodedRow_of_rowMatches (List.mem_of_find?_eq_some hf) (List.find?_some hf)).symm
  | none =>
    cases hd : decodeWord w with
    | error e => simp [decodedRow, hd, Except.toOption]
    | ok i =>
      obtain ⟨hwf, rfl⟩ := decodeWord_ok hd
      obtain ⟨row, hrow, -, hm⟩ := encode_rowMatches i hwf
      exact absurd hm (List.find?_eq_none.1 hf row hrow)

/-- All matching rows have the number of the decoded row, and no two rows have one number. -/
theorem matchingRows_length_le (w : Word) : (opcodeMap.filter (rowMatches w)).length ≤ 1 := by
  have hnum : ∀ n ∈ (opcodeMap.filter (rowMatches w)).map (·.num), n = (decodedRow w).getD 0 := by
    intro n hn
    obtain ⟨row, hrow, rfl⟩ := List.mem_map.1 hn
    obtain ⟨hrow, hm⟩ := List.mem_filter.1 hrow
    rw [decodedRow_of_rowMatches hrow hm]
    rfl
  have hnodup := opcodeMap_nums_nodup.sublist ((List.filter_sublist (p := rowMatches w)).map _)
  rw [List.eq_replicate_of_mem hnum, List.nodup_replicate, List.length_map] at hnodup
  exact hnodup

/-- Settles O3: the first matching row is the row of the decoded instruction, and only one row can match. -/
theorem decoderSelectsTheFirstRow : Obligations.DecoderSelectsTheFirstRow := by
  intro w
  refine ⟨?_, matchingRows_length_le w⟩
  rw [selectRow_eq_decodedRow, decodedRow]
  cases decodeWord w <;> rfl

end Sys2Proof
end

section
/-! PROOFS. The unknown words (30_encoding.md R96): which words each part of the decoder refuses, and the step that fetches
one; and the sample words of R95. -/

namespace Sys2Proof.Machine

theorem decodeZero_error_iff (w : Word) : (∃ e, decodeZero w = .error e) ↔
    fieldN2 w ≠ 0xC#4 ∧ (fieldKk w).toNat ∉ [0xE0, 0xEE, 0xFB, 0xFC, 0xFD, 0xFE, 0xFF] := by
  unfold decodeZero
  split
  case h_8 => split <;> simp_all
  all_goals simp_all

theorem decodeEight_error_iff (w : Word) : (∃ e, decodeEight w = .error e) ↔
    (fieldN3 w).toNat ∈ [0x8, 0x9, 0xA, 0xB, 0xC, 0xD, 0xF] := by
  unfold decodeEight
  split <;> simp_all
  omega

theorem decodeE_error_iff (w : Word) : (∃ e, decodeE w = .error e) ↔ (fieldKk w).toNat ∉ [0x9E, 0xA1] := by
  unfold decodeE
  split <;> simp_all

theorem decodeF_error_iff (w : Word) : (∃ e, decodeF w = .error e) ↔
    (fieldKk w).toNat ∉ [0x07, 0x0A, 0x15, 0x18, 0x1E, 0x29, 0x30, 0x33, 0x55, 0x65, 0x75, 0x85] := by
  unfold decodeF
  split <;> simp_all

theorem fieldN2_eq_C_iff (w : Word) : fieldN2 w = 0xC#4 ↔ 0xC0 ≤ (fieldKk w).toNat ∧ (fieldKk w).toNat ≤ 0xCF := by
  have hk := fieldKk_toNat_eq w
  bv_omega

theorem decodeWord_error_iff (w : Word) : (∃ e, decodeWord w = .error e) ↔ isUnknownWord w := by
  simp only [isUnknownWord, ← fieldN0_toNat, ← fieldN1_toNat, ← fieldKk_toNat, ← fieldN3_toNat]
  unfold decodeWord
  split
  case h_1 h0 => -- `0nnn`
    split
    next h1 =>
      rw [decodeZero_error_iff, Ne, fieldN2_eq_C_iff]
      simp [h0, h1]
    next h1 =>
      have h1 : (fieldN1 w).toNat ≠ 0 := by bv_omega
      simp [h0, h1]
  case h_6 h0 | h_10 h0 => -- `5xy0` and `9xy0`
    have h3 : fieldN3 w = 0#4 ↔ (fieldN3 w).toNat = 0 := by bv_omega
    split <;> simp_all
  case h_9 h0 => simp [h0, decodeEight_error_iff]
  case h_15 h0 => simp [h0, decodeE_error_iff]
  case h_16 => -- `Fxkk`, the one nibble left
    have h0 : (fieldN0 w).toNat = 0xF := by
      simp only [imp_false] at *
      omega
    simp [h0, decodeF_error_iff]
  all_goals next h0 => simp [h0] -- the nibbles with one row for every word

theorem illegalOpcode_eq (s : State) (w : Word) : s.illegalOpcode w =
    { s.withFault .illegalOpcode w w with log := s.log ++ [⟨.unknownOpcode, w⟩] } := by
  simp [State.illegalOpcode, State.raise, State.emit, State.withFault]

/-- Settles O4: the decoder refuses exactly the listed words, and the step of a refused word is the engine's own fault at
decode. -/
theorem unknownWordsAreExactlyTheListed : Obligations.UnknownWordsAreExactlyTheListed := by
  refine ⟨decodeWord_error_iff, fun s w hrun hpc hw hu => ?_⟩
  subst hw
  obtain ⟨e, he⟩ := (decodeWord_error_iff _).2 hu
  exact (step_unknown hrun hpc he).trans (congrArg _ (illegalOpcode_eq s _))

/-- Settles O5: the decoder is run on each of the ten words. -/
theorem sampleWordsDecode : Obligations.SampleWordsDecode := by
  unfold Obligations.SampleWordsDecode
  decide

end Sys2Proof.Machine
end

section
/-! PROOFS. The step in the spec's seven lines (40_fetch_dispatch.md R112), and that every step and every meaning answers
a next state. -/

namespace Sys2Proof.Machine

/-- The two bytes of a fetch decode to what their word decodes to, and nothing is left over (20_memory.md R66). -/
theorem decodeWord_of_decode_pair {hi lo : Byte} {i : Instr} {rest : List Byte} (h : decode [hi, lo] = .ok (i, rest)) :
    decodeWord (hi ++ lo) = .ok i := by
  rw [decode_pair] at h
  cases hd : decodeWord (hi ++ lo) with
  | error e => rw [hd] at h; cases h
  | ok j => rw [hd] at h; cases h; rfl

/-- Settles O6: the bytes decode as their word, and a RUNNING machine runs what the word at `pc` decodes to. -/
theorem stepRunsTheDecodedInstruction : Obligations.StepRunsTheDecodedInstruction :=
  fun _ _ hrun hpc hdec => step_decoded hrun hpc (decodeWord_of_decode_pair hdec)

theorem fetchFault_eq (s : State) : s.fetchFault = s.withFault .fetchBounds 0 s.pc := by
  rw [State.fetchFault, State.raise_eq_withFault, BitVec.ofNat_toNat, BitVec.setWidth_eq]

/-- Settles O7: lines 1 and 2 are a machine that is not RUNNING, line 3 a `pc` no word can be fetched from, lines 4 to 7
the two answers of the decoder. -/
theorem stepHasTheSpecifiedLines : Obligations.StepHasTheSpecifiedLines := by
  intro s
  refine ⟨fun hf => step_not_running fun hr => hf (State.runState_running.1 hr).1,
    fun _ hx => step_not_running fun hr => (State.runState_running.1 hr).2 hx,
    fun hf hx hpc => ?_, fun op hf hx hpc hop => ⟨fun i hi => ?_, fun e he => ?_⟩⟩
  all_goals have hrun : s.runState = .running := State.runState_running.2 ⟨hf, hx⟩
  · rw [step_unfetchable hrun hpc, fetchFault_eq]
  · subst hop
    exact step_decoded hrun hpc hi
  · subst hop
    rw [← illegalOpcode_eq]
    exact step_unknown hrun hpc he

/-- A choice between two next states is a next state. -/
theorem ite_isNext {p : Prop} [Decidable p] {a b : Result} (ha : ∃ t, a = .next t) (hb : ∃ t, b = .next t) :
    ∃ t, (if p then a else b) = .next t := by
  split
  · exact ha
  · exact hb

/-- Every instruction answers a next state: by its one way, by its bounds checks, or by the key it looks at. -/
theorem exec_isNext (i : Instr) (s : State) : ∃ t, exec i s = .next t := by
  cases i with
  | scd | cls | scr | scl | exit | low | high | sys | jp | jpV0 | seImm | sneImm | seReg | sneReg | ldImm | addImm
  | ldReg | orReg | andReg | xorReg | addReg | subReg | shrReg | subnReg | shlReg | ldI | rnd | ldVxDt | ldDtVx | ldStVx
  | addI | ldF | ldHf | ldRVx | ldVxR => exact ⟨_, rfl⟩
  | call | ret | ldB | ldMemVx | ldVxMem => exact ite_isNext ⟨_, rfl⟩ ⟨_, rfl⟩
  | drw => exact ite_isNext (ite_isNext ⟨_, rfl⟩ ⟨_, rfl⟩) ⟨_, rfl⟩
  | skp x =>
    change ∃ t, execSkp x s = .next t
    cases hk : s.keyOf x <;> exact ⟨_, by rw [execSkp, hk]⟩
  | sknp x =>
    change ∃ t, execSknp x s = .next t
    cases hk : s.keyOf x <;> exact ⟨_, by rw [execSknp, hk]⟩
  | ldVxK x =>
    change ∃ t, execLdVxK x s = .next t
    cases hk : s.lastKey <;> exact ⟨_, by rw [execLdVxK, hk]⟩

theorem step_isNext (s : State) : ∃ t, step s = .next t := by
  rcases step_cases s with ⟨-, e⟩ | ⟨-, -, e⟩ | ⟨-, -, -, e⟩ | ⟨-, -, i, -, e⟩
  · exact ⟨_, e⟩
  · exact ⟨_, e⟩
  · exact ⟨_, e⟩
  · exact e ▸ exec_isNext i s

/-- Settles O8: a step idles, takes a fault of the engine, or is an instruction, and an instruction answers a next
state. -/
theorem everyStepAnswersANextState : Obligations.EveryStepAnswersANextState := ⟨step_isNext, exec_isNext⟩

end Sys2Proof.Machine
end

section
/-! PROOFS. HALTED is entered by `00FD` alone (40_fetch_dispatch.md R121; 92_eei_decisions.md D3): no other way `pc` can
move reaches the sentinel. -/

namespace Sys2Proof.Machine

/-- From a fetched instruction, neither the next word nor the one after it is the sentinel. -/
theorem State.skipIf_pc_ne_pcExit {s : State} (hpc : s.pc.toNat ≤ 4094) (c : Bool) :
    (s.skipIf c).pc ≠ Config.pcExit := by
  rw [State.skipIf_pc, Config.pcExit]
  split <;> bv_omega

/-- `1nnn` and `2nnn` go no further than 4095. -/
theorem addrOf_ne_pcExit (nnn : Addr12) : addrOf nnn ≠ Config.pcExit := by
  intro h
  have hn := nnn.isLt
  rw [← addrOf_toNat, h] at hn
  exact absurd hn (by decide)

theorem State.offsetTarget_toNat (s : State) (nnn : Addr12) :
    (s.offsetTarget nnn).toNat = (s.getV 0).toNat + nnn.toNat := by
  have := nnn.isLt
  have := (s.getV 0).isLt
  rw [State.offsetTarget, BitVec.toNat_add, State.wideV_toNat, addrOf_toNat]
  omega

/-- `Bnnn` goes no further than 255 + 4095. -/
theorem State.offsetTarget_ne_pcExit (s : State) (nnn : Addr12) : s.offsetTarget nnn ≠ Config.pcExit := by
  intro h
  have := nnn.isLt
  have := (s.getV 0).isLt
  have hx : Config.pcExit.toNat = 65535 := rfl
  have := s.offsetTarget_toNat nnn
  rw [h] at this
  omega

/-- A return goes on after a saved call. -/
theorem State.StackOk.slot_add_ne_pcExit {s : State} (hs : s.StackOk) (k : Fin 16) :
    s.slot k + 2 ≠ Config.pcExit := by
  have := hs k
  rw [Config.pcExit]
  bv_omega

/-- Of the instructions, only `00FD` moves `pc` to the sentinel: every other one is judged by where it goes. -/
theorem exec_pc_ne_pcExit {i : Instr} {s t : State} (h : exec i s = .next t) (hi : i ≠ .exit) (hpc : s.pc.toNat ≤ 4094)
    (hs : s.StackOk) : t.pc ≠ Config.pcExit := by
  have hstay : s.pc ≠ Config.pcExit := ne_pcExit_of_fetchable hpc
  have hskip (c : Bool) : (s.skipIf c).pc ≠ Config.pcExit := State.skipIf_pc_ne_pcExit hpc c
  have hnext {u : State} (e : u.pc = s.pc + 2) : u.pc ≠ Config.pcExit := e ▸ hskip false
  have hfault (hr : RaisedFrom s t) : t.pc ≠ Config.pcExit := by
    obtain ⟨c, op, n, rfl⟩ := hr
    exact hstay
  cases i with
  | exit => exact absurd rfl hi
  | scd | cls | scr | scl | low | high | ldImm | addImm | ldReg | orReg | andReg | xorReg | addReg | subReg | shrReg
  | subnReg | shlReg | ldI | rnd | ldVxDt | ldDtVx | ldStVx | addI | ldF | ldHf | ldRVx | ldVxR =>
    rw [state_of_next h]
    exact hnext (by simp [State.randomize, State.readDelayAt, State.armDelayAt, State.armSoundAt])
  | seImm | sneImm | seReg | sneReg =>
    rw [state_of_next h]
    exact hskip _
  | sys =>
    rw [state_of_next h]
    exact hstay
  | jp nnn =>
    rw [state_of_next h]
    exact addrOf_ne_pcExit nnn
  | jpV0 nnn =>
    rw [state_of_next h]
    exact s.offsetTarget_ne_pcExit nnn
  | call nnn => exact (execCall_cases h).elim (fun ⟨_, e⟩ => e ▸ addrOf_ne_pcExit nnn) hfault
  | ret => exact (execRet_cases h).elim (fun ⟨_, e⟩ => e ▸ hs.slot_add_ne_pcExit _) hfault
  | ldB => exact (execLdB_cases h).elim (fun ⟨_, e⟩ => e ▸ hnext (by simp)) hfault
  | ldMemVx => exact (execLdMemVx_cases h).elim (fun ⟨_, e⟩ => e ▸ hnext (by simp)) hfault
  | ldVxMem => exact (execLdVxMem_cases h).elim (fun ⟨_, e⟩ => e ▸ hnext (by simp)) hfault
  | drw => exact (execDrw_cases h).elim (fun e => e ▸ hnext (by simp)) hfault
  | skp => exact (execSkp_cases h).elim (fun ⟨c, e⟩ => e ▸ hskip c) hfault
  | sknp => exact (execSknp_cases h).elim (fun ⟨c, e⟩ => e ▸ hskip c) hfault
  | ldVxK => exact (execLdVxK_cases h).elim (fun ⟨_, e⟩ => e ▸ hnext (by simp)) fun e => e ▸ hstay

/-- Settles O13: the engine's own faults leave no machine HALTED, and of the instructions only `exit` does, whose word is
0x00FD. -/
theorem onlyExitHalts : Obligations.OnlyExitHalts := by
  intro s t hs hrun h hhalt
  obtain ⟨hfault, hpcExit⟩ := State.runState_halted.1 hhalt
  rcases step_cases s with ⟨hn, -⟩ | ⟨-, -, e⟩ | ⟨-, -, -, e⟩ | ⟨-, hpc, i, hi, e⟩
  · exact absurd hrun hn
  · rw [state_of_next (e.symm.trans h)] at hfault
    cases hfault
  · rw [state_of_next (e.symm.trans h)] at hfault
    cases hfault
  · obtain rfl : i = .exit := by
      by_contra hne
      exact exec_pc_ne_pcExit (e.symm.trans h) hne hpc hs hpcExit
    exact (decodeWord_ok hi).2.symm

end Sys2Proof.Machine
end

section
/-! PROOFS. The host's operations in any order (40_fetch_dispatch.md R116, R117): what they can change on a machine that is
not RUNNING, and that they keep the invariant. -/

namespace Sys2Proof.Machine

theorem Part.kept_trans {p : Part} {s t u : State} (h : p.kept s t) (h' : p.kept t u) : p.kept s u := by
  cases p <;> simp_all

theorem ChangesOnly.trans {written : List Part} {s t u : State} (h : ChangesOnly written s t)
    (h' : ChangesOnly written t u) : ChangesOnly written s u := fun p hp => Part.kept_trans (h p hp) (h' p hp)

theorem State.refreshInput_changesOnly (s : State) (keys : List Key) (first : Option Key) :
    ChangesOnly [.keys] s (s.refreshInput keys first) := by
  simp [ChangesOnly, forall_part]

theorem State.ackDraw_changesOnly (s : State) : ChangesOnly [.drawFlag] s s.ackDraw := by
  simp [ChangesOnly, forall_part]

theorem State.withClock_changesOnly (s : State) (now : Nat) : ChangesOnly [.env] s { s with clock := now } := by
  simp [ChangesOnly, forall_part]

/-- The pieces the host's operations beside `reset` and `step` write. -/
def hostWritten : List Part := [.mem, .keys, .drawFlag, .env, .log]

/-- On a machine that is not RUNNING a host operation but `reset` changes only what the host writes itself: the step idles
(40_fetch_dispatch.md R112). -/
theorem apply_stopped_changesOnly {op : HostOp} {σ τ : Session} (hop : op ≠ .reset) (hr : σ.state.runState ≠ .running)
    (h : σ.apply op = .next τ) : ChangesOnly hostWritten σ.state τ.state := by
  cases op with
  | reset => exact absurd rfl hop
  | load image =>
    rw [apply_load_state h]
    exact (σ.state.load_changesOnly image).mono (by simp [hostWritten])
  | refreshInput keys first =>
    rw [(apply_refreshInput_state h).2]
    exact (σ.state.refreshInput_changesOnly keys first).mono (by simp [hostWritten])
  | step =>
    rw [state_of_next ((step_not_running hr).symm.trans (apply_step_state h))]
    exact ChangesOnly.refl _ _
  | readDisplay =>
    rw [apply_readDisplay_state h]
    exact ChangesOnly.refl _ _
  | ackDraw =>
    rw [apply_ackDraw_state h]
    exact σ.state.ackDraw_changesOnly.mono (by simp [hostWritten])
  | readStatus now =>
    rw [(apply_readStatus_state h).2]
    exact (σ.state.withClock_changesOnly now).mono (by simp [hostWritten])

/-- The host writes neither of the two fields the run state is read from (R110). -/
theorem runState_of_changesOnly {s t : State} (h : ChangesOnly hostWritten s t) : t.runState = s.runState := by
  have hfault : t.fault = s.fault := h .fault (by simp [hostWritten])
  have hpc : t.pc = s.pc := h .pc (by simp [hostWritten])
  rw [State.runState, State.runState, hfault, hpc]

theorem applyAll_cons {σ τ : Session} {op : HostOp} {ops : List HostOp} (h : σ.applyAll (op :: ops) = .next τ) :
    ∃ ρ, σ.apply op = .next ρ ∧ ρ.applyAll ops = .next τ := by
  rw [Session.applyAll] at h
  cases ha : σ.apply op with
  | next ρ => exact ⟨ρ, rfl, by rwa [ha] at h⟩
  | fault f => rw [ha] at h; cases h
  | refused r => rw [ha] at h; cases h

/-- The same for any sequence of operations without `reset`: the machine stays as it stopped. -/
theorem applyAll_stopped_changesOnly {ops : List HostOp} {σ τ : Session} (hr : σ.state.runState ≠ .running)
    (hops : HostOp.reset ∉ ops) (h : σ.applyAll ops = .next τ) : ChangesOnly hostWritten σ.state τ.state := by
  induction ops generalizing σ with
  | nil =>
    obtain rfl : σ = τ := Host.Outcome.next.inj h
    exact ChangesOnly.refl _ _
  | cons op ops ih =>
    obtain ⟨hop, hops⟩ := List.ne_and_not_mem_of_not_mem_cons hops
    obtain ⟨ρ, hρ, hτ⟩ := applyAll_cons h
    have hfirst := apply_stopped_changesOnly hop.symm hr hρ
    exact hfirst.trans (ih (runState_of_changesOnly hfirst ▸ hr) hops hτ)

/-- Settles O12: a HALTED machine is not RUNNING, so the sequence leaves `fault` and `pc` as they are. -/
theorem onlyResetLeavesHalted : Obligations.OnlyResetLeavesHalted := by
  intro ops σ τ hhalt hops h
  have hr : σ.state.runState ≠ .running := by simp [hhalt]
  have hτ : τ.state.runState = .halted :=
    (runState_of_changesOnly (applyAll_stopped_changesOnly hr hops h)).trans hhalt
  exact ⟨hτ, (State.runState_halted.1 hτ).2⟩

/-! The invariant under each host operation. -/

theorem State.Inv.load {s : State} (hs : s.Inv) (image : List Byte) : (s.load image).Inv := by
  have hc := s.load_changesOnly image
  obtain ⟨hkey, hlast⟩ := hc .keys (by simp)
  exact ⟨State.wf_load image hs.mem,
    hs.clock.of_eq (hc .delay (by simp)).2 (hc .sound (by simp)).2 (hc .env (by simp)).1.ge,
    hs.latch.of_eq hkey hlast, hs.stack.of_eq (hc .stack (by simp)), hs.pc.of_eq (hc .pc (by simp))⟩

theorem State.Inv.refreshInput {s : State} (hs : s.Inv) {keys : List Key} {first : Option Key}
    (h : refreshLegal keys first = true) : (s.refreshInput keys first).Inv where
  mem := by simpa using hs.mem
  clock := hs.clock.of_eq (by simp) (by simp) (by simp)
  latch := s.latchOk_refreshInput h
  stack := hs.stack.of_eq (by simp)
  pc := hs.pc.of_eq (by simp)

theorem State.Inv.ackDraw {s : State} (hs : s.Inv) : s.ackDraw.Inv :=
  ⟨hs.mem, hs.clock, hs.latch, hs.stack, hs.pc⟩

theorem State.Inv.withClock {s : State} (hs : s.Inv) {now : Nat} (h : s.clock ≤ now) :
    State.Inv { s with clock := now } :=
  ⟨hs.mem, hs.clock.of_eq rfl rfl h, hs.latch, hs.stack, hs.pc⟩

theorem apply_keeps_inv {op : HostOp} {σ τ : Session} (h : σ.apply op = .next τ) (hs : σ.state.Inv) : τ.state.Inv := by
  cases op with
  | reset =>
    cases h
    exact σ.state.inv_hostReset
  | load image => exact apply_load_state h ▸ hs.load image
  | refreshInput keys first =>
    obtain ⟨hlegal, e⟩ := apply_refreshInput_state h
    exact e ▸ hs.refreshInput hlegal
  | step => exact stepKeepsTheInvariant _ _ hs (apply_step_state h)
  | readDisplay => exact apply_readDisplay_state h ▸ hs
  | ackDraw => exact apply_ackDraw_state h ▸ hs.ackDraw
  | readStatus now =>
    obtain ⟨hnow, e⟩ := apply_readStatus_state h
    exact e ▸ hs.withClock hnow

/-- Settles O16: the invariant holds at creation and every accepted operation keeps it. -/
theorem reachableStatesMeetTheInvariant : Obligations.ReachableStatesMeetTheInvariant := by
  intro σ hσ
  induction hσ with
  | initial => exact resetMeetsTheInvariant
  | apply op _ h ih => exact apply_keeps_inv h ih

end Sys2Proof.Machine
end

section
/-! PROOFS. What the ports report (40_fetch_dispatch.md R118, R120; 44_timers.md R195). -/

namespace Sys2Proof.Machine

/-- The display's pixels are the rows of the framebuffer, one after the other. -/
theorem State.readDisplay_pixels (s : State) : s.readDisplay.pixels = s.gfx.flatten.toList := by
  simp [State.readDisplay, Vector.flatten, List.flatMap_def, ← Vector.toList_toArray, Function.comp_def]

theorem State.readDisplay_pixels_length (s : State) : s.readDisplay.pixels.length = 2048 := by
  rw [State.readDisplay_pixels, Vector.length_toList]

theorem State.readDisplay_pixel (s : State) {c r : Nat} (hc : c < 64) (hr : r < 32) :
    s.readDisplay.pixels[64 * r + c]? = some (Gfx.pix s.gfx c r) := by
  have hrow : (64 * r + c) / 64 = r := by omega
  have hcol : (64 * r + c) % 64 = c := by omega
  rw [State.readDisplay_pixels, Vector.getElem?_toList, Vector.getElem?_flatten, dif_pos (by omega), Gfx.pix,
    dif_pos ⟨hc, hr⟩]
  simp only [hrow, hcol]

theorem apply_readStatus {σ : Session} {now : Nat} (h : σ.state.clock ≤ now) :
    σ.apply (.readStatus now) =
      .next ⟨{ σ.state with clock := now }, σ.phase, .status (σ.state.readStatus now)⟩ := if_pos h

/-- Settles O58: each port by what it answers and the piece it writes. -/
theorem portsReportTheState : Obligations.PortsReportTheState := by
  intro σ now
  refine ⟨⟨_, σ.state.readDisplay, rfl, rfl, rfl, rfl, σ.state.readDisplay_pixels_length,
      fun c r hc hr => σ.state.readDisplay_pixel hc hr⟩,
    ⟨_, rfl, rfl, σ.state.ackDraw_changesOnly.frame⟩, fun τ h => ?_⟩
  rw [apply_readStatus (apply_readStatus_state h).1] at h
  cases h
  exact ⟨rfl, (σ.state.withClock_changesOnly now).frame⟩

/-- Settles O59: the answered read moves the sampled clock and nothing else. -/
theorem statusReadIsASample : Obligations.StatusReadIsASample := fun σ now h =>
  ⟨_, apply_readStatus h, rfl, rfl, rfl, rfl, (σ.state.withClock_changesOnly now).frame⟩

end Sys2Proof.Machine
end

section
/-! PROOFS. Arithmetic, logic, shifts and random (41_arithmetic.md): every meaning of the family ends in `State.finish` or
`State.finishFlag` (R130), so the two endings are described once, then the values and flags as numbers, and each statement
puts them together. -/

namespace Sys2Proof.Machine

/-! The two endings. -/

theorem State.getV_finish_self (s : State) (x : Reg) (b : Byte) : (s.finish x b).getV x = b := by simp

/-- `finish` leaves the other registers, moves to the next instruction and touches nothing else. -/
theorem State.finish_leaves (s : State) (x : Reg) (b : Byte) : (∀ z, z ≠ x → (s.finish x b).getV z = s.getV z) ∧
    (s.finish x b).pc = s.pc + 2 ∧ Frame [.v, .pc] s (s.finish x b) :=
  ⟨fun z hz => by simp [hz], rfl, (exec_changesOnly (i := .ldImm x b) rfl).frame⟩

/-- VF is written last, so the flag is what VF holds, also when VF is the destination. -/
theorem State.getV_finishFlag_flag (s : State) (x : Reg) (b f : Byte) : (s.finishFlag x b f).getV 15 = f := by
  simp [regF]

theorem State.getV_finishFlag_result (s : State) {x : Reg} (b f : Byte) (hx : x ≠ 15) :
    (s.finishFlag x b f).getV x = b := by
  simp [regF, hx]

/-- `finishFlag` leaves the registers other than the destination and VF, moves to the next instruction and touches
nothing else. -/
theorem State.finishFlag_leaves (s : State) (x : Reg) (b f : Byte) :
    (∀ z, z ≠ x → z ≠ 15 → (s.finishFlag x b f).getV z = s.getV z) ∧ (s.finishFlag x b f).pc = s.pc + 2 ∧
      Frame [.v, .pc] s (s.finishFlag x b f) := by
  refine ⟨fun z hz hF => by simp [regF, hz, hF], rfl, ChangesOnly.frame ?_⟩
  simp [ChangesOnly, forall_part]

/-! The results and the flags as numbers. -/

theorem flagByte_toNat (c : Bool) : (flagByte c).toNat = c.toNat := by cases c <;> rfl

theorem carryFlag_eq (a b : Byte) : carryFlag a b = if 256 ≤ a.toNat + b.toNat then 1 else 0 := by
  simp [carryFlag, flagByte]

/-- A borrow happens exactly when the minuend is below the subtrahend. -/
theorem noBorrowFlag_eq (a b : Byte) : noBorrowFlag a b = if a.toNat < b.toNat then 0 else 1 := by
  by_cases h : a.toNat < b.toNat
  · simp [noBorrowFlag, flagByte, h]
  · simp [noBorrowFlag, flagByte, h, Nat.le_of_not_lt h]

theorem shiftedOutLow_toNat (b : Byte) : (shiftedOutLow b).toNat = b.toNat % 2 := by
  rw [shiftedOutLow, flagByte_toNat, BitVec.getLsbD, Nat.toNat_testBit]
  omega

theorem shiftedOutHigh_toNat (b : Byte) : (shiftedOutHigh b).toNat = b.toNat / 128 := by
  have hb := b.isLt
  rw [shiftedOutHigh, flagByte_toNat, BitVec.getLsbD, Nat.toNat_testBit]
  omega

theorem byte_sub_toNat (a b : Byte) : ((a - b).toNat : Int) = (a.toNat - b.toNat : Int) % 256 := by
  have hb := b.isLt
  rw [BitVec.toNat_sub]
  omega

theorem byte_shiftRight_one_toNat (b : Byte) : (b >>> 1).toNat = b.toNat / 2 := by
  rw [BitVec.toNat_ushiftRight, Nat.shiftRight_eq_div_pow, Nat.pow_one]

theorem byte_shiftLeft_one_toNat (b : Byte) : (b <<< 1).toNat = 2 * b.toNat % 256 := by
  rw [BitVec.toNat_shiftLeft, Nat.shiftLeft_eq, Nat.pow_one, Nat.mul_comm]

/-! The statements. The word of each is the encoder's, so it decodes as the round trip says. -/

/-- Settles O19: the meaning is `finish` with the immediate. -/
theorem loadImmediateWritesTheRegister : Obligations.LoadImmediateWritesTheRegister := fun x kk s =>
  ⟨decodeWord_encode (i := .ldImm x kk) rfl, _, rfl, s.getV_finish_self x kk, s.finish_leaves x kk⟩

/-- Settles O20: the meaning is `finishFlag` with the flag 0. -/
theorem addImmediateZeroesTheFlag : Obligations.AddImmediateZeroesTheFlag := fun x kk s =>
  ⟨decodeWord_encode (i := .addImm x kk) rfl, _, rfl, s.getV_finishFlag_flag _ _ _,
    fun hx => by rw [s.getV_finishFlag_result _ _ hx, BitVec.toNat_add], s.finishFlag_leaves _ _ _⟩

/-- Settles O21: the four meanings end in `finish`, which writes VF only as the destination. -/
theorem copyAndLogicLeaveTheFlag : Obligations.CopyAndLogicLeaveTheFlag := by
  intro x y s
  refine ⟨⟨decodeWord_encode (i := .ldReg x y) rfl, _, rfl, s.getV_finish_self _ _, s.finish_leaves _ _⟩,
    ⟨decodeWord_encode (i := .orReg x y) rfl, _, rfl, fun b => ?_, s.finish_leaves _ _⟩,
    ⟨decodeWord_encode (i := .andReg x y) rfl, _, rfl, fun b => ?_, s.finish_leaves _ _⟩,
    ⟨decodeWord_encode (i := .xorReg x y) rfl, _, rfl, fun b => ?_, s.finish_leaves _ _⟩⟩
  · rw [s.getV_finish_self, BitVec.getLsbD_or]
  · rw [s.getV_finish_self, BitVec.getLsbD_and]
  · rw [s.getV_finish_self, BitVec.getLsbD_xor]

/-- Settles O22: the meaning is `finishFlag` with the carry. -/
theorem addSetsTheCarry : Obligations.AddSetsTheCarry := fun x y s =>
  ⟨decodeWord_encode (i := .addReg x y) rfl, _, rfl, (s.getV_finishFlag_flag _ _ _).trans (carryFlag_eq _ _),
    fun hx => by rw [s.getV_finishFlag_result _ _ hx, BitVec.toNat_add], s.finishFlag_leaves _ _ _⟩

/-- Settles O23: both meanings are `finishFlag` with the inverted borrow of their own operand order. -/
theorem subtractsClearTheFlagOnBorrow : Obligations.SubtractsClearTheFlagOnBorrow := fun x y s =>
  ⟨⟨decodeWord_encode (i := .subReg x y) rfl, _, rfl, (s.getV_finishFlag_flag _ _ _).trans (noBorrowFlag_eq _ _),
      fun hx => by rw [s.getV_finishFlag_result _ _ hx, byte_sub_toNat], s.finishFlag_leaves _ _ _⟩,
    ⟨decodeWord_encode (i := .subnReg x y) rfl, _, rfl, (s.getV_finishFlag_flag _ _ _).trans (noBorrowFlag_eq _ _),
      fun hx => by rw [s.getV_finishFlag_result _ _ hx, byte_sub_toNat], s.finishFlag_leaves _ _ _⟩⟩

/-- Settles O24: both meanings are `finishFlag` with the bit of `V[y]` that the shift drops. -/
theorem shiftsMoveTheSourceByOne : Obligations.ShiftsMoveTheSourceByOne := fun x y s =>
  ⟨⟨decodeWord_encode (i := .shrReg x y) rfl, _, rfl, by rw [s.getV_finishFlag_flag, shiftedOutLow_toNat],
      fun hx => by rw [s.getV_finishFlag_result _ _ hx, byte_shiftRight_one_toNat], s.finishFlag_leaves _ _ _⟩,
    ⟨decodeWord_encode (i := .shlReg x y) rfl, _, rfl, by rw [s.getV_finishFlag_flag, shiftedOutHigh_toNat],
      fun hx => by rw [s.getV_finishFlag_result _ _ hx, byte_shiftLeft_one_toNat], s.finishFlag_leaves _ _ _⟩⟩

/-- Settles O25: the meaning is `finish` after the draw, and the draw moves the counter alone. -/
theorem randomByteIsMasked : Obligations.RandomByteIsMasked := by
  intro x kk s
  obtain ⟨hothers, hpc, -⟩ := s.drewRnd.finish_leaves x (s.rndInput &&& kk)
  exact ⟨decodeWord_encode (i := .rnd x kk) rfl, _, rfl, s.drewRnd.getV_finish_self x _, Nat.lt_succ_self _, rfl, hothers,
    hpc, (exec_changesOnly (i := .rnd x kk) rfl).frame⟩

end Sys2Proof.Machine
end

section
/-! PROOFS. Control transfer (42_control.md): the skips, the jumps and `00FD` all end in `State.setPc`, which changes
`pc` alone; call and return are that jump after `State.push` and `State.pop`; the native call is an event and a fault. -/

namespace Sys2Proof.Machine

/-! Setting `pc`, and the skips that are made of it (R150). -/

theorem State.setPc_frame (s : State) (w : Word) : Frame [.pc] s (s.setPc w) :=
  ChangesOnly.frame (by simp [ChangesOnly, forall_part])

theorem State.skipIf_of_iff (s : State) {c : Bool} {p : Prop} [Decidable p] (h : c = true ↔ p) :
    (s.skipIf c).pc = (if p then s.pc + 4 else s.pc + 2) ∧ Frame [.pc] s (s.skipIf c) :=
  ⟨by simp [h], s.setPc_frame _⟩

/-- The words of the register skips have last nibble 0 (30_encoding.md R95 rows 14, 26; R96). -/
theorem decodeWord_registerSkip_ne_ok {n0 n : Nibble} (h0 : n0 = 0x5#4 ∨ n0 = 0x9#4) (hn : n ≠ 0#4) (x y : Reg)
    (i : Instr) : decodeWord (wordXYN n0 x y n) ≠ .ok i := by
  rcases h0 with rfl | rfl
  · simp [decodeWord, hn]
  · simp [decodeWord, hn]

/-- Settles O26: both meanings are `skipIf`, with the comparison and with its opposite. -/
theorem immediateSkipsCompare : Obligations.ImmediateSkipsCompare := fun x kk s =>
  ⟨⟨decodeWord_encode (i := .seImm x kk) rfl, _, rfl, s.skipIf_of_iff beq_iff_eq⟩,
    ⟨decodeWord_encode (i := .sneImm x kk) rfl, _, rfl, s.skipIf_of_iff bne_iff_ne⟩⟩

/-- Settles O27: the same two, `9xy0` with its parameter at the default; another last nibble has no row. -/
theorem registerSkipsCompare : Obligations.RegisterSkipsCompare := fun x y s =>
  ⟨⟨decodeWord_encode (i := .seReg x y) rfl, fun _ hn => decodeWord_registerSkip_ne_ok (.inl rfl) hn x y, _, rfl,
      s.skipIf_of_iff beq_iff_eq⟩,
    ⟨decodeWord_encode (i := .sneReg x y) rfl, fun _ hn => decodeWord_registerSkip_ne_ok (.inr rfl) hn x y, _, rfl,
      s.skipIf_of_iff bne_iff_ne⟩⟩

/-- Settles O28: both meanings set `pc`, to an address and to the address with its offset. -/
theorem jumpsSetThePc : Obligations.JumpsSetThePc := fun nnn s =>
  ⟨⟨decodeWord_encode (i := .jp nnn) rfl, _, rfl, addrOf_toNat nnn, s.setPc_frame _⟩,
    ⟨decodeWord_encode (i := .jpV0 nnn) rfl, _, rfl, s.offsetTarget_toNat nnn, s.setPc_frame _⟩⟩

/-! Call and return (R156, R157). -/

/-- Below `SP_MAX` a push does not wrap `sp`. -/
theorem State.push_sp_val {s : State} (w : Word) (h : s.sp.val < 15) : (s.push w).sp.val = s.sp.val + 1 :=
  Fin.val_add_one_of_lt' (by omega)

theorem State.push_setPc_frame (s : State) (w target : Word) :
    Frame [.stack, .sp, .pc] s ((s.push w).setPc target) :=
  ChangesOnly.frame (by simp [ChangesOnly, forall_part])

theorem State.pop_setPc_frame (s : State) (target : Word) : Frame [.sp, .pc] s (s.pop.setPc target) :=
  ChangesOnly.frame (by simp [ChangesOnly, forall_part])

/-- Settles O29: below `SP_MAX` the meaning is a push and a jump, at `SP_MAX` the fault. -/
theorem callPushesItsOwnAddress : Obligations.CallPushesItsOwnAddress := by
  refine fun nnn s => ⟨decodeWord_encode (i := .call nnn) rfl, fun hsp => ?_, fun hsp => execCall_full nnn hsp⟩
  exact ⟨_, execCall_below nnn hsp, by simp, fun k hk => by simp [hk], State.push_sp_val s.pc hsp, addrOf_toNat nnn,
    s.push_setPc_frame _ _⟩

/-- A return from the slot above which `sp` stands. -/
theorem execRet_above {s : State} {k : Fin 16} (h : s.sp.val = k.val + 1) :
    s.sp - 1 = k ∧ exec .ret s = .next (s.pop.setPc (s.slot k + 2)) := by
  have hne : s.sp ≠ 0 := fun h0 => by simp [h0] at h
  have hk : s.sp - 1 = k := Fin.ext (by rw [Fin.val_sub_one_of_ne_zero hne, h, Nat.add_sub_cancel])
  exact ⟨hk, hk ▸ execRet_nonempty hne⟩

/-- Settles O30: with a saved call the meaning is a pop and a jump behind it, with none the fault. -/
theorem returnResumesAfterTheCall : Obligations.ReturnResumesAfterTheCall := by
  refine fun s => ⟨rfl, fun k hsp => ?_, fun hsp => execRet_empty hsp⟩
  obtain ⟨hk, hret⟩ := execRet_above hsp
  exact ⟨_, hret, BitVec.toNat_add _ _, hk, s.pop_setPc_frame _⟩

/-- Settles O31: the return finds the slot the call has pushed, and the pop undoes the push of `sp`. -/
theorem callThenReturnComesBack : Obligations.CallThenReturnComesBack := by
  intro nnn s hsp
  obtain ⟨hback, hret⟩ := execRet_above (s := (s.push s.pc).setPc (addrOf nnn)) (State.push_sp_val s.pc hsp)
  refine ⟨_, _, execCall_below nnn hsp, hret, by simp, hback, by simp, fun k hk => by simp [hk], ChangesOnly.frame ?_⟩
  simp [ChangesOnly, forall_part]

/-! Stopping (R159, R160). -/

/-- Settles O32: `pc` is the sentinel, so without a fault the machine is HALTED. -/
theorem exitHaltsTheMachine : Obligations.ExitHaltsTheMachine := by
  refine fun s => ⟨rfl, _, rfl, rfl, s.setPc_frame _, fun hf => ?_⟩
  have hhalt : (s.setPc Config.pcExit).runState = .halted := State.runState_halted.2 ⟨hf, rfl⟩
  exact ⟨hhalt, core_run_fixed (step_not_running (by simp [hhalt]))⟩

/-- The nibble `n1` of `0nnn` is the high nibble of `nnn`. -/
theorem sysInRange_iff (nnn : Addr12) : sysInRange nnn = true ↔ 256 ≤ nnn.toNat := by
  have hlt := nnn.isLt
  have hn1 : (nnn.extractLsb' 8 4).toNat = nnn.toNat / 256 := by
    rw [BitVec.extractLsb'_toNat, Nat.shiftRight_eq_div_pow]
    omega
  rw [sysInRange, bne_iff_ne, ne_eq, ← BitVec.toNat_inj, hn1, BitVec.toNat_ofNat]
  omega

theorem decodeWord_sys_iff (nnn : Addr12) : decodeWord (encode (.sys nnn)) = .ok (.sys nnn) ↔ 256 ≤ nnn.toNat :=
  ⟨fun h => (sysInRange_iff nnn).1 (decodeWord_ok h).1, fun h => decodeWord_encode ((sysInRange_iff nnn).2 h)⟩

/-- A fault whose `finfo` is a word holds that word. -/
theorem State.raise_toNat (s : State) (c : FaultCause) (op w : Word) : s.raise c op w.toNat = s.withFault c op w := by
  rw [State.raise_eq_withFault, BitVec.ofNat_toNat, BitVec.setWidth_eq]

/-- Settles O33: a native call decodes when it is well-formed, and its meaning is the event and the fault. -/
theorem nativeCallFaults : Obligations.NativeCallFaults := fun nnn _ =>
  ⟨decodeWord_sys_iff nnn, congrArg Host.Outcome.next (State.raise_toNat _ _ _ _)⟩

end Sys2Proof.Machine
end

section
/-! PROOFS. The index register and memory (43_index_memory.md). Besides the bytes it stores, a meaning of the family sets
`I` (R170 to R173), moves it behind a block (R175 to R178) or leaves it (R174); an access that does not fit faults before
any write. What each of these does is said once; the statements put them together. -/

namespace Sys2Proof.Machine

/-! Setting `I` (R170 to R173). -/

/-- A meaning that sets `I` moves to the next instruction and touches nothing else. -/
theorem State.setI_advance_leaves (s : State) (w : Word) :
    (s.setI w).advance.pc = s.pc + 2 ∧ Frame [.index, .pc] s (s.setI w).advance :=
  ⟨rfl, ChangesOnly.frame (by simp [ChangesOnly, forall_part])⟩

theorem State.glyphAddr_toNat (s : State) (base stride : Nat) (x : Reg) :
    (s.glyphAddr base stride x).toNat = (base + stride * (s.getV x).toNat) % 65536 := BitVec.toNat_ofNat _ _

/-- Settles O34: both meanings set `I`, to an address and to a 16-bit sum. -/
theorem indexIsLoadedAndAdded : Obligations.IndexIsLoadedAndAdded := by
  refine ⟨fun nnn s => ⟨decodeWord_encode (i := .ldI nnn) rfl, _, rfl, addrOf_toNat nnn, s.setI_advance_leaves _⟩,
    fun x s => ⟨decodeWord_encode (i := .addI x) rfl, _, rfl, ?_, s.setI_advance_leaves _⟩⟩
  rw [State.advance_i, State.setI_i, BitVec.toNat_add, s.wideV_toNat]

/-- Settles O35: both meanings set `I` to a glyph's address, each with its own font's base and stride. -/
theorem fontPointersSelectTheGlyph : Obligations.FontPointersSelectTheGlyph := fun x s =>
  ⟨⟨decodeWord_encode (i := .ldF x) rfl, _, rfl, s.glyphAddr_toNat _ _ x, s.setI_advance_leaves _⟩,
    ⟨decodeWord_encode (i := .ldHf x) rfl, _, rfl, s.glyphAddr_toNat _ _ x, s.setI_advance_leaves _⟩⟩

/-! The three decimal digits (R174). -/

/-- Byte `k` of a stored block is read back at its own address. -/
theorem Memory.read_writeBlock_inside {m : Memory} {a k : Nat} {xs : List Byte} (h : Memory.wf m = true)
    (ha : a + xs.length ≤ 4096) (hk : k < xs.length) :
    Memory.read (Memory.writeBlock m a xs) (a + k) = xs.getD k 0 := by
  rw [Memory.read_writeBlock h ha, if_pos ⟨by omega, by omega⟩, Nat.add_sub_cancel_left]

/-- Every digit fits its byte. -/
theorem bcdDigits_toNat (b : Byte) :
    (bcdDigits b).map BitVec.toNat = [b.toNat / 100, b.toNat / 10 % 10, b.toNat % 10] := by
  have hb := b.isLt
  simp only [bcdDigits, List.map_cons, List.map_nil, BitVec.toNat_ofNat, List.cons.injEq, and_true]
  omega

/-- Digit `k` of `V[x]` is read back at `I + k`. -/
theorem read_storedDigit {s : State} {k : Nat} (x : Reg) (hwf : Memory.wf s.mem = true) (hfit : s.i.toNat + 3 ≤ 4096)
    (hk : k < 3) :
    (Memory.read (Memory.writeBlock s.mem s.i.toNat (bcdDigits (s.getV x))) (s.i.toNat + k)).toNat =
      [(s.getV x).toNat / 100, (s.getV x).toNat / 10 % 10, (s.getV x).toNat % 10].getD k 0 := by
  rw [Memory.read_writeBlock_inside hwf hfit hk, ← bcdDigits_toNat]
  exact (List.getD_map _ (0 : Byte) BitVec.toNat).symm

/-- Settles O36: in bounds the meaning is a block store of the digits, else the fault. -/
theorem bcdStoresThreeDigits : Obligations.BcdStoresThreeDigits := by
  refine fun x s hwf => ⟨decodeWord_encode (i := .ldB x) rfl, fun hfit => ?_, fun hout => execLdB_outside x (by omega)⟩
  exact ⟨_, execLdB_fits x hfit, read_storedDigit (k := 0) x hwf hfit (by decide),
    read_storedDigit (k := 1) x hwf hfit (by decide), read_storedDigit (k := 2) x hwf hfit (by decide),
    fun a ha => Memory.read_writeBlock_outside hwf hfit ha, rfl, ChangesOnly.frame (by simp [ChangesOnly, forall_part])⟩

/-! The block transfers (R175 to R178). -/

theorem State.bumpI_i_toNat (s : State) (x : Reg) : (s.bumpI x).i.toNat = (s.i.toNat + x.val + 1) % 65536 := by
  have hx := x.isLt
  rw [State.bumpI_i, BitVec.toNat_add, BitVec.toNat_ofNat]
  omega

/-- A transfer to `V` loads the registers up to `x`, keeps those above, moves `I` and `pc` and touches nothing else. -/
theorem State.loadV_transfer {s t : State} {x : Reg} {f : Reg → Byte} (ht : t = ((s.loadV x f).bumpI x).advance) :
    (∀ k, k ≤ x → t.getV k = f k) ∧ (∀ k, x < k → t.getV k = s.getV k) ∧
      t.i.toNat = (s.i.toNat + x.val + 1) % 65536 ∧ t.pc = s.pc + 2 ∧ Frame [.v, .index, .pc] s t := by
  subst ht
  refine ⟨fun k hk => ?_, fun k hk => ?_, s.bumpI_i_toNat x, rfl, ChangesOnly.frame ?_⟩
  · simp [hk]
  · simp [Fin.not_le.2 hk]
  · simp [ChangesOnly, forall_part]

/-- Settles O37: in bounds the meaning is a store of the block of registers, else the fault. -/
theorem blockStoreWritesTheRegisters : Obligations.BlockStoreWritesTheRegisters := by
  refine fun x s hwf =>
    ⟨decodeWord_encode (i := .ldMemVx x) rfl, fun hfit => ?_, fun hout => execLdMemVx_outside x (by omega)⟩
  have hlen : (s.block x).length = x.val + 1 := s.block_length x
  refine ⟨_, execLdMemVx_fits x hfit, fun k hk => read_storedBlock hwf hfit hk, fun a ha => ?_, s.bumpI_i_toNat x, rfl,
    ChangesOnly.frame (by simp [ChangesOnly, forall_part])⟩
  exact Memory.read_writeBlock_outside hwf (by omega) (by omega)

/-- Settles O38: in bounds the meaning is a transfer from memory to `V`, else the fault. -/
theorem blockLoadReadsTheRegisters : Obligations.BlockLoadReadsTheRegisters := fun x s =>
  ⟨decodeWord_encode (i := .ldVxMem x) rfl, fun hfit => ⟨_, execLdVxMem_fits x hfit, State.loadV_transfer rfl⟩,
    fun hout => execLdVxMem_outside x (by omega)⟩

/-- Settles O39: both meanings are transfers that touch no memory, to `R` and from `R`. -/
theorem persistentRegistersAreSavedAndLoaded : Obligations.PersistentRegistersAreSavedAndLoaded := by
  refine fun x s => ⟨⟨decodeWord_encode (i := .ldRVx x) rfl, _, rfl, fun k hk => ?_, fun k hk => ?_, s.bumpI_i_toNat x,
    rfl, (exec_changesOnly (i := .ldRVx x) rfl).frame⟩,
    decodeWord_encode (i := .ldVxR x) rfl, _, rfl, State.loadV_transfer rfl⟩
  · simp [hk]
  · simp [Fin.not_le.2 hk]

end Sys2Proof.Machine
end

section
/-! PROOFS. Timers (44_timers.md). An armed timer shows the armed value minus the elapsed ticks, as a subtraction of
natural numbers, which saturates at 0 (R190): the formula and its fall with time are read off that equation. The three
instructions sample the clock, which goes on by a natural number (R196), and end in `State.finish` or in an arming. -/

namespace Sys2Proof.Machine

/-! The value of a timer (R190). -/

theorem timerValue_none (armed : Byte) (now : Nat) : timerValue armed none now = 0 := rfl

theorem timerValue_some_toNat (armed : Byte) (start now : Nat) :
    (timerValue armed (some start) now).toNat = armed.toNat - (now - start) * 60 / 1000 := by
  have hlt := armed.isLt
  dsimp only [timerValue]
  split
  · case isTrue h => rw [Nat.sub_eq_zero_of_le h]; rfl
  · case isFalse h => rw [BitVec.toNat_ofNat, Nat.mod_eq_of_lt (by omega)]

/-- The elapsed ticks never decrease. -/
theorem ticks_mono (start : Nat) {now later : Nat} (h : now ≤ later) :
    (now - start) * 60 / 1000 ≤ (later - start) * 60 / 1000 :=
  Nat.div_le_div_right (Nat.mul_le_mul_right 60 (Nat.sub_le_sub_right h start))

theorem timerValue_le_armed (armed : Byte) (start : Option Nat) (now : Nat) :
    (timerValue armed start now).toNat ≤ armed.toNat := by
  cases start with
  | none => exact Nat.zero_le _
  | some t => exact (timerValue_some_toNat armed t now).trans_le (Nat.sub_le _ _)

theorem timerValue_antitone (armed : Byte) (start : Option Nat) {now later : Nat} (h : now ≤ later) :
    (timerValue armed start later).toNat ≤ (timerValue armed start now).toNat := by
  cases start with
  | none => exact le_rfl
  | some t =>
    rw [timerValue_some_toNat, timerValue_some_toNat]
    exact Nat.sub_le_sub_left (ticks_mono t h) _

/-- A step that runs no instruction leaves the clock, and no instruction sets it back. -/
theorem step_clock_le {s t : State} (h : step s = .next t) : s.clock ≤ t.clock := by
  rcases step_next_cases h with hc | ⟨-, i, he⟩
  · exact (hc .env (by simp)).1.ge
  · exact exec_clock_le he

/-- Settles O42: the clock by the cases of the step, the value by the growing number of elapsed ticks. -/
theorem timersOnlyCountDown : Obligations.TimersOnlyCountDown :=
  ⟨fun _ _ => step_clock_le, fun armed start now _ h =>
    ⟨timerValue_antitone armed start h, timerValue_le_armed armed start now⟩⟩

/-- Settles O41: both clauses are the saturating subtraction, below and above its saturation. -/
theorem timerValueHasTheFormula : Obligations.TimerValueHasTheFormula := by
  refine ⟨timerValue_none, fun armed start now _ => ⟨fun h => BitVec.eq_of_toNat_eq ?_, fun h => ?_⟩⟩
  · rw [timerValue_some_toNat, Nat.sub_eq_zero_of_le h]
    rfl
  · rw [timerValue_some_toNat, Nat.sub_add_cancel h.le]

/-! The instructions at the sampled instant (R191 to R193). -/

/-- Settles O43: the meaning is `finish` after the sample, which leaves the registers and the timer. -/
theorem delayTimerIsRead : Obligations.DelayTimerIsRead := by
  intro x s
  have hexec : exec (.ldVxDt x) s = .next (s.readDelayAt x s.nowInput) := rfl
  obtain ⟨hothers, hpc, -⟩ := (s.sampledAt s.nowInput).finish_leaves x (timerValue s.dtArmed s.dtStart s.nowInput)
  exact ⟨decodeWord_encode (i := .ldVxDt x) rfl, _, hexec, exec_clock_le hexec, State.getV_finish_self _ x _, hothers,
    hpc, (exec_changesOnly hexec).frame⟩

/-- Settles O44: both meanings are an arming at the sampled instant, each of its own timer. -/
theorem timersAreArmed : Obligations.TimersAreArmed := by
  intro x s
  have hdelay : exec (.ldDtVx x) s = .next (s.armDelayAt x s.nowInput) := rfl
  have hsound : exec (.ldStVx x) s = .next (s.armSoundAt x s.nowInput) := rfl
  exact ⟨⟨decodeWord_encode (i := .ldDtVx x) rfl, _, hdelay, exec_clock_le hdelay, rfl, rfl, rfl,
      (exec_changesOnly hdelay).frame⟩,
    ⟨decodeWord_encode (i := .ldStVx x) rfl, _, hsound, exec_clock_le hsound, rfl, rfl, rfl,
      (exec_changesOnly hsound).frame⟩⟩

end Sys2Proof.Machine
end

section
/-! PROOFS. The framebuffer (45_graphics.md). Clear, scroll and the mode switches are one write each. A draw passes its two
checks and then leaves the state `State.drawn`, which is described once: its pixels, its flag, what it keeps. The two
draw formats differ only in which bits are the sprite's, so both statements are read off one account of a draw whose
sprite is given by its bits. -/

namespace Sys2Proof.Machine

/-! Clear, scroll and the mode switches (R202, R206 to R210). -/

/-- A meaning that replaces the framebuffer sets `draw_flag`, moves to the next instruction and touches nothing else. -/
theorem State.setGfx_markDrawn_advance_leaves (s : State) (g : Gfx) : (s.setGfx g).markDrawn.advance.drawFlag = true ∧
    (s.setGfx g).markDrawn.advance.pc = s.pc + 2 ∧
    Frame [.gfx, .drawFlag, .pc] s (s.setGfx g).markDrawn.advance :=
  ⟨rfl, rfl, ChangesOnly.frame (by simp [ChangesOnly, forall_part])⟩

theorem State.setHgr_advance_frame (s : State) (b : Bool) : Frame [.hgr, .pc] s (s.setHgr b).advance :=
  ChangesOnly.frame (by simp [ChangesOnly, forall_part])

/-- Settles O45: the meaning replaces the framebuffer by the blank one. -/
theorem clearTurnsEveryPixelOff : Obligations.ClearTurnsEveryPixelOff := fun s =>
  ⟨rfl, _, rfl, Gfx.pix_blank, s.setGfx_markDrawn_advance_leaves _⟩

/-- Settles O49: both meanings set the mode and advance. -/
theorem resolutionSwitchesOnlyTheFlag : Obligations.ResolutionSwitchesOnlyTheFlag := fun s =>
  ⟨⟨rfl, _, rfl, rfl, rfl, s.setHgr_advance_frame _⟩, ⟨rfl, _, rfl, rfl, rfl, s.setHgr_advance_frame _⟩⟩

/-- Settles O50: the meaning replaces the framebuffer by the scrolled one. -/
theorem scrollDownMovesTheRows : Obligations.ScrollDownMovesTheRows := by
  refine fun n s => ⟨decodeWord_encode (i := .scd n) rfl, _, rfl, fun c r hc hr hle => ?_, fun c r hc hr hlt => ?_,
    s.setGfx_markDrawn_advance_leaves _⟩
  · exact (Gfx.pix_scrollDown s.gfx _ c r ⟨hc, hr⟩).trans (if_pos hle)
  · exact (Gfx.pix_scrollDown s.gfx _ c r ⟨hc, hr⟩).trans (if_neg (Nat.not_le.2 hlt))

/-- Settles O51: both stubs are an advance, which sets `pc`. -/
theorem scrollStubsOnlyAdvance : Obligations.ScrollStubsOnlyAdvance := fun s =>
  ⟨⟨rfl, _, rfl, rfl, s.setPc_frame _⟩, ⟨rfl, _, rfl, rfl, s.setPc_frame _⟩⟩

/-! The state after a completed draw (R204, R205, R211). -/

/-- The state a draw leaves when it passes its checks (`exec_drw_drawn`). -/
def State.drawn (s : State) (x y : Reg) (n : Nibble) : State :=
  (((s.setGfx (Gfx.flipAll s.gfx (s.sprite x y n))).setV regF
    (flagByte (Gfx.anyLit s.gfx (s.sprite x y n)))).markDrawn).advance

theorem State.pix_drawn {s : State} {x y : Reg} {n : Nibble} (hgrid : (s.sprite x y n).all Pixel.inGrid = true)
    (c r : Nat) : Gfx.pix (s.drawn x y n).gfx c r =
      if (c, r) ∈ s.sprite x y n then !Gfx.pix s.gfx c r else Gfx.pix s.gfx c r :=
  Gfx.pix_flipAll s.gfx _ hgrid (s.nodup_sprite x y n) c r

theorem State.getV_drawn_flag (s : State) (x y : Reg) (n : Nibble) :
    (s.drawn x y n).getV 15 = flagByte (Gfx.anyLit s.gfx (s.sprite x y n)) := by
  simp [State.drawn, regF]

theorem State.getV_drawn_of_ne (s : State) (x y : Reg) (n : Nibble) {z : Reg} (hz : z ≠ 15) :
    (s.drawn x y n).getV z = s.getV z := by
  simp [State.drawn, regF, hz]

theorem State.drawn_changesOnly (s : State) (x y : Reg) (n : Nibble) :
    ChangesOnly [.gfx, .v, .drawFlag, .pc] s (s.drawn x y n) := by
  simp [State.drawn, ChangesOnly, forall_part]

/-- VF after a draw is the collision: some pixel of the sprite was lit. -/
theorem State.getV_drawn_flag_eq_one_iff (s : State) (x y : Reg) (n : Nibble) :
    (s.drawn x y n).getV 15 = 1 ↔ ∃ c r, (c, r) ∈ s.sprite x y n ∧ Gfx.pix s.gfx c r = true := by
  rw [State.getV_drawn_flag, ← Gfx.anyLit_iff]
  cases Gfx.anyLit s.gfx (s.sprite x y n) <;> decide

/-- VF is 1 or 0. -/
theorem State.getV_drawn_flag_of_ne_one {s : State} {x y : Reg} {n : Nibble} (h : (s.drawn x y n).getV 15 ≠ 1) :
    (s.drawn x y n).getV 15 = 0 := by
  rw [State.getV_drawn_flag] at h ⊢
  revert h
  cases Gfx.anyLit s.gfx (s.sprite x y n) <;> decide

/-! The three ways of a draw. -/

theorem exec_drw_drawn {s : State} {x y : Reg} {n : Nibble} (hfit : blockInBounds s.i.toNat (s.spriteLength n) = true)
    (hgrid : (s.sprite x y n).all Pixel.inGrid = true) : exec (.drw x y n) s = .next (s.drawn x y n) :=
  execDrw_draws x y n hfit hgrid

theorem exec_drw_memBounds {s : State} (x y : Reg) {n : Nibble} {len : Nat} (hlen : s.spriteLength n = len)
    (h1 : 1 ≤ len) (hout : 4096 ≤ s.i.toNat + len - 1) : exec (.drw x y n) s =
      .next (s.withFault .memBounds (encode (.drw x y n)) (BitVec.ofNat 16 (max s.i.toNat 4096))) := by
  subst hlen
  exact execDrw_outsideMemory x y n (by rw [Bool.eq_false_iff, ne_eq, blockInBounds_iff]; omega)

theorem exec_drw_fbBounds {s : State} {x y : Reg} {n : Nibble}
    (hfit : blockInBounds s.i.toNat (s.spriteLength n) = true) {p : Pixel} (hp : p ∈ s.sprite x y n)
    (hout : 64 ≤ p.1 ∨ 32 ≤ p.2) : exec (.drw x y n) s =
      .next (s.withFault .fbBounds (encode (.drw x y n)) (s.getV y ++ s.getV x)) := by
  have hgrid : (s.sprite x y n).all Pixel.inGrid = false := by
    refine List.all_eq_false.2 ⟨p, hp, ?_⟩
    rw [Pixel.inGrid_iff]
    omega
  rw [← State.raise_toNat]
  exact execDrw_outsideGrid x y n hfit hgrid

/-- A draw that leaves no fault has passed both checks, and the machine had no fault before. -/
theorem exec_drw_of_fault_none {s t : State} {x y : Reg} {n : Nibble} (h : exec (.drw x y n) s = .next t)
    (hf : t.fault = none) : blockInBounds s.i.toNat (s.spriteLength n) = true ∧
      (s.sprite x y n).all Pixel.inGrid = true ∧ t = s.drawn x y n := by
  cases hfit : blockInBounds s.i.toNat (s.spriteLength n) with
  | false =>
    rw [state_of_next ((execDrw_outsideMemory x y n hfit).symm.trans h)] at hf
    cases hf
  | true =>
    cases hgrid : (s.sprite x y n).all Pixel.inGrid with
    | false =>
      rw [state_of_next ((execDrw_outsideGrid x y n hfit hgrid).symm.trans h)] at hf
      cases hf
    | true => exact ⟨rfl, rfl, state_of_next ((exec_drw_drawn hfit hgrid).symm.trans h)⟩

/-! A draw whose sprite is given by its bits (R204, R205). -/

/-- The pixels are those under the set bits of `rows` rows of `cols` columns, placed at `(vx, vy)`. -/
def SpriteBits (ps : List Pixel) (vx vy rows cols : Nat) (bit : Nat → Nat → Bool) : Prop :=
  ∀ p : Pixel, p ∈ ps ↔ ∃ row col, row < rows ∧ col < cols ∧ bit row col = true ∧ p = (vx + col, vy + row)

theorem State.spriteBits_low {s : State} (x y : Reg) {n : Nibble} (h : ¬(s.hgr = true ∧ n = 0)) :
    SpriteBits (s.sprite x y n) (s.getV x).toNat (s.getV y).toNat n.toNat 8
      fun row col => (Memory.read s.mem (s.i.toNat + row)).getLsbD (7 - col) :=
  State.mem_sprite_low x y h

theorem State.spriteBits_high {s : State} (x y : Reg) (h : s.hgr = true) :
    SpriteBits (s.sprite x y 0) (s.getV x).toNat (s.getV y).toNat 15 15
      fun row col => (Memory.readWord s.mem (s.i.toNat + 2 * row)).getLsbD (15 - col) :=
  State.mem_sprite_high x y h

section SpriteBits

variable {s : State} {x y : Reg} {n : Nibble} {vx vy rows cols : Nat} {bit : Nat → Nat → Bool}

theorem SpriteBits.mem {ps : List Pixel} (h : SpriteBits ps vx vy rows cols bit) {row col : Nat} (hr : row < rows)
    (hc : col < cols) (hb : bit row col = true) : (vx + col, vy + row) ∈ ps :=
  (h _).2 ⟨row, col, hr, hc, hb, rfl⟩

theorem SpriteBits.not_mem {ps : List Pixel} (h : SpriteBits ps vx vy rows cols bit) {c r : Nat}
    (hout : ∀ row col, row < rows → col < cols → bit row col = true → ¬(c = vx + col ∧ r = vy + row)) :
    (c, r) ∉ ps := by
  intro hp
  obtain ⟨row, col, hr, hc, hb, e⟩ := (h _).1 hp
  exact hout row col hr hc hb (Prod.mk.inj e)

theorem SpriteBits.all_inGrid {ps : List Pixel} (h : SpriteBits ps vx vy rows cols bit)
    (hin : ∀ row col, row < rows → col < cols → bit row col = true → vx + col < 64 ∧ vy + row < 32) :
    ps.all Pixel.inGrid = true := by
  refine List.all_eq_true.2 fun p hp => ?_
  obtain ⟨row, col, hr, hc, hb, rfl⟩ := (h p).1 hp
  exact (Pixel.inGrid_iff _).2 (hin row col hr hc hb)

/-- No lit pixel under a set bit: VF is 0. -/
theorem SpriteBits.flag_of_dark (h : SpriteBits (s.sprite x y n) vx vy rows cols bit)
    (hdark : ∀ row col, row < rows → col < cols → bit row col = true → Gfx.pix s.gfx (vx + col) (vy + row) = false) :
    (s.drawn x y n).getV 15 = 0 := by
  refine State.getV_drawn_flag_of_ne_one fun h1 => ?_
  obtain ⟨c, r, hp, hlit⟩ := (s.getV_drawn_flag_eq_one_iff x y n).1 h1
  obtain ⟨row, col, hr, hc, hb, e⟩ := (h _).1 hp
  obtain ⟨rfl, rfl⟩ := Prod.mk.inj e
  exact absurd hlit (by simp [hdark row col hr hc hb])

/-- A draw inside memory: the fault of a set bit outside the grid, and the drawn state in terms of the bits. -/
theorem SpriteBits.exec_drw (h : SpriteBits (s.sprite x y n) vx vy rows cols bit)
    (hfit : blockInBounds s.i.toNat (s.spriteLength n) = true) :
    ((∃ row col, row < rows ∧ col < cols ∧ bit row col = true ∧ (64 ≤ vx + col ∨ 32 ≤ vy + row)) →
      exec (.drw x y n) s = .next (s.withFault .fbBounds (encode (.drw x y n)) (s.getV y ++ s.getV x))) ∧
    ((∀ row col, row < rows → col < cols → bit row col = true → vx + col < 64 ∧ vy + row < 32) →
      ∃ t, exec (.drw x y n) s = .next t ∧
        (∀ row col, row < rows → col < cols → bit row col = true →
          Gfx.pix t.gfx (vx + col) (vy + row) = !Gfx.pix s.gfx (vx + col) (vy + row)) ∧
        (∀ c r, (∀ row col, row < rows → col < cols → bit row col = true → ¬(c = vx + col ∧ r = vy + row)) →
          Gfx.pix t.gfx c r = Gfx.pix s.gfx c r) ∧
        ((∃ row col, row < rows ∧ col < cols ∧ bit row col = true ∧ Gfx.pix s.gfx (vx + col) (vy + row) = true) →
          t.getV 15 = 1) ∧
        ((∀ row col, row < rows → col < cols → bit row col = true → Gfx.pix s.gfx (vx + col) (vy + row) = false) →
          t.getV 15 = 0) ∧
        (∀ z, z ≠ 15 → t.getV z = s.getV z) ∧ t.drawFlag = true ∧ t.pc = s.pc + 2 ∧
        Frame [.gfx, .v, .drawFlag, .pc] s t) := by
  refine ⟨fun ⟨row, col, hr, hc, hb, hout⟩ => exec_drw_fbBounds hfit (h.mem hr hc hb) hout, fun hin => ?_⟩
  have hgrid := h.all_inGrid hin
  refine ⟨_, exec_drw_drawn hfit hgrid, fun row col hr hc hb => ?_, fun c r hout => ?_,
    fun ⟨row, col, hr, hc, hb, hlit⟩ => ?_, h.flag_of_dark, fun z => s.getV_drawn_of_ne x y n, rfl, rfl,
    (s.drawn_changesOnly x y n).frame⟩
  · rw [State.pix_drawn hgrid, if_pos (h.mem hr hc hb)]
  · rw [State.pix_drawn hgrid, if_neg (h.not_mem hout)]
  · exact (s.getV_drawn_flag_eq_one_iff x y n).2 ⟨_, _, h.mem hr hc hb, hlit⟩

end SpriteBits

/-- Settles O46: a low-resolution sprite is `n` bytes of 8 bits. -/
theorem lowResolutionDraw : Obligations.LowResolutionDraw := by
  intro x y n s hlow
  have hlen : s.spriteLength n = n.toNat := State.spriteLength_low hlow
  refine ⟨decodeWord_encode (i := .drw x y n) rfl, exec_drw_memBounds x y hlen, fun hfit => ?_⟩
  exact (s.spriteBits_low x y hlow).exec_drw (by rw [blockInBounds_iff, hlen]; omega)

/-- Settles O47: a high-resolution sprite is 15 words, of which 15 bits are drawn. -/
theorem highResolutionDraw : Obligations.HighResolutionDraw := by
  intro x y s hhigh
  have hlen : s.spriteLength 0 = 30 := State.spriteLength_high hhigh
  refine ⟨decodeWord_encode (i := .drw x y 0) rfl, exec_drw_memBounds x y hlen (by decide), fun hfit => ?_⟩
  exact (s.spriteBits_high x y hhigh).exec_drw (by rw [blockInBounds_iff, hlen]; omega)

/-! The same draw twice (R204). -/

/-- A completed draw that leaves its coordinate registers leaves everything its sprite is read from. -/
theorem State.sprite_drawn {s : State} {x y : Reg} {n : Nibble} (hx : (s.drawn x y n).getV x = s.getV x)
    (hy : (s.drawn x y n).getV y = s.getV y) : (s.drawn x y n).sprite x y n = s.sprite x y n := by
  rw [State.sprite, hx, hy]
  rfl

/-- Settles O48: the second draw finds the same sprite, and its flips undo the first ones; it meets a lit pixel where the
first draw lit one. -/
theorem drawingTwiceRestoresTheScreen : Obligations.DrawingTwiceRestoresTheScreen := by
  intro x y n s t h hf hx hy
  obtain ⟨hfit, hgrid, rfl⟩ := exec_drw_of_fault_none h hf
  have hsame : (s.drawn x y n).sprite x y n = s.sprite x y n := State.sprite_drawn hx hy
  have hgrid' : ((s.drawn x y n).sprite x y n).all Pixel.inGrid = true := hsame ▸ hgrid
  refine ⟨_, exec_drw_drawn hfit hgrid', hf, fun c r => ?_, ?_⟩
  · rw [State.pix_drawn hgrid', State.pix_drawn hgrid, hsame]
    by_cases hp : (c, r) ∈ s.sprite x y n
    · rw [if_pos hp, if_pos hp, Bool.not_not]
    · rw [if_neg hp, if_neg hp]
  · rw [State.getV_drawn_flag_eq_one_iff, hsame]
    refine exists₂_congr fun c r => ?_
    rw [State.pix_drawn hgrid]
    by_cases hp : (c, r) ∈ s.sprite x y n
    · simp [hp]
    · simp [hp]

end Sys2Proof.Machine
end

section
/-! PROOFS. The keypad (46_input.md). A key skip is `skipIf` on the latched key, or the fault when the register names no
key; the polling wait is `finish` with the latched key, or nothing; a refresh writes the latch alone. -/

namespace Sys2Proof.Machine

/-! The key skips (R221, R222). -/

theorem exec_skp_key {s : State} {x : Reg} {k : Key} (h : (s.getV x).toNat = k.val) :
    exec (.skp x) s = .next (s.skipIf (s.pressed k)) := by
  change execSkp x s = _
  rw [execSkp, State.keyOf_some h]

theorem exec_sknp_key {s : State} {x : Reg} {k : Key} (h : (s.getV x).toNat = k.val) :
    exec (.sknp x) s = .next (s.skipIf (!s.pressed k)) := by
  change execSknp x s = _
  rw [execSknp, State.keyOf_some h]

theorem exec_skp_keyIndex {s : State} {x : Reg} (h : 16 ≤ (s.getV x).toNat) :
    exec (.skp x) s = .next (s.raise .keyIndex (encode (.skp x)) (s.getV x).toNat) := by
  change execSkp x s = _
  rw [execSkp, State.keyOf_none h]

theorem exec_sknp_keyIndex {s : State} {x : Reg} (h : 16 ≤ (s.getV x).toNat) :
    exec (.sknp x) s = .next (s.raise .keyIndex (encode (.sknp x)) (s.getV x).toNat) := by
  change execSknp x s = _
  rw [execSknp, State.keyOf_none h]

/-- Settles O52: below 16 both meanings are `skipIf`, on the latched key and on its opposite; from 16 on both are the
fault. -/
theorem keySkipsReadTheLatch : Obligations.KeySkipsReadTheLatch := by
  refine fun x s => ⟨decodeWord_encode (i := .skp x) rfl, decodeWord_encode (i := .sknp x) rfl,
    fun k hk => ⟨?_, ?_⟩, fun hout => ⟨exec_skp_keyIndex hout, exec_sknp_keyIndex hout⟩⟩
  · exact ⟨_, exec_skp_key hk, s.skipIf_of_iff Iff.rfl⟩
  · exact ⟨_, exec_sknp_key hk, s.skipIf_of_iff (Bool.not_eq_true' _).to_iff⟩

/-! The polling wait (R223). -/

theorem exec_ldVxK_latched {s : State} (x : Reg) {k : Key} (h : s.lastKey = some k) :
    exec (.ldVxK x) s = .next (s.finish x (BitVec.ofNat 8 k.val)) := by
  change execLdVxK x s = _
  rw [execLdVxK, h]

theorem exec_ldVxK_idle {s : State} (x : Reg) (h : s.lastKey = none) : exec (.ldVxK x) s = .next s := by
  change execLdVxK x s = _
  rw [execLdVxK, h]

/-- Every key number fits a register. -/
theorem key_byte_toNat (k : Key) : (BitVec.ofNat 8 k.val).toNat = k.val := by
  rw [BitVec.toNat_ofNat]
  omega

/-- Settles O53: with a key latched the meaning is `finish` with its number, with none it answers the same state. -/
theorem keyWaitPollsTheLatch : Obligations.KeyWaitPollsTheLatch := by
  refine fun x s => ⟨decodeWord_encode (i := .ldVxK x) rfl, fun k hk => ?_, exec_ldVxK_idle x⟩
  exact ⟨_, exec_ldVxK_latched x hk, by rw [s.getV_finish_self, key_byte_toNat], s.finish_leaves x _⟩

/-! The refresh (R220). -/

theorem refreshLegal_iff (keys : List Key) (first : Option Key) :
    refreshLegal keys first = true ↔ (first = none ∧ keys = []) ∨ (∃ k, first = some k ∧ k ∈ keys) := by
  cases first with
  | none => simp [refreshLegal]
  | some k => simp [refreshLegal]

theorem State.pressed_refreshInput_iff (s : State) (keys : List Key) (first : Option Key) (k : Key) :
    (s.refreshInput keys first).pressed k = true ↔ k ∈ keys := by
  rw [State.pressed_refreshInput, List.contains_iff_mem]

theorem apply_refreshInput {σ : Session} {keys : List Key} {first : Option Key} (h : refreshLegal keys first = true) :
    σ.apply (.refreshInput keys first) = σ.answer (σ.state.refreshInput keys first) .done σ.phase := if_pos h

/-- Settles O54: a legal refresh is answered, and what it writes is the latch. -/
theorem refreshOverwritesTheLatch : Obligations.RefreshOverwritesTheLatch := by
  intro keys first σ h
  have hlegal : refreshLegal keys first = true := (refreshLegal_iff keys first).2 h
  exact ⟨_, apply_refreshInput hlegal, σ.state.pressed_refreshInput_iff keys first, rfl,
    σ.state.latchOk_refreshInput hlegal, (σ.state.refreshInput_changesOnly keys first).frame⟩

end Sys2Proof.Machine
end

section
/-! PROOFS. Faults (60_exceptions.md R230 to R233). A step of a RUNNING machine leaves the record that the table of causes
asks for, and writes beside it at most the log; this is said once, for the instruction and for the step, and both statements
are read off it. -/

namespace Sys2Proof.Machine

/-! The record a table asks for, and the state that takes it. -/

/-- With no record asked for, the record stays; with one asked for, it is written and nothing else but the log. -/
def TakesRecord (s t : State) : Option FaultRecord → Prop
  | none => t.fault = s.fault
  | some f => t = { s with fault := some f, log := t.log }

/-- The record an instruction must leave: the cause the table gives, at `pc`, with the word of the instruction. -/
def instrRecord (i : Instr) (s : State) : Option FaultRecord :=
  (instrFault i s).map fun f => ⟨f.1, s.pc, encode i, BitVec.ofNat 16 f.2⟩

theorem TakesRecord.fault_eq {s t : State} {r : Option FaultRecord} (h : TakesRecord s t r) (hs : s.fault = none) :
    t.fault = r := by
  cases r with
  | none => exact Eq.trans h hs
  | some f => exact congrArg State.fault h

section Ways

variable {i : Instr} {s t u : State}

/-- A way of an instruction on which the table has no cause and the meaning leaves the record. -/
theorem takesRecord_of_none (hf : instrFault i s = none) (hu : exec i s = .next u) (hrec : u.fault = s.fault)
    (h : exec i s = .next t) : TakesRecord s t (instrRecord i s) := by
  obtain rfl := state_of_next (hu.symm.trans h)
  rw [instrRecord, hf]
  exact hrec

/-- A way of an instruction on which the meaning raises the cause of the table. -/
theorem takesRecord_of_raise {c : FaultCause} {n : Nat} (hf : instrFault i s = some (c, n))
    (hr : exec i s = .next (s.raise c (encode i) n)) (h : exec i s = .next t) : TakesRecord s t (instrRecord i s) := by
  obtain rfl := state_of_next (hr.symm.trans h)
  rw [instrRecord, hf]
  rfl

/-- An instruction whose one check is that of a block from `I`. -/
theorem takesRecord_of_block {len : Nat} (hf : instrFault i s = memCause s.i.toNat len)
    (he : exec i s = if blockInBounds s.i.toNat len then .next u else .next (s.memFault (encode i)))
    (hrec : u.fault = s.fault) (h : exec i s = .next t) : TakesRecord s t (instrRecord i s) := by
  cases hb : blockInBounds s.i.toNat len with
  | true => exact takesRecord_of_none (hf.trans (memCause_inside hb)) (he.trans (if_pos hb)) hrec h
  | false =>
    exact takesRecord_of_raise (hf.trans (memCause_outside hb)) (he.trans (by rw [hb]; rfl)) h

end Ways

/-! The causes of a draw: MEM_BOUNDS before FB_BOUNDS (R233). -/

theorem State.spriteLength_eq (s : State) (n : Nibble) :
    s.spriteLength n = if s.hgr = true ∧ n = 0#4 then 30 else n.toNat := by
  simp only [State.spriteLength, State.drawsHigh_iff, BitVec.ofNat_eq_ofNat]

theorem State.originInfo_eq (s : State) (x y : Reg) :
    s.originInfo x y = 256 * (s.getV y).toNat + (s.getV x).toNat := by
  rw [State.originInfo, toNat_append_eq]
  omega

/-- The column "when" of FB_BOUNDS (R230) is the failure of the grid check. -/
theorem exists_outside_iff (ps : List Pixel) :
    (∃ p ∈ ps, 64 ≤ p.1 ∨ 32 ≤ p.2) ↔ ps.all Pixel.inGrid = false := by
  rw [List.all_eq_false]
  refine exists_congr fun p => and_congr_right fun _ => ?_
  rw [Pixel.inGrid_iff]
  omega

theorem instrFault_drw_outsideMemory {s : State} {n : Nibble} (x y : Reg)
    (h : blockInBounds s.i.toNat (s.spriteLength n) = false) :
    instrFault (.drw x y n) s = some (.memBounds, max s.i.toNat 4096) := by
  rw [State.spriteLength_eq] at h
  simp only [instrFault, memCause_outside h]

theorem instrFault_drw_insideMemory {s : State} {n : Nibble} (x y : Reg)
    (h : blockInBounds s.i.toNat (s.spriteLength n) = true) :
    instrFault (.drw x y n) s =
      if (s.sprite x y n).all Pixel.inGrid = false then some (.fbBounds, s.originInfo x y) else none := by
  rw [State.spriteLength_eq] at h
  simp only [instrFault, memCause_inside h, exists_outside_iff, State.originInfo_eq]

theorem takesRecord_drw {x y : Reg} {n : Nibble} {s t : State} (h : exec (.drw x y n) s = .next t) :
    TakesRecord s t (instrRecord (.drw x y n) s) := by
  cases hm : blockInBounds s.i.toNat (s.spriteLength n) with
  | false => exact takesRecord_of_raise (instrFault_drw_outsideMemory x y hm) (execDrw_outsideMemory x y n hm) h
  | true =>
    have hf := instrFault_drw_insideMemory x y hm
    cases hg : (s.sprite x y n).all Pixel.inGrid with
    | false => exact takesRecord_of_raise (hf.trans (if_pos hg)) (execDrw_outsideGrid x y n hm hg) h
    | true => exact takesRecord_of_none (hf.trans (if_neg (by simp [hg]))) (exec_drw_drawn hm hg) rfl h

/-! The instruction and the step. -/

/-- Every instruction takes the record the table of causes asks for, way by way. -/
theorem exec_takesRecord {i : Instr} {s t : State} (h : exec i s = .next t) : TakesRecord s t (instrRecord i s) := by
  cases i with
  | scd | cls | scr | scl | exit | low | high | jp | seImm | sneImm | seReg | ldImm | addImm | ldReg | orReg | andReg
  | xorReg | addReg | subReg | shrReg | subnReg | shlReg | sneReg | ldI | jpV0 | rnd | ldVxDt | ldVxK | ldDtVx | ldStVx
  | addI | ldF | ldHf | ldRVx | ldVxR =>
    exact takesRecord_of_none rfl h (exec_changesOnly h .fault (by simp)) h
  | sys nnn =>
    obtain rfl := state_of_next h
    have hinfo : (encode (.sys nnn)).toNat = nnn.toNat := by simp [encode, wordNNN_toNat]
    rw [hinfo]
    rfl
  | call nnn =>
    by_cases hsp : s.sp.val = 15
    · exact takesRecord_of_raise (if_pos hsp) (execCall_full nnn hsp) h
    · exact takesRecord_of_none (if_neg hsp) (execCall_below nnn (by omega)) rfl h
  | ret =>
    by_cases hsp : s.sp = 0
    · exact takesRecord_of_raise (if_pos (by simp [hsp])) (execRet_empty hsp) h
    · exact takesRecord_of_none (if_neg (Fin.val_ne_zero_iff.2 hsp)) (execRet_nonempty hsp) rfl h
  | ldB x => exact takesRecord_of_block rfl rfl rfl h
  | ldMemVx x => exact takesRecord_of_block rfl rfl rfl h
  | ldVxMem x => exact takesRecord_of_block rfl rfl rfl h
  | drw x y n => exact takesRecord_drw h
  | skp x =>
    by_cases hk : 16 ≤ (s.getV x).toNat
    · exact takesRecord_of_raise (if_pos hk) (exec_skp_keyIndex hk) h
    · exact takesRecord_of_none (if_neg hk) (exec_skp_key (k := ⟨_, not_le.1 hk⟩) rfl) rfl h
  | sknp x =>
    by_cases hk : 16 ≤ (s.getV x).toNat
    · exact takesRecord_of_raise (if_pos hk) (exec_sknp_keyIndex hk) h
    · exact takesRecord_of_none (if_neg hk) (exec_sknp_key (k := ⟨_, not_le.1 hk⟩) rfl) rfl h

/-! The record the step must leave, line by line of R112. -/

theorem State.expectedRecord_unfetchable {s : State} (hpc : 4094 < s.pc.toNat) :
    s.expectedRecord = some ⟨.fetchBounds, s.pc, 0, s.pc⟩ := if_pos hpc

theorem State.expectedRecord_unknown {s : State} {e : DecodeError} (hpc : s.pc.toNat ≤ 4094)
    (hd : decodeWord (Memory.readWord s.mem s.pc.toNat) = .error e) : s.expectedRecord =
      some ⟨.illegalOpcode, s.pc, Memory.readWord s.mem s.pc.toNat, Memory.readWord s.mem s.pc.toNat⟩ := by
  rw [Memory.readWord] at hd ⊢
  simp only [State.expectedRecord, if_neg (not_lt.2 hpc), hd]

theorem State.expectedRecord_decoded {s : State} {i : Instr} (hpc : s.pc.toNat ≤ 4094)
    (hd : decodeWord (Memory.readWord s.mem s.pc.toNat) = .ok i) : s.expectedRecord = instrRecord i s := by
  rw [instrRecord, (decodeWord_ok hd).2]
  rw [Memory.readWord] at hd ⊢
  simp only [State.expectedRecord, if_neg (not_lt.2 hpc), hd]

/-- Every record the table asks for names the `pc` and the fetched word, 0 where none could be fetched. -/
theorem State.expectedRecord_origin {s : State} {f : FaultRecord} (h : s.expectedRecord = some f) :
    f.fpc = s.pc ∧ f.fop = if s.pc.toNat ≤ 4094 then Memory.readWord s.mem s.pc.toNat else 0 := by
  by_cases hpc : s.pc.toNat ≤ 4094
  · rw [if_pos hpc]
    cases hd : decodeWord (Memory.readWord s.mem s.pc.toNat) with
    | error e =>
      rw [expectedRecord_unknown hpc hd] at h
      cases h
      exact ⟨rfl, rfl⟩
    | ok i =>
      rw [expectedRecord_decoded hpc hd, instrRecord, (decodeWord_ok hd).2] at h
      obtain ⟨c, -, rfl⟩ := Option.map_eq_some_iff.1 h
      exact ⟨rfl, rfl⟩
  · rw [if_neg hpc]
    rw [expectedRecord_unfetchable (not_le.1 hpc)] at h
    cases h
    exact ⟨rfl, rfl⟩

/-- A step of a RUNNING machine takes the record the table of causes asks for: the engine's own faults at fetch and at
decode, or the decoded instruction's. -/
theorem step_takesRecord {s t : State} (hrun : s.runState = .running) (h : step s = .next t) :
    TakesRecord s t s.expectedRecord := by
  rcases step_cases s with ⟨hn, -⟩ | ⟨-, hpc, e⟩ | ⟨-, hpc, ⟨err, hd⟩, e⟩ | ⟨-, hpc, i, hd, e⟩
  · exact absurd hrun hn
  · obtain rfl := state_of_next (e.symm.trans h)
    rw [State.expectedRecord_unfetchable hpc, fetchFault_eq]
    rfl
  · obtain rfl := state_of_next (e.symm.trans h)
    rw [State.expectedRecord_unknown hpc hd, illegalOpcode_eq]
    rfl
  · rw [State.expectedRecord_decoded hpc hd]
    exact exec_takesRecord (e.symm.trans h)

/-- Settles O10: a RUNNING machine has no fault, so the record after its step is the one asked for. -/
theorem everyFaultHasItsCauseAndInfo : Obligations.EveryFaultHasItsCauseAndInfo :=
  ⟨rfl, fun _ _ hrun h => (step_takesRecord hrun h).fault_eq (State.runState_running.1 hrun).1⟩

theorem State.withRecord_changesOnly (s : State) (f : Option FaultRecord) (l : List LogEvent) :
    ChangesOnly [.fault, .log] s { s with fault := f, log := l } := by
  simp [ChangesOnly, forall_part]

/-- Settles O9: the machine was RUNNING, for an idle step leaves no new fault; so its step has taken the record of the table
of causes, and a FAULTED machine idles. -/
theorem faultEntryWritesOnlyTheRecord : Obligations.FaultEntryWritesOnlyTheRecord := by
  intro s t hs h ht
  have hrun : s.runState = .running := by
    by_contra hn
    exact ht (state_of_next ((step_not_running hn).symm.trans h) ▸ hs)
  have hrec := step_takesRecord hrun h
  have hfault := hrec.fault_eq hs
  obtain ⟨f, hf⟩ := Option.ne_none_iff_exists'.1 ht
  have hexp : s.expectedRecord = some f := hfault.symm.trans hf
  have heq : t = { s with fault := t.fault, log := t.log } := by
    rw [hexp] at hrec
    rw [hf]
    exact hrec
  have hfaulted : t.runState = .faulted := State.runState_faulted.2 ht
  exact ⟨⟨f, hf, hexp, State.expectedRecord_origin hexp⟩, heq, heq ▸ (s.withRecord_changesOnly _ _).frame, hfaulted,
    core_run_fixed (step_not_running (by simp [hfaulted]))⟩

end Sys2Proof.Machine
end

section
/-! PROOFS. The way out of FAULTED (60_exceptions.md R234): the host's `reset` alone, which leaves the state at creation but
for the model's own fields. -/

namespace Sys2Proof.Machine

/-- After the host's `reset` the machine differs from the one at creation in the environment and the log at most. -/
theorem State.hostReset_changesOnly (s : State) : ChangesOnly [.env, .log] State.reset s.hostReset := by
  simp [ChangesOnly, forall_part, State.hostReset]

theorem not_running_of_fault {s : State} (h : s.fault ≠ none) : s.runState ≠ .running :=
  fun hr => h (State.runState_running.1 hr).1

/-- Settles O11: a FAULTED machine is not RUNNING, so no host operation but `reset` reaches its record; the four ports do not
look at the run state. -/
theorem onlyResetLeavesFaulted : Obligations.OnlyResetLeavesFaulted := by
  refine ⟨fun s hs => step_not_running (not_running_of_fault hs), fun ops σ τ hs hops h => ?_,
    fun s => ⟨rfl, s.hostReset_changesOnly.frame⟩, fun σ keys k now _ hk hnow => ⟨?_, ?_, ?_, ?_⟩⟩
  · exact applyAll_stopped_changesOnly (not_running_of_fault hs) hops h .fault (by simp [hostWritten])
  · have hlegal : refreshLegal keys (some k) = true := (refreshLegal_iff _ _).2 (.inr ⟨k, rfl, hk⟩)
    exact ⟨_, apply_refreshInput hlegal, σ.state.pressed_refreshInput_iff keys (some k), rfl⟩
  · exact ⟨_, rfl, rfl, rfl⟩
  · exact ⟨_, rfl, rfl⟩
  · exact ⟨_, apply_readStatus hnow, rfl⟩

end Sys2Proof.Machine
end

section
/-! PROOFS. Loading (70_reset_and_hazards.md R262, R263) and the host's contract (93_implementation_defined.md U19). What an
address holds after an accepted `load` is said once; each host operation that can be refused is said once for each way. -/

namespace Sys2Proof.Machine

/-! The layout: the small font, the large font and the image stand in this order and do not overlap. -/

theorem fontLoBase_eq : Config.fontLoBase = 80 := rfl

theorem fontHiBase_eq : Config.fontHiBase = 160 := rfl

theorem progBase_toNat : Config.progBase.toNat = 512 := rfl

theorem fontLoData_length : Config.fontLoData.length = 80 := rfl

theorem fontHiData_length : Config.fontHiData.length = 100 := rfl

/-! Memory after an accepted `load`. -/

/-- Every address after an accepted `load`: the last of the three stores that covers it decides. -/
theorem State.read_load {s : State} {image : List Byte} (hwf : Memory.wf s.mem = true)
    (hfit : imageFits image = true) (a : Nat) :
    Memory.read (s.load image).mem a =
      if 512 ≤ a ∧ a < 512 + image.length then image.getD (a - 512) 0
      else if 160 ≤ a ∧ a < 260 then Config.fontHiData.getD (a - 160) 0
      else if 80 ≤ a ∧ a < 160 then Config.fontLoData.getD (a - 80) 0
      else Memory.read s.mem a := by
  have hlen : image.length ≤ 3584 := (imageFits_iff image).1 hfit
  have hlo := Memory.wf_writeBlock (a := 80) (xs := Config.fontLoData) hwf (by decide)
  have hhi := Memory.wf_writeBlock (a := 160) (xs := Config.fontHiData) hlo (by decide)
  rw [State.load_fits s hfit, State.setMem_mem, fontLoBase_eq, fontHiBase_eq, progBase_toNat,
    Memory.read_writeBlock hhi (by omega), Memory.read_writeBlock hlo (by decide),
    Memory.read_writeBlock hwf (by decide), fontLoData_length, fontHiData_length]

section AcceptedLoad
variable {s : State} {image : List Byte} (hwf : Memory.wf s.mem = true) (hfit : imageFits image = true)
include hwf hfit

theorem State.read_load_fontLo {k : Nat} (hk : k < 80) :
    Memory.read (s.load image).mem (Config.fontLoBase + k) = Config.fontLoData.getD k 0 := by
  rw [fontLoBase_eq, State.read_load hwf hfit, if_neg (by omega), if_neg (by omega), if_pos (by omega),
    Nat.add_sub_cancel_left]

theorem State.read_load_fontHi {k : Nat} (hk : k < 100) :
    Memory.read (s.load image).mem (Config.fontHiBase + k) = Config.fontHiData.getD k 0 := by
  rw [fontHiBase_eq, State.read_load hwf hfit, if_neg (by omega), if_pos (by omega), Nat.add_sub_cancel_left]

theorem State.read_load_image {k : Nat} (hk : k < image.length) :
    Memory.read (s.load image).mem (Config.progBase.toNat + k) = image.getD k 0 := by
  rw [progBase_toNat, State.read_load hwf hfit, if_pos (by omega), Nat.add_sub_cancel_left]

theorem State.read_load_outside {a : Nat} (hlo : ¬(Config.fontLoBase ≤ a ∧ a < Config.fontLoBase + 80))
    (hhi : ¬(Config.fontHiBase ≤ a ∧ a < Config.fontHiBase + 100))
    (himg : ¬(Config.progBase.toNat ≤ a ∧ a < Config.progBase.toNat + image.length)) :
    Memory.read (s.load image).mem a = Memory.read s.mem a := by
  rw [fontLoBase_eq] at hlo
  rw [fontHiBase_eq] at hhi
  rw [progBase_toNat] at himg
  rw [State.read_load hwf hfit, if_neg himg, if_neg hhi, if_neg hlo]

end AcceptedLoad

theorem State.load_fits_changesOnly (s : State) {image : List Byte} (hfit : imageFits image = true) :
    ChangesOnly [.mem] s (s.load image) := by
  simp [State.load_fits s hfit, ChangesOnly, forall_part]

/-- Settles O57: an accepted image address by address, a too long one by the event it sends. -/
theorem loadInstallsFontsThenTheImage : Obligations.LoadInstallsFontsThenTheImage := by
  refine fun image s hwf => ⟨fun hlen => ?_, fun hlen => ?_⟩
  · have hfit : imageFits image = true := (imageFits_iff image).2 hlen
    exact ⟨hfit, fun k => State.read_load_fontLo hwf hfit, fun k => State.read_load_fontHi hwf hfit,
      fun k => State.read_load_image hwf hfit, fun a => State.read_load_outside hwf hfit,
      (s.load_fits_changesOnly hfit).frame⟩
  · have hlong : imageFits image = false := Bool.eq_false_iff.2 fun h => hlen.not_ge ((imageFits_iff image).1 h)
    exact ⟨hlong, s.load_tooLong hlong⟩

/-! The host's operations that can be refused (log entry 8): `refresh_input`, `read_status`, `load`, `step`. -/

/-- The breaches of a refresh are the pairs that are not legal. -/
theorem refreshLegal_false_of_breach {keys : List Key} {first : Option Key}
    (h : (first = none ∧ keys ≠ []) ∨ (∃ k, first = some k ∧ k ∉ keys)) : refreshLegal keys first = false := by
  rw [Bool.eq_false_iff, ne_eq, refreshLegal_iff]
  rcases h with ⟨rfl, hkeys⟩ | ⟨k, rfl, hk⟩
  · simpa using hkeys
  · simpa using hk

theorem apply_refreshInput_illegal {σ : Session} {keys : List Key} {first : Option Key}
    (h : refreshLegal keys first = false) : σ.apply (.refreshInput keys first) = .refused .badRefresh :=
  if_neg (Bool.eq_false_iff.1 h)

theorem apply_readStatus_backwards {σ : Session} {now : Nat} (h : now < σ.state.clock) :
    σ.apply (.readStatus now) = .refused .clockBackwards := if_neg h.not_ge

theorem apply_load_fresh {σ : Session} (image : List Byte) (h : σ.phase = .fresh) :
    σ.apply (.load image) = σ.answer (σ.state.load image) (.loaded (imageFits image))
      (if imageFits image then .started else .loadFailed) := if_pos h

theorem apply_load_outOfOrder {σ : Session} (image : List Byte) (h : σ.phase ≠ .fresh) :
    σ.apply (.load image) = .refused .loadOutOfOrder := if_neg h

theorem apply_step_afterFailedLoad {σ : Session} (h : σ.phase = .loadFailed) :
    σ.apply .step = .refused .stepAfterFailedLoad := if_pos h

theorem apply_step_allowed {σ : Session} {t : State} (h : σ.phase ≠ .loadFailed) (hstep : step σ.state = .next t) :
    σ.apply .step = σ.answer t .done .started := by
  change σ.doStep = _
  rw [Session.doStep, if_neg h, hstep]

/-- Settles O55: each breach by its refusal, each other operation by its answer; a step always answers. -/
theorem onlyContractBreachesAreRefused : Obligations.OnlyContractBreachesAreRefused := by
  refine fun σ => ⟨fun keys first h => apply_refreshInput_illegal (refreshLegal_false_of_breach h),
    fun now => apply_readStatus_backwards, apply_load_outOfOrder, apply_step_afterFailedLoad,
    fun image h => ⟨_, apply_load_fresh image h, rfl, rfl, rfl⟩, fun h => ?_, ⟨_, rfl, rfl, rfl⟩,
    fun keys first h => ⟨_, apply_refreshInput ((refreshLegal_iff keys first).2 h), rfl⟩,
    fun now h => ⟨_, apply_readStatus h, rfl⟩, ⟨_, rfl, rfl⟩, ⟨_, rfl, rfl⟩⟩
  obtain ⟨t, ht⟩ := step_isNext σ.state
  exact ⟨_, apply_step_allowed h ht, ht, rfl⟩

end Sys2Proof.Machine
end
